-- ==== Sys2Proof/Word.lean ====
section
/-! DEFINITION. The plain types of the model: bytes, bus words, byte strings, bit strings and word
indices (00_scope.md R11 to R13). All integers of the spec are unsigned. -/

namespace Sys2Proof

/-- A byte (00_scope.md R11). -/
abbrev Byte := BitVec 8

/-- A 32-bit register or bus value, bit 0 least significant (00_scope.md R12 (a)). -/
abbrev Word := BitVec 32

/-- A byte string, byte 0 first (00_scope.md R13). -/
abbrev ByteString := List Byte

/-- A bit string, stream position 0 first (00_scope.md R12 (b)). -/
abbrev BitString := List Bool

/-- DTHER's WordIndex, an 11-bit unsigned integer: 0 to 2047 (00_scope.md R16, 10_state.md R36). -/
abbrev WordIndex := BitVec 11

end Sys2Proof
end

