-- ==== Sys2Proof/Syntax.lean ====
section
/-! DEFINITION. What can be written down for the CORE: its commands (one constructor for each row of
spec/opcode_table.json) and the host's statements (30_encoding.md R103). -/

namespace Sys2Proof

/-- A command (30_encoding.md R91). The fields are the presence bits the row uses (R90). -/
inductive Instr where
  /-- `GENMNEM`, 40_mnemonic_encoder.md R141; `ep`: the entropy operand is present. -/
  | genmnem (ep : Bool)
  /-- `GENSEED`, 41_seed_deriver.md R166; `mp`, `pp`: the mnemonic, the passphrase operand is present. -/
  | genseed (mp pp : Bool)
deriving DecidableEq, Repr

/-- The two agents (00_scope.md R17). -/
inductive Agent where
  | host
  | core
deriving DecidableEq, Repr

/-- A statement of the host (30_encoding.md R103), its accesses in the form of 20_memory.md R63 and R64:
`addr` is a byte address of the bus and `n` the width in bytes. The value of a write is 32 bits: no other width
is admitted (20_memory.md R65), so the value of another width never matters. -/
inductive HostStmt where
  /-- `MemRead(addr, n)`; the value read joins what the host has received. -/
  | read (addr n : Nat)
  /-- `MemWrite(addr, n, v)`. -/
  | write (addr n : Nat) (v : Word)
  /-- `POLL`: read `STATUS` until `BUSY` is clear. -/
  | poll
  /-- `RESET`: assert reset (70_reset_and_hazards.md R250). -/
  | reset
deriving DecidableEq, Repr

end Sys2Proof
end

