-- ==== Sys2Proof/Decode.lean ====
section
/-! DEFINITION. The command word (30_encoding.md R90 to R94): its fields, the decoder, total on every 32-bit word and
rejecting by name, and the encoder. The decoder takes the word, not bytes: a command is carried as one 32-bit value
and no narrower access exists (20_memory.md R62, 30_encoding.md R93; log 13, DEDUCED). -/

namespace Sys2Proof

/-- Why a word is an illegal command (30_encoding.md R94). -/
inductive Illegal where
  /-- A non-zero `RSV` bit. -/
  | reservedBits
  /-- `OPC` other than `0x01` and `0x02`. -/
  | opcode
  /-- `MP` or `PP` set with `GENMNEM`, or `EP` set with `GENSEED`. -/
  | unusedPresenceBit
deriving DecidableEq, Repr

namespace CommandWord

/-- `OPC`, bits 7:0 (30_encoding.md R90). -/
def opc (w : Word) : BitVec 8 := w.extractLsb' 0 8
/-- `EP`, bit 8. -/
def ep (w : Word) : Bool := w.getLsbD 8
/-- `MP`, bit 9. -/
def mp (w : Word) : Bool := w.getLsbD 9
/-- `PP`, bit 10. -/
def pp (w : Word) : Bool := w.getLsbD 10
/-- `RSV`, bits 31:11. -/
def rsv (w : Word) : BitVec 21 := w.extractLsb' 11 21

end CommandWord

/-- The decoder of 30_encoding.md R92, with the cause of each rejection (R94). -/
def decodeNamed (w : Word) : Except Illegal Instr :=
  if CommandWord.rsv w ≠ 0 then .error .reservedBits
  else if CommandWord.opc w = 0x01 then
    if CommandWord.mp w = false ∧ CommandWord.pp w = false then .ok (.genmnem (CommandWord.ep w))
    else .error .unusedPresenceBit
  else if CommandWord.opc w = 0x02 then
    if CommandWord.ep w = false then .ok (.genseed (CommandWord.mp w) (CommandWord.pp w))
    else .error .unusedPresenceBit
  else .error .opcode

/-- `decode` of 30_encoding.md R92: the command, or none where the word is `Illegal`. -/
def decode (w : Word) : Option Instr :=
  match decodeNamed w with
  | .ok i => some i
  | .error _ => none

/-- One bit of a command word. -/
def bitAt (b : Bool) (k : Nat) : Word := if b then 1#32 <<< k else 0

/-- The word of a command (30_encoding.md R90, R91). -/
def encode : Instr → Word
  | .genmnem ep => 0x00000001 ||| bitAt ep 8
  | .genseed mp pp => 0x00000002 ||| bitAt mp 9 ||| bitAt pp 10

/-- The `match` and `mask` columns of 30_encoding.md R91 for the row of a command. -/
def rowMatch : Instr → Word
  | .genmnem _ => 0x00000001
  | .genseed _ _ => 0x00000002
def rowMask : Instr → Word
  | .genmnem _ => 0xFFFFFEFF
  | .genseed _ _ => 0xFFFFF9FF

/-- What the decoder reads from a command whose bits are `w`, of which the table gives `nbits`; every bit above is
zero, and a command is 32 bits (30_encoding.md R93). -/
def decodeTableWord (nbits w : Nat) : Option Instr :=
  let v := w % 2 ^ nbits
  if v < 2 ^ 32 then decode (BitVec.ofNat 32 v) else none

end Sys2Proof
end

