-- ==== Sys2Proof/Config.lean ====
section
/-! DEFINITION. The configuration of the CORE: the fixed parameters of 00_scope.md R9, the record of the
open ones (10_state.md R40), and the constants with no body that stand for what the spec leaves open. -/

namespace Sys2Proof

/-- The open parameters of 00_scope.md R9, as the record that 10_state.md R40 names. Each collaborator is a
total function of its arguments (42_external_primitives.md R191); the entry count of the wordlist and the output
lengths of the digest and of the key derivation are part of the types (R180, R183, R186). -/
structure Config where
  /-- `BASE / 4`: `BASE` is a multiple of 4 (00_scope.md R9). -/
  baseWord : Nat
  /-- `WORDLIST`, an 11-bit index to the bytes of one word (42_external_primitives.md R180). -/
  wordlist : WordIndex → ByteString
  /-- `SHA256` (42_external_primitives.md R183). -/
  sha256 : ByteString → Vector Byte 32
  /-- `PBKDF2_HMAC_SHA512 (P, S, c, dkLen)` (42_external_primitives.md R186). -/
  pbkdf2HmacSha512 : (password salt : ByteString) → (iterations dkLen : Nat) → Vector Byte dkLen
  /-- `NFKD_UTF8` (42_external_primitives.md R189). -/
  nfkdUtf8 : ByteString → ByteString
  /-- `IS_BLANK` (41_seed_deriver.md R162). -/
  isBlank : ByteString → Bool
  /-- The bytes of an entropy operand longer than 32 bytes, whose contents 30_encoding.md R95 calls
  irrelevant ("anyBytesOfLength"): a free value, log 10, DESIGN CHOICE. -/
  anyByte : Nat → Byte

namespace Config

/-- `BASE` (00_scope.md R9): a byte address, a multiple of 4. -/
def base (cfg : Config) : Nat := 4 * cfg.baseWord

/-- `ENT_MIN`, `ENT_MAX`, `ENT_STEP` in bits (00_scope.md R9). -/
def entMin : Nat := 128
def entMax : Nat := 256
def entStep : Nat := 32
/-- `GROUP_BITS` (R9). -/
def groupBits : Nat := 11
/-- `KDF_ITER` and `KDF_DKLEN` (R9). -/
def kdfIter : Nat := 2048
abbrev kdfDkLen : Nat := 64
/-- `SALT_PREFIX`, the 8 ASCII bytes of "mnemonic" (R9). -/
def saltPrefix : ByteString := [0x6d, 0x6e, 0x65, 0x6d, 0x6f, 0x6e, 0x69, 0x63]
/-- `MBUF_BYTES` and `PBUF_BYTES` (R9). -/
def mbufBytes : Nat := 256
def pbufBytes : Nat := 256
/-- `WSLOT_BYTES` (R9). -/
def wslotBytes : Nat := 16
/-- The longest entropy whose bytes are read (10_state.md R27): `ENT_MAX / 8`. -/
def entropyMaxBytes : Nat := 32

/-! What the platform fixes and the spec leaves open. None has a body: no proof can see a value. -/

/-- The platform's `BASE / 4` (92_eei_decisions.md D3; log 6, DESIGN CHOICE). -/
opaque platformBaseWord : Nat
/-- The platform's wordlist (42_external_primitives.md R180; log 5, DESIGN CHOICE). -/
opaque platformWordlist : WordIndex → ByteString
/-- The platform's normaliser on byte strings that are not all ASCII (42_external_primitives.md R189, R190;
log 8, DESIGN CHOICE). -/
opaque platformNfkdBeyondAscii : ByteString → ByteString
/-- The bytes of an entropy operand longer than 32 bytes (30_encoding.md R95; log 10, DESIGN CHOICE). -/
opaque freeByte : Nat → Byte

end Config
end Sys2Proof
end

