-- ==== Sys2Proof/Machine/AddressMap.lean ====
section
/-! DEFINITION. The register space (20_memory.md R60 (a), R66): byte buffers, words, their offsets from `BASE`, and the
test that admits a host access (R63 to R65). -/

namespace Sys2Proof.Machine

/-- The byte buffers of 10_state.md R20 (R21: "This holds for `EBUF`, `MBUF`, `PBUF`, `SEED` and each `WTEXT[i]`"). -/
inductive Buffer where
  | ebuf
  | seed
  | mbuf
  | pbuf
  | wtext (i : Fin 24)
deriving DecidableEq, Repr

/-- The offset of a buffer's byte 0 (20_memory.md R66). -/
def Buffer.offset : Buffer → Nat
  | .ebuf => 0x040
  | .seed => 0x080
  | .mbuf => 0x200
  | .pbuf => 0x300
  | .wtext i => 0x400 + 16 * i.val

/-- The size of a buffer in bytes (00_scope.md R9, 10_state.md R20). -/
def Buffer.size : Buffer → Nat
  | .ebuf => 64
  | .seed => 64
  | .mbuf => 256
  | .pbuf => 256
  | .wtext _ => 16

/-- A result buffer is written by the core only, an operand buffer by the host only (10_state.md R22). -/
def Buffer.isResult : Buffer → Bool
  | .ebuf | .mbuf | .pbuf => false
  | .seed | .wtext _ => true

/-- A defined word of the map (20_memory.md R66). -/
inductive Target where
  | cmd
  | status
  | elen
  | mlen
  | plen
  | wcount
  | ebuf (j : Fin 16)
  | seed (j : Fin 16)
  | widx (i : Fin 24)
  | mbuf (j : Fin 64)
  | pbuf (j : Fin 64)
  | wtext (i : Fin 24) (j : Fin 4)
deriving DecidableEq, Repr

/-- The offset of a word (20_memory.md R66: "Word `j` of a buffer at offset `o` is at `o + 4×j`"). -/
def Target.offset : Target → Nat
  | .cmd => 0x000
  | .status => 0x004
  | .elen => 0x008
  | .mlen => 0x00C
  | .plen => 0x010
  | .wcount => 0x014
  | .ebuf j => 0x040 + 4 * j.val
  | .seed j => 0x080 + 4 * j.val
  | .widx i => 0x0C0 + 4 * i.val
  | .mbuf j => 0x200 + 4 * j.val
  | .pbuf j => 0x300 + 4 * j.val
  | .wtext i j => 0x400 + 16 * i.val + 4 * j.val

/-- The word at an offset, none at a misaligned or reserved offset or outside the block (20_memory.md R65, R66). -/
def Target.ofOffset (off : Nat) : Option Target :=
  if off % 4 ≠ 0 then none
  else if off = 0x000 then some .cmd
  else if off = 0x004 then some .status
  else if off = 0x008 then some .elen
  else if off = 0x00C then some .mlen
  else if off = 0x010 then some .plen
  else if off = 0x014 then some .wcount
  else if h : 0x040 ≤ off ∧ off < 0x080 then some (.ebuf ⟨(off - 0x040) / 4, by omega⟩)
  else if h : 0x080 ≤ off ∧ off < 0x0C0 then some (.seed ⟨(off - 0x080) / 4, by omega⟩)
  else if h : 0x0C0 ≤ off ∧ off < 0x120 then some (.widx ⟨(off - 0x0C0) / 4, by omega⟩)
  else if h : 0x200 ≤ off ∧ off < 0x300 then some (.mbuf ⟨(off - 0x200) / 4, by omega⟩)
  else if h : 0x300 ≤ off ∧ off < 0x400 then some (.pbuf ⟨(off - 0x300) / 4, by omega⟩)
  else if h : 0x400 ≤ off ∧ off < 0x580 then
    some (.wtext ⟨(off - 0x400) / 16, by omega⟩ ⟨(off - 0x400) % 16 / 4, by omega⟩)
  else none

/-- The words the host may only read (20_memory.md R66, column RO). -/
def Target.readOnly : Target → Bool
  | .status | .wcount | .seed _ | .widx _ | .wtext _ _ => true
  | .cmd | .elen | .mlen | .plen | .ebuf _ | .mbuf _ | .pbuf _ => false

/-- The words that hold operands: writable unless `BUSY = 1` (20_memory.md R67). -/
def Target.isOperand : Target → Bool
  | .elen | .mlen | .plen | .ebuf _ | .mbuf _ | .pbuf _ => true
  | .cmd | .status | .wcount | .seed _ | .widx _ | .wtext _ _ => false

/-- The word an access names, when it is admitted (20_memory.md R63, R64: `n = 4`, `addr mod 4 = 0`, and
`addr − BASE` the offset of a defined word); none when it is not (R65). -/
def admittedWord (cfg : Config) (addr n : Nat) : Option Target :=
  if n = 4 ∧ addr % 4 = 0 ∧ cfg.base ≤ addr then Target.ofOffset (addr - cfg.base) else none

end Sys2Proof.Machine
end

