-- ==== Sys2Proof/Machine/Errors.lean ====
section
/-! DEFINITION. The error taxonomy (60_exceptions.md R210) and the results of the pure functions (00_scope.md R15). -/

namespace Sys2Proof.Machine

/-- The named errors of 60_exceptions.md R210. Codes 0 and 5 to 15 are not errors: no error is the absence of one of
these, and the reserved codes are never produced (log 15, DESIGN CHOICE). -/
inductive CoreError where
  /-- `InvalidEntropyError`, code 1 (R211); raised by `GENMNEM`. -/
  | invalidEntropy
  /-- `EmptyMnemonicError`, code 2 (R215); raised by `GENSEED`. -/
  | emptyMnemonic
  /-- `IndexOutOfRangeError`, code 3; never raised (R212). -/
  | indexOutOfRange
  /-- `COMMAND_ERROR`, code 4 (R213); raised by any command. -/
  | commandError
deriving DecidableEq, Repr

/-- `ECODE` of an error (60_exceptions.md R210). -/
def CoreError.code : CoreError → BitVec 4
  | .invalidEntropy => 1
  | .emptyMnemonic => 2
  | .indexOutOfRange => 3
  | .commandError => 4

/-- `ok(value)` or `err(code)` (00_scope.md R15). -/
inductive Result (α : Type) where
  | ok (value : α)
  | err (code : CoreError)
deriving DecidableEq, Repr

/-- What an operation yields (30_encoding.md R101). -/
inductive OpResult where
  | err (code : CoreError)
  | okMnemonic (indices : List WordIndex)
  | okSeed (seed : Vector Byte 64)
deriving DecidableEq, Repr

end Sys2Proof.Machine
end

