-- ==== Sys2Proof/Machine/Memory.lean ====
section
/-! DEFINITION. The bytes of the register space's buffers: a list of (offset, byte) cells in one canonical form, the
offsets counted from `BASE` (20_memory.md R60 (a), R66; log 11, DESIGN CHOICE). -/

namespace Sys2Proof.Machine

/-- Cells with rising offsets, none equal to what an unlisted offset reads as. -/
abbrev Memory := List Host.Cell

/-- What an unlisted offset reads as: zero, the reset content of every buffer (10_state.md R39). -/
def Memory.unlisted : Byte := 0

/-- The byte at an offset. -/
def Memory.read : Memory → Nat → Byte
  | [], _ => Memory.unlisted
  | (b, u) :: m, a => if b = a then u else Memory.read m a

/-- Put a byte in front of cells at higher offsets, unless it is what an unlisted offset reads as. -/
def Memory.consCell (a : Nat) (v : Byte) (m : Memory) : Memory :=
  if v = Memory.unlisted then m else (a, v) :: m

/-- Store one byte, keeping the canonical form. -/
def Memory.write : Memory → Nat → Byte → Memory
  | [], a, v => Memory.consCell a v []
  | (b, u) :: m, a, v =>
    if a < b then Memory.consCell a v ((b, u) :: m)
    else if a = b then Memory.consCell a v m
    else (b, u) :: Memory.write m a v

/-- Store a byte string from an offset on. -/
def Memory.writeBytes : Memory → Nat → ByteString → Memory
  | m, _, [] => m
  | m, a, v :: vs => Memory.writeBytes (m.write a v) (a + 1) vs

/-- Make the bytes of `[lo, hi)` zero. -/
def Memory.clear (m : Memory) (lo hi : Nat) : Memory :=
  m.filter fun c => !(decide (lo ≤ c.1) && decide (c.1 < hi))

/-- Every offset of the cells is above a bound. -/
def Memory.above (lo : Nat) (m : Memory) : Bool := m.all fun c => decide (lo < c.1)

/-- The canonical form: offsets strictly rising, no listed byte equal to an unlisted one. -/
def Memory.wf : Memory → Bool
  | [] => true
  | (a, v) :: m => decide (v ≠ Memory.unlisted) && Memory.above a m && Memory.wf m

end Sys2Proof.Machine
end

