-- ==== Sys2Proof/Machine/Bits.lean ====
section
/-! DEFINITION. Bits and bytes: the bit strings of 00_scope.md R12 (b) and the big-endian packing of bytes into words
(10_state.md R21). -/

namespace Sys2Proof.Machine

/-- `bitsMSB(v, n)` (00_scope.md R12): the `n` bits of `v`, most significant first. -/
def bitsMSB (v n : Nat) : BitString :=
  (List.range n).map fun k => v.testBit (n - 1 - k)

/-- `valMSB(b)` (00_scope.md R12): the sum of `b[k] × 2^(n−1−k)`. -/
def valMSB : BitString → Nat
  | [] => 0
  | b :: rest => b.toNat * 2 ^ rest.length + valMSB rest

/-- The byte string of the ASCII codes of a text (00_scope.md R13). -/
def ascii (s : String) : ByteString := s.toList.map fun c => BitVec.ofNat 8 c.toNat

/-- Four bytes as a 32-bit word, the first in the most significant lane (10_state.md R21). -/
def packWord (b0 b1 b2 b3 : Byte) : Word := b0 ++ b1 ++ b2 ++ b3

/-- Byte lane `t` of a word, lane 0 the most significant (10_state.md R21). -/
def wordByte (w : Word) (t : Nat) : Byte := w.extractLsb' (24 - 8 * t) 8

/-- A byte string as one big-endian word (42_external_primitives.md R184: "as a big-endian word"). -/
def beWord (w : Nat) (bs : ByteString) : BitVec w :=
  bs.foldl (fun acc b => acc <<< 8 ||| b.setWidth w) 0

/-- The bytes of a word, big-endian (42_external_primitives.md R184). -/
def beBytes {w : Nat} (x : BitVec w) : ByteString :=
  (List.range (w / 8)).map fun i => x.extractLsb' (w - 8 - 8 * i) 8

/-- The first `n` bytes of a byte string, with zeros after its end. -/
def takePad : Nat → ByteString → ByteString
  | 0, _ => []
  | n + 1, [] => 0 :: takePad n []
  | n + 1, b :: bs => b :: takePad n bs

theorem takePad_length (n : Nat) (bs : ByteString) : (takePad n bs).length = n := by
  induction n generalizing bs with
  | zero => rfl
  | succ n ih => cases bs <;> simp [takePad, ih]

/-- A byte string as exactly `n` bytes. -/
def exactBytes (n : Nat) (bs : ByteString) : Vector Byte n :=
  ⟨⟨takePad n bs⟩, takePad_length n bs⟩

end Sys2Proof.Machine
end

