-- ==== Sys2Proof/Machine/Sha2.lean ====
section
/-! DEFINITION. SHA-256 (42_external_primitives.md R184) and SHA-512 (R188), marked there as general knowledge and given as
the required instantiation (log 7, PRESUMED). One algorithm over the word width, since R188 defines SHA-512 by its differences. -/

namespace Sys2Proof.Machine

/-- What distinguishes the two functions (42_external_primitives.md R184, R188). Rotation triples are those of `Σ0`,
`Σ1`; the last number of `σ0`, `σ1` is a shift. -/
structure Sha2Params (w : Nat) where
  bigSigma0 : Nat × Nat × Nat
  bigSigma1 : Nat × Nat × Nat
  smallSigma0 : Nat × Nat × Nat
  smallSigma1 : Nat × Nat × Nat
  init : List (BitVec w)
  roundConstants : List (BitVec w)

namespace Sha2

variable {w : Nat}

/-- `Ch` (R184). -/
def ch (x y z : BitVec w) : BitVec w := (x &&& y) ^^^ (~~~x &&& z)
/-- `Maj` (R184). -/
def maj (x y z : BitVec w) : BitVec w := (x &&& y) ^^^ (x &&& z) ^^^ (y &&& z)
/-- `Σ` of R184: three rotations to the right. -/
def bigSigma (r : Nat × Nat × Nat) (x : BitVec w) : BitVec w :=
  x.rotateRight r.1 ^^^ x.rotateRight r.2.1 ^^^ x.rotateRight r.2.2
/-- `σ` of R184: two rotations and a shift to the right. -/
def smallSigma (r : Nat × Nat × Nat) (x : BitVec w) : BitVec w :=
  x.rotateRight r.1 ^^^ x.rotateRight r.2.1 ^^^ x >>> r.2.2

/-- Block length in bytes: 16 words. -/
def blockBytes (w : Nat) : Nat := 2 * w
/-- Length in bytes of the length field: 2 words (64 bits in R184, 128 bits in R188). -/
def lengthBytes (w : Nat) : Nat := w / 4

/-- The fewest zero bytes that leave room for the length field alone in the last block (R184). -/
def padZeros (w len : Nat) : Nat :=
  (blockBytes w - (len + 1 + lengthBytes w) % blockBytes w) % blockBytes w

/-- Padding: `0x80`, zeros, then the bit length big-endian (R184, R188). A bit length that does not fit its field is taken
modulo the field: the spec does not say what it is then (log 24, DESIGN CHOICE). -/
def pad (w : Nat) (msg : ByteString) : ByteString :=
  msg ++ [0x80] ++ List.replicate (padZeros w msg.length) 0
    ++ beBytes (BitVec.ofNat (8 * lengthBytes w) (8 * msg.length))

/-- `n` consecutive pieces of `k` bytes. -/
def pieces (k : Nat) : Nat → ByteString → List ByteString
  | 0, _ => []
  | n + 1, bs => bs.take k :: pieces k n (bs.drop k)

/-- The message schedule, newest word first: `W[t] = σ1(W[t−2]) + W[t−7] + σ0(W[t−15]) + W[t−16]` (R184). -/
def extend (p : Sha2Params w) : Nat → List (BitVec w) → List (BitVec w)
  | 0, rev => rev
  | n + 1, rev =>
    extend p n ((smallSigma p.smallSigma1 (rev.getD 1 0) + rev.getD 6 0
      + smallSigma p.smallSigma0 (rev.getD 14 0) + rev.getD 15 0) :: rev)

/-- The words of a block and the rest of its schedule, `W[0]` first. -/
def schedule (p : Sha2Params w) (block : ByteString) : List (BitVec w) :=
  (extend p (p.roundConstants.length - 16)
    ((pieces (w / 8) 16 block).map (beWord w)).reverse).reverse

/-- The eight working variables. -/
structure Regs (w : Nat) where
  a : BitVec w
  b : BitVec w
  c : BitVec w
  d : BitVec w
  e : BitVec w
  f : BitVec w
  g : BitVec w
  h : BitVec w

/-- One round (R184). -/
def round (p : Sha2Params w) (s : Regs w) (k wt : BitVec w) : Regs w :=
  let t1 := s.h + bigSigma p.bigSigma1 s.e + ch s.e s.f s.g + k + wt
  let t2 := bigSigma p.bigSigma0 s.a + maj s.a s.b s.c
  { h := s.g, g := s.f, f := s.e, e := s.d + t1, d := s.c, c := s.b, b := s.a, a := t1 + t2 }

/-- All rounds, one for each constant and schedule word. -/
def rounds (p : Sha2Params w) : List (BitVec w) → List (BitVec w) → Regs w → Regs w
  | k :: ks, wt :: ws, s => rounds p ks ws (round p s k wt)
  | _, _, s => s

/-- The chaining value as working variables. -/
def regsOf (h : List (BitVec w)) : Regs w :=
  { a := h.getD 0 0, b := h.getD 1 0, c := h.getD 2 0, d := h.getD 3 0,
    e := h.getD 4 0, f := h.getD 5 0, g := h.getD 6 0, h := h.getD 7 0 }

/-- One block: `H = H + (a, …, h)`, word by word (R184). -/
def compress (p : Sha2Params w) (h : List (BitVec w)) (block : ByteString) : List (BitVec w) :=
  let s0 := regsOf h
  let s := rounds p p.roundConstants (schedule p block) s0
  [s0.a + s.a, s0.b + s.b, s0.c + s.c, s0.d + s.d, s0.e + s.e, s0.f + s.f, s0.g + s.g, s0.h + s.h]

/-- The digest: the chaining words big-endian (R184). -/
def digest (p : Sha2Params w) (msg : ByteString) : ByteString :=
  let padded := pad w msg
  let blocks := pieces (blockBytes w) (padded.length / blockBytes w) padded
  (blocks.foldl (compress p) p.init).flatMap beBytes

end Sha2

/-- The constants of SHA-256 (42_external_primitives.md R184). -/
def sha256Params : Sha2Params 32 where
  bigSigma0 := (2, 13, 22)
  bigSigma1 := (6, 11, 25)
  smallSigma0 := (7, 18, 3)
  smallSigma1 := (17, 19, 10)
  init := [0x6a09e667, 0xbb67ae85, 0x3c6ef372, 0xa54ff53a, 0x510e527f, 0x9b05688c, 0x1f83d9ab, 0x5be0cd19]
  roundConstants :=
    [0x428a2f98, 0x71374491, 0xb5c0fbcf, 0xe9b5dba5, 0x3956c25b, 0x59f111f1, 0x923f82a4, 0xab1c5ed5] ++
    [0xd807aa98, 0x12835b01, 0x243185be, 0x550c7dc3, 0x72be5d74, 0x80deb1fe, 0x9bdc06a7, 0xc19bf174] ++
    [0xe49b69c1, 0xefbe4786, 0x0fc19dc6, 0x240ca1cc, 0x2de92c6f, 0x4a7484aa, 0x5cb0a9dc, 0x76f988da] ++
    [0x983e5152, 0xa831c66d, 0xb00327c8, 0xbf597fc7, 0xc6e00bf3, 0xd5a79147, 0x06ca6351, 0x14292967] ++
    [0x27b70a85, 0x2e1b2138, 0x4d2c6dfc, 0x53380d13, 0x650a7354, 0x766a0abb, 0x81c2c92e, 0x92722c85] ++
    [0xa2bfe8a1, 0xa81a664b, 0xc24b8b70, 0xc76c51a3, 0xd192e819, 0xd6990624, 0xf40e3585, 0x106aa070] ++
    [0x19a4c116, 0x1e376c08, 0x2748774c, 0x34b0bcb5, 0x391c0cb3, 0x4ed8aa4a, 0x5b9cca4f, 0x682e6ff3] ++
    [0x748f82ee, 0x78a5636f, 0x84c87814, 0x8cc70208, 0x90befffa, 0xa4506ceb, 0xbef9a3f7, 0xc67178f2]

/-- The constants of SHA-512 (42_external_primitives.md R188). -/
def sha512Params : Sha2Params 64 where
  bigSigma0 := (28, 34, 39)
  bigSigma1 := (14, 18, 41)
  smallSigma0 := (1, 8, 7)
  smallSigma1 := (19, 61, 6)
  init := [
    0x6a09e667f3bcc908, 0xbb67ae8584caa73b, 0x3c6ef372fe94f82b, 0xa54ff53a5f1d36f1,
    0x510e527fade682d1, 0x9b05688c2b3e6c1f, 0x1f83d9abfb41bd6b, 0x5be0cd19137e2179]
  roundConstants :=
    [0x428a2f98d728ae22, 0x7137449123ef65cd, 0xb5c0fbcfec4d3b2f, 0xe9b5dba58189dbbc] ++
    [0x3956c25bf348b538, 0x59f111f1b605d019, 0x923f82a4af194f9b, 0xab1c5ed5da6d8118] ++
    [0xd807aa98a3030242, 0x12835b0145706fbe, 0x243185be4ee4b28c, 0x550c7dc3d5ffb4e2] ++
    [0x72be5d74f27b896f, 0x80deb1fe3b1696b1, 0x9bdc06a725c71235, 0xc19bf174cf692694] ++
    [0xe49b69c19ef14ad2, 0xefbe4786384f25e3, 0x0fc19dc68b8cd5b5, 0x240ca1cc77ac9c65] ++
    [0x2de92c6f592b0275, 0x4a7484aa6ea6e483, 0x5cb0a9dcbd41fbd4, 0x76f988da831153b5] ++
    [0x983e5152ee66dfab, 0xa831c66d2db43210, 0xb00327c898fb213f, 0xbf597fc7beef0ee4] ++
    [0xc6e00bf33da88fc2, 0xd5a79147930aa725, 0x06ca6351e003826f, 0x142929670a0e6e70] ++
    [0x27b70a8546d22ffc, 0x2e1b21385c26c926, 0x4d2c6dfc5ac42aed, 0x53380d139d95b3df] ++
    [0x650a73548baf63de, 0x766a0abb3c77b2a8, 0x81c2c92e47edaee6, 0x92722c851482353b] ++
    [0xa2bfe8a14cf10364, 0xa81a664bbc423001, 0xc24b8b70d0f89791, 0xc76c51a30654be30] ++
    [0xd192e819d6ef5218, 0xd69906245565a910, 0xf40e35855771202a, 0x106aa07032bbd1b8] ++
    [0x19a4c116b8d2d0c8, 0x1e376c085141ab53, 0x2748774cdf8eeb99, 0x34b0bcb5e19b48a8] ++
    [0x391c0cb3c5c95a63, 0x4ed8aa4ae3418acb, 0x5b9cca4f7763e373, 0x682e6ff3d6b2b8a3] ++
    [0x748f82ee5defb2fc, 0x78a5636f43172f60, 0x84c87814a1f0ab72, 0x8cc702081a6439ec] ++
    [0x90befffa23631e28, 0xa4506cebde82bde9, 0xbef9a3f7b2c67915, 0xc67178f2e372532b] ++
    [0xca273eceea26619c, 0xd186b8c721c0c207, 0xeada7dd6cde0eb1e, 0xf57d4f7fee6ed178] ++
    [0x06f067aa72176fba, 0x0a637dc5a2c898a6, 0x113f9804bef90dae, 0x1b710b35131c471b] ++
    [0x28db77f523047d84, 0x32caab7b40c72493, 0x3c9ebe0a15c9bebc, 0x431d67c49c100d4c] ++
    [0x4cc5d4becb3e42b6, 0x597f299cfc657e2a, 0x5fcb6fab3ad6faec, 0x6c44198c4a475817]

/-- SHA-256 (42_external_primitives.md R184): 32 bytes. -/
def sha256 (msg : ByteString) : Vector Byte 32 := exactBytes 32 (Sha2.digest sha256Params msg)

/-- SHA-512 (42_external_primitives.md R188): 64 bytes. -/
def sha512 (msg : ByteString) : ByteString := Sha2.digest sha512Params msg

end Sys2Proof.Machine
end

