-- ==== Sys2Proof/Machine/Kdf.lean ====
section
/-! DEFINITION. HMAC-SHA-512 and PBKDF2 (42_external_primitives.md R187), marked there as general knowledge and given as
the required instantiation (log 7, PRESUMED). -/

namespace Sys2Proof.Machine

/-- Byte-wise exclusive or. -/
def xorBytes (x y : ByteString) : ByteString := List.zipWith (· ^^^ ·) x y

/-- The HMAC block size `B` for SHA-512, in bytes (R187). -/
def hmacBlock : Nat := 128

/-- `K0` (R187): the key, hashed when it is longer than a block, padded on the right with zeros to a block. -/
def hmacKey (key : ByteString) : ByteString :=
  takePad hmacBlock (if key.length > hmacBlock then sha512 key else key)

/-- HMAC-SHA-512 (R187). -/
def hmacSha512 (key text : ByteString) : ByteString :=
  let k0 := hmacKey key
  let inner := sha512 (xorBytes k0 (List.replicate hmacBlock 0x36) ++ text)
  sha512 (xorBytes k0 (List.replicate hmacBlock 0x5c) ++ inner)

/-- `n` more applications of the pseudo-random function, exclusive-ored into `acc` (R187: `U_j = PRF(P, U_{j−1})`). -/
def kdfChain (password : ByteString) : Nat → ByteString → ByteString → ByteString
  | 0, _, acc => acc
  | n + 1, u, acc =>
    let u' := hmacSha512 password u
    kdfChain password n u' (xorBytes acc u')

/-- Block `T_i` (R187): `U_1 ^ … ^ U_c`, with `U_1 = PRF(P, S ‖ INT(i))`. The count `c` is positive (R186); log 17,
DESIGN CHOICE. An index of 2^32 or more is taken modulo 2^32 for the four bytes of `INT(i)`: the spec does not say what
they are then (log 25, DESIGN CHOICE). -/
def kdfBlock (password salt : ByteString) (iterations i : Nat) : ByteString :=
  let u1 := hmacSha512 password (salt ++ beBytes (BitVec.ofNat 32 i))
  kdfChain password (iterations - 1) u1 u1

/-- The output length `hLen` of the pseudo-random function (R187). -/
def kdfHLen : Nat := 64

/-- PBKDF2 with HMAC-SHA-512 (R187): the first `dkLen` bytes of `T_1 ‖ … ‖ T_l`, `l = ceil(dkLen / hLen)`. -/
def pbkdf2HmacSha512 (password salt : ByteString) (iterations dkLen : Nat) : Vector Byte dkLen :=
  exactBytes dkLen
    ((List.range ((dkLen + kdfHLen - 1) / kdfHLen)).flatMap fun i => kdfBlock password salt iterations (i + 1))

end Sys2Proof.Machine
end

