-- ==== Sys2Proof/WellFormed.lean ====
section
/-! DEFINITION. Which written terms are legal: commands (30_encoding.md R91), host statements (20_memory.md R63 to R65)
and wordlists (70_reset_and_hazards.md R252). -/

namespace Sys2Proof

/-- A command is well formed. `Instr` holds exactly the presence bits its row uses, and each row admits all their
values (30_encoding.md R91: six legal words), so no term is ill formed. -/
def Instr.wellFormed : Instr → Bool
  | .genmnem _ => true
  | .genseed _ _ => true

/-- A host statement is well formed when its access is admitted (20_memory.md R63 to R65). -/
def HostStmt.wellFormed (cfg : Config) : HostStmt → Bool
  | .read addr n => (Machine.admittedWord cfg addr n).isSome
  | .write addr n _ => (Machine.admittedWord cfg addr n).isSome
  | .poll => true
  | .reset => true

/-- `WordlistWellFormed` (70_reset_and_hazards.md R252): the 2048 entries are pairwise distinct and each is 1 to 16
bytes long. -/
structure WordlistWellFormed (w : WordIndex → ByteString) : Prop where
  distinct : ∀ i j : WordIndex, i ≠ j → w i ≠ w j
  sized : ∀ i : WordIndex, 1 ≤ (w i).length ∧ (w i).length ≤ Config.wslotBytes

/-- The verdict on the wordlist (70_reset_and_hazards.md R253), as the CORE takes it at reset. -/
@[irreducible] def wordlistVerdict (w : WordIndex → ByteString) : Bool :=
  decide (∀ i j : WordIndex, i ≠ j → w i ≠ w j) &&
  decide (∀ i : WordIndex, 1 ≤ (w i).length ∧ (w i).length ≤ Config.wslotBytes)

end Sys2Proof
end

