-- ==== Sys2Proof/Machine/Platform.lean ====
section
/-! DEFINITION. The platform's configuration: the required instantiations (00_scope.md R9, 42_external_primitives.md), the
default blank test (41_seed_deriver.md R162), and the required properties of the parameters that stay open, as named
premises. -/

namespace Sys2Proof.Machine

/-- The whitespace bytes of the default `IS_BLANK` (41_seed_deriver.md R162). -/
def isAsciiSpace (b : Byte) : Bool :=
  b == 0x09 || b == 0x0A || b == 0x0B || b == 0x0C || b == 0x0D || b == 0x20

/-- The default `IS_BLANK` (41_seed_deriver.md R162): every byte is one of the six (log 9, DESIGN CHOICE). -/
def isBlankDefault (m : ByteString) : Bool := m.all isAsciiSpace

/-- All bytes in `0x00` to `0x7F` (42_external_primitives.md R189 (b)). -/
def isAscii (t : ByteString) : Bool := t.all fun b => b < 0x80

/-- The platform's `NFKD_UTF8`: ASCII text unchanged (42_external_primitives.md R189 (b)), any other byte string left to
the injected routine (R190; log 8, DESIGN CHOICE). -/
def nfkdPlatform (t : ByteString) : ByteString :=
  if isAscii t then t else Config.platformNfkdBeyondAscii t

/-- A byte between two bounds. -/
def byteIn (lo hi b : Byte) : Bool := lo ≤ b && b ≤ hi

/-- One character of a text as its UTF-8 bytes: the byte ranges of the Unicode Standard, table 3-7 (log 12, PRESUMED). -/
def utf8Char : ByteString → Bool
  | [b0] => b0 < 0x80
  | [b0, b1] => byteIn 0xC2 0xDF b0 && byteIn 0x80 0xBF b1
  | [b0, b1, b2] =>
    byteIn 0x80 0xBF b2 &&
      ((b0 == 0xE0 && byteIn 0xA0 0xBF b1) || (byteIn 0xE1 0xEC b0 && byteIn 0x80 0xBF b1) ||
        (b0 == 0xED && byteIn 0x80 0x9F b1) || (byteIn 0xEE 0xEF b0 && byteIn 0x80 0xBF b1))
  | [b0, b1, b2, b3] =>
    byteIn 0x80 0xBF b2 && byteIn 0x80 0xBF b3 &&
      ((b0 == 0xF0 && byteIn 0x90 0xBF b1) || (byteIn 0xF1 0xF3 b0 && byteIn 0x80 0xBF b1) ||
        (b0 == 0xF4 && byteIn 0x80 0x8F b1))
  | _ => false

/-- The characters of a text in order, none where it is not well-formed UTF-8 (log 12, PRESUMED). -/
def utf8Chars : ByteString → Option (List ByteString)
  | [] => some []
  | b0 :: t0 =>
    if utf8Char [b0] then (utf8Chars t0).map ([b0] :: ·)
    else match t0 with
      | [] => none
      | b1 :: t1 =>
        if utf8Char [b0, b1] then (utf8Chars t1).map ([b0, b1] :: ·)
        else match t1 with
          | [] => none
          | b2 :: t2 =>
            if utf8Char [b0, b1, b2] then (utf8Chars t2).map ([b0, b1, b2] :: ·)
            else match t2 with
              | [] => none
              | b3 :: t3 =>
                if utf8Char [b0, b1, b2, b3] then (utf8Chars t3).map ([b0, b1, b2, b3] :: ·)
                else none

/-- Well-formed UTF-8. PRESUMED: the spec uses the term without defining it (42_external_primitives.md R189); used in the
premise `NfkdLaws` only (log 12, PRESUMED). -/
def wellFormedUtf8 (m : ByteString) : Bool := (utf8Chars m).isSome

/-- The required properties of `NFKD_UTF8` (42_external_primitives.md R189): (b), (c), (d), and of (a) that the result
on well-formed text is well-formed text. The Unicode data of (a) is not in the spec (log 8, DESIGN CHOICE). -/
structure NfkdLaws (nfkd : ByteString → ByteString) : Prop where
  wellFormed : ∀ t, wellFormedUtf8 t = true → wellFormedUtf8 (nfkd t) = true
  ascii : ∀ t, isAscii t = true → nfkd t = t
  idempotent : ∀ t, wellFormedUtf8 t = true → nfkd (nfkd t) = nfkd t
  afterSaltPrefix : ∀ p, wellFormedUtf8 p = true →
    nfkd (Config.saltPrefix ++ p) = Config.saltPrefix ++ nfkd p

/-- The default whitespace set as a set of characters (41_seed_deriver.md R162): the six, each one byte long. -/
def isAsciiSpaceChar : ByteString → Bool
  | [b] => isAsciiSpace b
  | _ => false

/-- The required properties of `IS_BLANK` for a whitespace set `space` of characters, each given as its UTF-8 bytes
(41_seed_deriver.md R162): the empty text is blank, and a text is blank exactly when each of its characters belongs to
the set. A text that is not well formed has no characters to speak of, and its value is left open (log 9). -/
structure BlankLaws (isBlank : ByteString → Bool) (space : ByteString → Bool) : Prop where
  empty : isBlank [] = true
  all : ∀ m chars, utf8Chars m = some chars → isBlank m = chars.all space

/-- The entries of the table that DTHER fixes (42_external_primitives.md R181). A named premise: the platform's table is
open (log 5, DESIGN CHOICE). -/
structure DtherEntries (w : WordIndex → ByteString) : Prop where
  entry0 : w 0 = ascii "abandon"
  entry3 : w 3 = ascii "about"

/-- The entries of the published English list that 42_external_primitives.md R182 gives. -/
def publishedEntries : List (WordIndex × String) :=
  [(0, "abandon"), (1, "ability"), (2, "able"), (3, "about"), (4, "above"), (5, "absent"), (6, "absorb")] ++
  [(7, "abstract"), (8, "absurd"), (16, "acoustic"), (32, "advice"), (64, "amount"), (128, "avoid")] ++
  [(257, "cage"), (514, "doctor"), (1019, "legal"), (1028, "letter"), (1533, "sausage"), (1790, "thank")] ++
  [(1919, "useful"), (1983, "wave"), (2015, "winner"), (2031, "worth"), (2037, "wrong"), (2039, "year")] ++
  [(2040, "yellow"), (2047, "zoo")]

/-- A table with those entries: general knowledge (R182), a premise a claim names when it rests on it (log 5, DESIGN
CHOICE). -/
def PublishedEntries (w : WordIndex → ByteString) : Prop := ∀ p ∈ publishedEntries, w p.1 = ascii p.2

/-- The configuration of the machine (00_scope.md R9): the required instantiations and defaults, and the constants with
no body for what is open. -/
def platform : Config where
  baseWord := Config.platformBaseWord
  wordlist := Config.platformWordlist
  sha256 := sha256
  pbkdf2HmacSha512 := pbkdf2HmacSha512
  nfkdUtf8 := nfkdPlatform
  isBlank := isBlankDefault
  anyByte := Config.freeByte

end Sys2Proof.Machine
end

