-- ==== Sys2Proof/Machine/State.lean ====
section
/-! DEFINITION. The state: the CORE's registers and buffers (10_state.md R20), the host's statements still to come and
what it has received, and the choices of who moves next (log 1, DESIGN CHOICE, log 2, DESIGN CHOICE). Plain data. -/

namespace Sys2Proof.Machine

/-- One of `WIDX[0..23]` (10_state.md R33): its implemented bits. -/
structure WordReg where
  /-- `IDX`, bits 10:0. -/
  idx : WordIndex
  /-- `WLEN`, bits 20:16. -/
  wlen : BitVec 5
deriving DecidableEq, Repr

/-- A `WIDX` register that is entirely zero: "no word" (10_state.md R33). -/
def WordReg.zero : WordReg := { idx := 0, wlen := 0 }

/-- The complete architectural state of one CORE instance (10_state.md R20), each register at its implemented width. The
bytes of `EBUF`, `SEED`, `MBUF`, `PBUF` and `WTEXT[0..23]` are `mem`, at their offsets of 20_memory.md R66. -/
structure CoreState where
  /-- `CMD`, the last accepted command word (R24). -/
  cmd : Word
  /-- `STATUS.BUSY` (R25). -/
  busy : Bool
  /-- `STATUS.DONE` (R25). -/
  done : Bool
  /-- `STATUS.ERR` (R25). -/
  err : Bool
  /-- `STATUS.FATAL` (R25). -/
  fatal : Bool
  /-- `STATUS.ECODE` (R25); none is code 0. -/
  ecode : Option CoreError
  /-- `ELEN`, bits 7:0 (R27). -/
  elen : BitVec 8
  /-- `MLEN`, bits 8:0 (R28). -/
  mlen : BitVec 9
  /-- `PLEN`, bits 8:0 (R29). -/
  plen : BitVec 9
  /-- `WCOUNT`, bits 4:0 (R32). -/
  wcount : BitVec 5
  /-- `WIDX[0..23]` (R33). -/
  widx : Vector WordReg 24
  /-- The bytes of the buffers (R21, R30, R31, R34, R35). -/
  mem : Memory
deriving DecidableEq, Repr

/-- The CORE under its configuration, with the host that drives it. -/
structure State where
  core : CoreState
  /-- The host's statements still to be performed, the next one first (30_encoding.md R103; log 1, DESIGN CHOICE). -/
  script : List HostStmt
  /-- The values the host's reads returned, oldest first (R103; log 1, DESIGN CHOICE). -/
  received : List Word
  /-- Who moves when both the core and the host can, the next choice first (93_implementation_defined.md U6; log 2,
  DESIGN CHOICE). -/
  turns : List Agent
deriving DecidableEq, Repr

/-- Reasons the machine stops with a fault. There is none: the CORE has no traps (60_exceptions.md, opening); every error
of an operation is a code in `STATUS` and a next state (R224). -/
inductive Fault where
deriving DecidableEq, Repr

/-- Reasons a step is refused. -/
inductive Refusal where
  /-- Raised by `exec` for a command that has no meaning yet; safe. No arm uses it. -/
  | notModelled (mnemonic : String)
  /-- Raised by the host's access step for an access that is not admitted: "a model refuses it (the host step does not
  exist)" (20_memory.md R65; log 14, DEDUCED); safe. -/
  | accessNotAdmitted (addr n : Nat)
deriving DecidableEq, Repr

/-- The CORE right after reset (10_state.md R39, 70_reset_and_hazards.md R250): everything zero but `FATAL`, the verdict
on the wordlist (R253). -/
def CoreState.reset (cfg : Config) : CoreState where
  cmd := 0
  busy := false
  done := false
  err := false
  fatal := !wordlistVerdict cfg.wordlist
  ecode := none
  elen := 0
  mlen := 0
  plen := 0
  wcount := 0
  widx := Vector.replicate 24 WordReg.zero
  mem := []

/-- A machine right after reset, its host silent. -/
def State.resetWith (cfg : Config) : State where
  core := CoreState.reset cfg
  script := []
  received := []
  turns := []

/-- The machine right after reset (10_state.md R39) under the platform's configuration. -/
def State.reset : State := State.resetWith platform

end Sys2Proof.Machine
end

