-- ==== Sys2Proof/Machine/Flags.lean ====
section
/-! DEFINITION. `STATUS` (10_state.md R25): the word the host reads, and every way its bits change (issue R100, completion
R101, R224). -/

namespace Sys2Proof.Machine

/-- The 4 bits of `STATUS.ECODE` (60_exceptions.md R210): 0 where there is no error. -/
def ecodeBits : Option CoreError → BitVec 4
  | none => 0
  | some e => e.code

/-- One flag as a bit. -/
def flag (b : Bool) : BitVec 1 := BitVec.ofBool b

/-- `STATUS` as read (10_state.md R25): bits 31:8 zero, `ECODE` 7:4, `FATAL` 3, `ERR` 2, `DONE` 1, `BUSY` 0. -/
def CoreState.status (c : CoreState) : Word :=
  0#24 ++ ecodeBits c.ecode ++ flag c.fatal ++ flag c.err ++ flag c.done ++ flag c.busy

/-- The flags at issue (30_encoding.md R100). -/
def CoreState.flagsIssued (c : CoreState) : CoreState :=
  { c with busy := true, done := false, err := false, ecode := none }

/-- The flags at a completion without error (30_encoding.md R101). -/
def CoreState.flagsDone (c : CoreState) : CoreState :=
  { c with busy := false, done := true }

/-- The flags at a completion with an error (30_encoding.md R101, 60_exceptions.md R224). -/
def CoreState.flagsError (e : CoreError) (c : CoreState) : CoreState :=
  { c with busy := false, err := true, ecode := some e }

end Sys2Proof.Machine
end

