-- ==== Sys2Proof/Machine/Operands.lean ====
section
/-! DEFINITION. Reading the buffers (10_state.md R21) and assembling the operands of the commands (30_encoding.md R95, R96). -/

namespace Sys2Proof.Machine

/-- `BYTE(B, k)` (00_scope.md R14, 10_state.md R21). -/
def CoreState.byte (c : CoreState) (b : Buffer) (k : Nat) : Byte := c.mem.read (b.offset + k)

/-- `bytes(B, n)` (00_scope.md R14). -/
def CoreState.bytes (c : CoreState) (b : Buffer) (n : Nat) : ByteString := (List.range n).map (c.byte b)

/-- Word `j` of a buffer: its four bytes, byte 0 in the most significant lane (10_state.md R21). -/
def CoreState.word (c : CoreState) (b : Buffer) (j : Nat) : Word :=
  packWord (c.byte b (4 * j)) (c.byte b (4 * j + 1)) (c.byte b (4 * j + 2)) (c.byte b (4 * j + 3))

/-- The entropy operand of `GENMNEM` (30_encoding.md R95). Longer than 32 bytes its contents are free (log 10, DESIGN
CHOICE): the validator rejects it on its length alone. -/
def entropyOperand (cfg : Config) (ep : Bool) (c : CoreState) : Option ByteString :=
  if ep = false then none
  else if c.elen.toNat ≤ Config.entropyMaxBytes then some (c.bytes .ebuf c.elen.toNat)
  else some ((List.range c.elen.toNat).map cfg.anyByte)

/-- The mnemonic operand of `GENSEED` (30_encoding.md R96). -/
def mnemonicOperand (mp : Bool) (c : CoreState) : Option ByteString :=
  if mp = false then none else some (c.bytes .mbuf c.mlen.toNat)

/-- The passphrase operand of `GENSEED` (30_encoding.md R96). -/
def passphraseOperand (pp : Bool) (c : CoreState) : Option ByteString :=
  if pp = false then none else some (c.bytes .pbuf c.plen.toNat)

/-- A present text operand names bytes its buffer does not have (30_encoding.md R96, 41_seed_deriver.md R166). -/
def overCapacity (mp pp : Bool) (c : CoreState) : Bool :=
  (mp && decide (Config.mbufBytes < c.mlen.toNat)) || (pp && decide (Config.pbufBytes < c.plen.toNat))

end Sys2Proof.Machine
end

