-- ==== Sys2Proof/Machine/Ops.lean ====
section
/-! DEFINITION. The operations every step is made of: host reads and writes of a word (20_memory.md R63 to R68), issue
(30_encoding.md R100), completion (R101), reporting an error (60_exceptions.md R224, the analogue of taking an
exception) and its clearing (R225: the next issue, or reset). -/

namespace Sys2Proof.Machine

/-- `RomRead(i)` (20_memory.md R70). -/
def romRead (cfg : Config) (i : WordIndex) : ByteString := cfg.wordlist i

/-- A `WIDX` register as read (10_state.md R33): `IDX` 10:0, `WLEN` 20:16, the rest zero. -/
def WordReg.word (r : WordReg) : Word := 0#11 ++ r.wlen ++ 0#5 ++ r.idx

/-- The value of a word (20_memory.md R63): its implemented bits with zero above them, or four packed bytes. -/
def CoreState.readWord (c : CoreState) : Target → Word
  | .cmd => c.cmd
  | .status => c.status
  | .elen => c.elen.setWidth 32
  | .mlen => c.mlen.setWidth 32
  | .plen => c.plen.setWidth 32
  | .wcount => c.wcount.setWidth 32
  | .ebuf j => c.word .ebuf j.val
  | .seed j => c.word .seed j.val
  | .widx i => c.widx[i].word
  | .mbuf j => c.word .mbuf j.val
  | .pbuf j => c.word .pbuf j.val
  | .wtext i j => c.word (.wtext i) j.val

/-- All result registers zero (30_encoding.md R100). -/
def CoreState.clearResults (c : CoreState) : CoreState :=
  { c with
    wcount := 0
    widx := Vector.replicate 24 WordReg.zero
    mem := (c.mem.clear 0x080 0x0C0).clear 0x400 0x580 }

/-- The issue of an accepted command word (30_encoding.md R100). The word is not decoded here. -/
def CoreState.issue (v : Word) (c : CoreState) : CoreState :=
  ({ c with cmd := v } : CoreState).flagsIssued.clearResults

/-- A command is accepted (30_encoding.md R100). -/
def CoreState.accepts (c : CoreState) : Bool := !c.busy && !c.fatal

/-- The four bytes of a word stored at an offset (10_state.md R21). -/
def Memory.writeWord (m : Memory) (off : Nat) (v : Word) : Memory :=
  m.writeBytes off [wordByte v 0, wordByte v 1, wordByte v 2, wordByte v 3]

/-- A host write to an operand word: ignored while busy, else the implemented bits are stored (20_memory.md R64, R67,
R68; 10_state.md R27 to R31). A word that holds no operand is left alone. -/
def CoreState.writeOperand (t : Target) (v : Word) (c : CoreState) : CoreState :=
  if c.busy then c
  else match t with
    | .elen => { c with elen := v.setWidth 8 }
    | .mlen => { c with mlen := v.setWidth 9 }
    | .plen => { c with plen := v.setWidth 9 }
    | .ebuf j => { c with mem := c.mem.writeWord (Target.offset (.ebuf j)) v }
    | .mbuf j => { c with mem := c.mem.writeWord (Target.offset (.mbuf j)) v }
    | .pbuf j => { c with mem := c.mem.writeWord (Target.offset (.pbuf j)) v }
    | .cmd | .status | .wcount | .seed _ | .widx _ | .wtext _ _ => c

/-- A host write to any word of the map (20_memory.md R64): a command, an operand, or ignored (R68). -/
def CoreState.writeWord (t : Target) (v : Word) (c : CoreState) : CoreState :=
  match t with
  | .cmd => if c.accepts then c.issue v else c
  | .elen | .mlen | .plen | .ebuf _ | .mbuf _ | .pbuf _ => c.writeOperand t v
  | .status | .wcount | .seed _ | .widx _ | .wtext _ _ => c

/-- Word `i` of a result (30_encoding.md R101): `WIDX[i]` and the bytes of `WTEXT[i]`. Positions from 24 on do not exist.
A well-formed wordlist has words of at most 16 bytes; under any other no command is ever accepted (log 16, DEDUCED). -/
def CoreState.placeWord (cfg : Config) (i : Nat) (idx : WordIndex) (c : CoreState) : CoreState :=
  if h : i < 24 then
    let w := romRead cfg idx
    { c with
      widx := c.widx.set i { idx := idx, wlen := BitVec.ofNat 5 w.length }
      mem := c.mem.writeBytes (Buffer.offset (.wtext ⟨i, h⟩)) (w.take Config.wslotBytes) }
  else c

/-- The words of a result from position `i` on, in order (30_encoding.md R101). -/
def CoreState.placeWords (cfg : Config) : Nat → List WordIndex → CoreState → CoreState
  | _, [], c => c
  | i, idx :: rest, c => CoreState.placeWords cfg (i + 1) rest (c.placeWord cfg i idx)

/-- Reporting an error (60_exceptions.md R224): `BUSY` cleared, `ERR` and `ECODE` set, nothing else changed. -/
def CoreState.reportError (e : CoreError) (c : CoreState) : CoreState := c.flagsError e

/-- The completion of a `GENMNEM` without error (30_encoding.md R101). -/
def CoreState.reportMnemonic (cfg : Config) (indices : List WordIndex) (c : CoreState) : CoreState :=
  CoreState.placeWords cfg 0 indices { c.flagsDone with wcount := BitVec.ofNat 5 indices.length }

/-- The completion of a `GENSEED` without error (30_encoding.md R101). -/
def CoreState.reportSeed (seed : Vector Byte 64) (c : CoreState) : CoreState :=
  { c.flagsDone with mem := c.mem.writeBytes (Buffer.offset .seed) seed.toList }

/-- The completion step (30_encoding.md R101). -/
def CoreState.complete (cfg : Config) (r : OpResult) (c : CoreState) : CoreState :=
  match r with
  | .err e => c.reportError e
  | .okMnemonic indices => c.reportMnemonic cfg indices
  | .okSeed seed => c.reportSeed seed

/-- The completion step of the machine: the CORE alone changes. -/
def State.complete (cfg : Config) (r : OpResult) (s : State) : State :=
  { s with core := s.core.complete cfg r }

/-- A command in flight whose completion is the next thing to happen: its word accepted by a CORE that is not FATAL
(30_encoding.md R100), and a silent host. Stands for the host's write to `CMD` (log 3, DESIGN CHOICE). -/
def State.placeCommand (v : Word) (s : State) : State :=
  { s with core := ({ s.core with fatal := false } : CoreState).issue v, script := [] }

end Sys2Proof.Machine
end

