-- ==== Sys2Proof/Machine/Encoder.lean ====
section
/-! DEFINITION. The entropy-to-mnemonic encoder (40_mnemonic_encoder.md): its four internal units as pure functions of the
configuration, `generateMnemonics`, and the command `GENMNEM`. -/

namespace Sys2Proof.Machine

/-- `ENT`, the entropy length in bits (00_scope.md R10). -/
def entBits (e : ByteString) : Nat := 8 * e.length

/-- `CS = ENT / 32`, the checksum length in bits (00_scope.md R10). -/
def csBits (e : ByteString) : Nat := entBits e / Config.entStep

/-- `validate` (40_mnemonic_encoder.md R121). -/
def validate : Option ByteString → Result ByteString
  | none => .err .invalidEntropy
  | some e =>
    if entBits e < Config.entMin then .err .invalidEntropy
    else if entBits e > Config.entMax then .err .invalidEntropy
    else if entBits e % Config.entStep ≠ 0 then .err .invalidEntropy
    else .ok e

/-- `checksum` (40_mnemonic_encoder.md R125, 30_encoding.md R99): the top `CS` bits of the digest's first byte, and
`CS`. -/
def checksum (cfg : Config) (e : ByteString) : Nat × Nat :=
  let d := cfg.sha256 e
  ((d[0] >>> (8 - csBits e)).toNat, csBits e)

/-- `concatenate` (40_mnemonic_encoder.md R128, 30_encoding.md R97). -/
def concatenate (e : ByteString) (c cs : Nat) : BitString :=
  (e.flatMap fun b => bitsMSB b.toNat 8) ++ bitsMSB c cs

/-- The index of group `j` (30_encoding.md R98): its 11 bits, the first the most significant. -/
def groupIndex (b : BitString) (j : Nat) : WordIndex :=
  BitVec.ofNat 11 (valMSB ((b.drop (Config.groupBits * j)).take Config.groupBits))

/-- `mapIndices` (40_mnemonic_encoder.md R131): the indices in group order, each with its word. -/
def mapIndices (cfg : Config) (b : BitString) : List (WordIndex × ByteString) :=
  (List.range (b.length / Config.groupBits)).map fun j => (groupIndex b j, romRead cfg (groupIndex b j))

/-- The BitString of a valid entropy (40_mnemonic_encoder.md R140: digest, checksum, concatenation). -/
def bitString (cfg : Config) (e : ByteString) : BitString :=
  concatenate e (checksum cfg e).1 (checksum cfg e).2

/-- `generateMnemonics` (40_mnemonic_encoder.md R140): fail fast, then checksum, concatenate, map. -/
def generateMnemonics (cfg : Config) (entropy : Option ByteString) : Result (List (WordIndex × ByteString)) :=
  match validate entropy with
  | .err e => .err e
  | .ok e => .ok (mapIndices cfg (bitString cfg e))

/-- `GENMNEM` as a function of the operand registers (40_mnemonic_encoder.md R141). -/
def genmnem (cfg : Config) (ep : Bool) (c : CoreState) : OpResult :=
  match generateMnemonics cfg (entropyOperand cfg ep c) with
  | .err e => .err e
  | .ok words => .okMnemonic (words.map Prod.fst)

/-- The completion of a `GENMNEM` command (40_mnemonic_encoder.md R141, 30_encoding.md R101). -/
def runGenmnem (cfg : Config) (ep : Bool) (s : State) : State :=
  s.complete cfg (genmnem cfg ep s.core)

/-- The meaning of `GENMNEM` on the platform. -/
def execGenmnem (ep : Bool) (s : State) : Host.Outcome State Fault Refusal :=
  .next (runGenmnem platform ep s)

end Sys2Proof.Machine
end

