-- ==== Sys2Proof/Machine/SeedDeriver.lean ====
section
/-! DEFINITION. The seed deriver (41_seed_deriver.md): its stages as pure functions of the configuration, `generateSeed`,
and the command `GENSEED`. -/

namespace Sys2Proof.Machine

/-- `checkMnemonic` (41_seed_deriver.md R161): the text itself, not a trimmed copy. -/
def checkMnemonic (cfg : Config) : Option ByteString → Result ByteString
  | none => .err .emptyMnemonic
  | some m => if cfg.isBlank m then .err .emptyMnemonic else .ok m

/-- The salt (41_seed_deriver.md R163): "mnemonic", then the passphrase, empty when absent, never trimmed. -/
def salt (passphrase : Option ByteString) : ByteString := Config.saltPrefix ++ passphrase.getD []

/-- Normalisation and key derivation (41_seed_deriver.md R164, R165): the whole salt is normalised
(90_conflicts.md C4). -/
def deriveSeed (cfg : Config) (m saltText : ByteString) : Vector Byte 64 :=
  cfg.pbkdf2HmacSha512 (cfg.nfkdUtf8 m) (cfg.nfkdUtf8 saltText) Config.kdfIter Config.kdfDkLen

/-- `generateSeed` (41_seed_deriver.md R166), defined for every length. -/
def generateSeed (cfg : Config) (mnemonic passphrase : Option ByteString) : Result (Vector Byte 64) :=
  match checkMnemonic cfg mnemonic with
  | .err e => .err e
  | .ok m => .ok (deriveSeed cfg m (salt passphrase))

/-- `GENSEED` as a function of the operand registers (41_seed_deriver.md R166): the capacity test comes first
(60_exceptions.md R222). -/
def genseed (cfg : Config) (mp pp : Bool) (c : CoreState) : OpResult :=
  if overCapacity mp pp c then .err .commandError
  else match generateSeed cfg (mnemonicOperand mp c) (passphraseOperand pp c) with
    | .err e => .err e
    | .ok seed => .okSeed seed

/-- The completion of a `GENSEED` command (41_seed_deriver.md R166, 30_encoding.md R101). -/
def runGenseed (cfg : Config) (mp pp : Bool) (s : State) : State :=
  s.complete cfg (genseed cfg mp pp s.core)

/-- The meaning of `GENSEED` on the platform. -/
def execGenseed (mp pp : Bool) (s : State) : Host.Outcome State Fault Refusal :=
  .next (runGenseed platform mp pp s)

end Sys2Proof.Machine
end

