-- ==== Sys2Proof/Machine/Agents.lean ====
section
/-! DEFINITION. Who moves and what the move does: the host's statements (30_encoding.md R103), the core's completion
(R101), their interleaving (20_memory.md R73, 93_implementation_defined.md U6), under any configuration. -/

namespace Sys2Proof.Machine

/-- A move of the machine. -/
inductive Move where
  /-- Nobody has a step: `BUSY = 0` and no host statement is left. -/
  | idle
  /-- The core completes the operation in flight. -/
  | core
  /-- The host performs a statement. -/
  | host (st : HostStmt)
deriving DecidableEq, Repr

/-- Who moves next. A reset precedes every other event (70_reset_and_hazards.md R251; log 4, DEDUCED). The core can
move exactly when `BUSY = 1` (30_encoding.md R101). Where both can, `turns` says who moves; when it is used up, or the
host has no statement left, the core does: the weak fairness of R101 (log 2, DESIGN CHOICE). -/
def State.nextMove (s : State) : Move :=
  match s.script with
  | [] => if s.core.busy then .core else .idle
  | .reset :: _ => .host .reset
  | st :: _ =>
    if s.core.busy then
      match s.turns with
      | .host :: _ => .host st
      | .core :: _ => .core
      | [] => .core
    else .host st

/-- Both agents can move, so that a choice of `turns` is used. -/
def State.contended (s : State) : Bool :=
  match s.script with
  | [] => false
  | .reset :: _ => false
  | _ :: _ => s.core.busy

/-- The choice of this step taken from `turns`, where there was one. -/
def State.takeTurn (s : State) : State :=
  if s.contended then { s with turns := s.turns.tail } else s

/-- The state after a read of the host: the value received, the statement done; the CORE unchanged
(20_memory.md R63). -/
def State.hostReceives (v : Word) (s : State) : State :=
  { s with script := s.script.tail, received := s.received ++ [v] }

/-- The state after a host write of a word. -/
def State.hostWrites (t : Target) (v : Word) (s : State) : State :=
  { s with script := s.script.tail, core := s.core.writeWord t v }

/-- The state after a reset (70_reset_and_hazards.md R250): the CORE alone is reset, and the host goes on. -/
def State.hostResets (cfg : Config) (s : State) : State :=
  { s with script := s.script.tail, core := CoreState.reset cfg }

/-- A statement of the host (30_encoding.md R103). An access that is not admitted is refused (20_memory.md R65; log
14, DEDUCED). `POLL` reads `STATUS` and stays while `BUSY` is set (log 19, DEDUCED). -/
def hostStep (cfg : Config) (st : HostStmt) (s : State) : Host.Outcome State Fault Refusal :=
  match st with
  | .read addr n =>
    match admittedWord cfg addr n with
    | some t => .next (s.hostReceives (s.core.readWord t))
    | none => .refused (.accessNotAdmitted addr n)
  | .write addr n v =>
    match admittedWord cfg addr n with
    | some t => .next (s.hostWrites t v)
    | none => .refused (.accessNotAdmitted addr n)
  | .poll => if s.core.busy then .next s else .next (s.hostReceives s.core.status)
  | .reset => .next (s.hostResets cfg)

/-- The completion of a command word that does not decode (30_encoding.md R94, R101; 60_exceptions.md R213). -/
def runIllegal (cfg : Config) (s : State) : State := s.complete cfg (.err .commandError)

/-- The core's step (30_encoding.md R101): decode `CMD`, execute, complete. -/
def coreStep (cfg : Config) (run : Instr → State → Host.Outcome State Fault Refusal) (s : State) :
    Host.Outcome State Fault Refusal :=
  match decode s.core.cmd with
  | some i => run i s
  | none => .next (runIllegal cfg s)

/-- One step of the machine. With nobody to move it stays as it is (log 20, DESIGN CHOICE). -/
def stepOf (cfg : Config) (run : Instr → State → Host.Outcome State Fault Refusal) (s : State) :
    Host.Outcome State Fault Refusal :=
  match s.nextMove with
  | .idle => .next s
  | .core => coreStep cfg run s.takeTurn
  | .host st => hostStep cfg st s.takeTurn

/-- The commands under any configuration. -/
def execWith (cfg : Config) (i : Instr) (s : State) : Host.Outcome State Fault Refusal :=
  match i with
  | .genmnem ep => .next (runGenmnem cfg ep s)
  | .genseed mp pp => .next (runGenseed cfg mp pp s)

/-- The machine under any configuration. -/
def stepWith (cfg : Config) (s : State) : Host.Outcome State Fault Refusal := stepOf cfg (execWith cfg) s

/-- `execute(w)` of 30_encoding.md R101: a pure function of the word, the operand registers and the configuration. -/
def execute (cfg : Config) (w : Word) (c : CoreState) : OpResult :=
  match decode w with
  | none => .err .commandError
  | some (.genmnem ep) => genmnem cfg ep c
  | some (.genseed mp pp) => genseed cfg mp pp c

end Sys2Proof.Machine
end

