-- ==== Sys2Proof/Machine/Dispatch.lean ====
section
/-! DEFINITION. The meaning of each command, one arm for each constructor of Instr. -/

namespace Sys2Proof.Machine

def exec (i : Instr) (s : State) : Host.Outcome State Fault Refusal :=
  match i with
  | .genmnem ep => Sys2Proof.Machine.execGenmnem ep s
  | .genseed mp pp => Sys2Proof.Machine.execGenseed mp pp s

end Sys2Proof.Machine
end

