-- ==== Sys2Proof/Machine/Step.lean ====
section
/-! DEFINITION. One step of the machine on the platform, and the placing of a command where the next step runs it. -/

namespace Sys2Proof.Machine

/-- One step: the completion of the operation in flight, a statement of the host, or nothing (Machine/Agents.lean). -/
def step (s : State) : Host.Outcome State Fault Refusal := stepOf platform exec s

/-- `s` with the command word `w` (its low `nbits` bits) accepted, so that the next step completes it (log 3, DESIGN
CHOICE). -/
def State.withFetchWord (s : State) (nbits w : Nat) : State :=
  s.placeCommand (BitVec.ofNat 32 (w % 2 ^ nbits))

end Sys2Proof.Machine
end

