-- ==== Sys2Proof/Machine/HostScript.lean ====
section
/-! DEFINITION. The host's side of the interface: the statements `WR` and `RD` by register (30_encoding.md R103), host
programs that branch on what they read, the two macros (R104) and `joinWords` (41_seed_deriver.md R168). None of it is
hardware. -/

namespace Sys2Proof.Machine

/-- A host program: statements of 30_encoding.md R103 one after another, what follows a read depending on the value
(R104: "POLL", then "if s.ERR = 1"). -/
inductive HostProgram (α : Type) where
  /-- The program is over, with a result. -/
  | done (a : α)
  /-- "fail with error s.ECODE" (30_encoding.md R104). -/
  | fail (ecode : BitVec 4)
  /-- A statement whose value the program does not use. -/
  | perform (st : HostStmt) (rest : HostProgram α)
  /-- A read or a poll, and what the program does with the value. -/
  | receive (st : HostStmt) (rest : Word → HostProgram α)

/-- How a run of a host program stands. -/
inductive HostRun (α : Type) where
  | returned (a : α) (s : State)
  | failed (ecode : BitVec 4) (s : State)
  /-- The steps given were too few. -/
  | unfinished (s : State)
  | faulted (f : Fault)
  | refused (r : Refusal)

/-- The host is about to perform one statement. -/
def State.withStatement (st : HostStmt) (s : State) : State := { s with script := [st] }

/-- The statement of the host is done: a step leaves it in place while the core moves, and while a poll finds
`BUSY` set (30_encoding.md R103). -/
def State.statementDone (s : State) : Bool := s.script.isEmpty

/-- The value the host received last. -/
def State.lastReceived (s : State) : Word := s.received.getLastD 0

/-- `k` steps of the machine with a host that follows a program: the host's next statement is the program's, and the core
moves between its statements as in any other run (30_encoding.md R101, R103, R104). -/
def HostProgram.run {α : Type} (cfg : Config) : Nat → HostProgram α → State → HostRun α
  | _, .done a, s => .returned a s
  | _, .fail e, s => .failed e s
  | 0, .perform _ _, s => .unfinished s
  | 0, .receive _ _, s => .unfinished s
  | k + 1, .perform st rest, s =>
    match stepWith cfg (s.withStatement st) with
    | .next t => if t.statementDone then HostProgram.run cfg k rest t else HostProgram.run cfg k (.perform st rest) t
    | .fault f => .faulted f
    | .refused r => .refused r
  | k + 1, .receive st rest, s =>
    match stepWith cfg (s.withStatement st) with
    | .next t =>
      if t.statementDone then HostProgram.run cfg k (rest t.lastReceived) t
      else HostProgram.run cfg k (.receive st rest) t
    | .fault f => .faulted f
    | .refused r => .refused r

/-- A list of statements whose values are not used, then the rest. -/
def HostProgram.performAll {α : Type} (sts : List HostStmt) (rest : HostProgram α) : HostProgram α :=
  sts.foldr .perform rest

/-- A list of reads, then what is done with their values in order. -/
def HostProgram.receiveAll {α : Type} : List HostStmt → (List Word → HostProgram α) → HostProgram α
  | [], rest => rest []
  | st :: sts, rest => .receive st fun v => HostProgram.receiveAll sts fun vs => rest (v :: vs)

/-- `POLL -> s`, then "if s.ERR = 1: fail with error s.ECODE", else the rest (30_encoding.md R104; the fields of `STATUS`
are 10_state.md R25's). -/
def HostProgram.pollThen {α : Type} (rest : HostProgram α) : HostProgram α :=
  .receive .poll fun s => if s.getLsbD 2 then .fail (s.extractLsb' 4 4) else rest

end Sys2Proof.Machine

namespace Sys2Proof.Machine.HostScript

/-- `WR name, value` (30_encoding.md R103). -/
def wr (cfg : Config) (t : Target) (v : Word) : HostStmt := .write (cfg.base + t.offset) 4 v

/-- `RD name` (30_encoding.md R103). -/
def rd (cfg : Config) (t : Target) : HostStmt := .read (cfg.base + t.offset) 4

/-- `pack(e, j)` (30_encoding.md R104): four bytes from `4j` on, missing bytes as zero. -/
def pack (e : ByteString) (j : Nat) : Word :=
  packWord (e.getD (4 * j) 0) (e.getD (4 * j + 1) 0) (e.getD (4 * j + 2) 0) (e.getD (4 * j + 3) 0)

/-- Writes of a byte string to the words of a buffer, the words given by their index; words the buffer does not have are
not written. -/
def wrBytes (cfg : Config) (n : Nat) (target : Fin n → Target) (e : ByteString) : List HostStmt :=
  ((List.finRange n).filter fun j => 4 * j.val < e.length).map fun j => wr cfg (target j) (pack e j.val)

/-- The writes of the macro `generateMnemonics(e)`, the command the last (30_encoding.md R104). -/
def mnemonicWrites (cfg : Config) (entropy : Option ByteString) : List HostStmt :=
  match entropy with
  | none => [wr cfg .cmd 0x00000001]
  | some e =>
    wrBytes cfg 16 Target.ebuf e ++ [wr cfg .elen (BitVec.ofNat 32 e.length), wr cfg .cmd 0x00000101]

/-- The macro `generateMnemonics(e)` up to and with its `POLL`, as a list (30_encoding.md R104). -/
def mnemonicIssue (cfg : Config) (entropy : Option ByteString) : List HostStmt := mnemonicWrites cfg entropy ++ [.poll]

/-- "for i in 0..n−1: RD WIDX[i]; RD WTEXT[i][0..3]" (30_encoding.md R104), for the positions that exist. -/
def mnemonicWordReads (cfg : Config) (n : Nat) : List HostStmt :=
  ((List.finRange 24).filter fun i => i.val < n).flatMap fun i =>
    rd cfg (.widx i) :: (List.finRange 4).map fun j => rd cfg (.wtext i j)

/-- The reads that end the macro `generateMnemonics` when `WCOUNT` was `n`, as a list (30_encoding.md R104). -/
def mnemonicCollect (cfg : Config) (n : Nat) : List HostStmt := rd cfg .wcount :: mnemonicWordReads cfg n

/-- The four bytes of a word that was read, lane 0 first (10_state.md R21). -/
def wordBytes (w : Word) : ByteString := [wordByte w 0, wordByte w 1, wordByte w 2, wordByte w 3]

/-- The index and the text of one word, from the values of its five reads: `IDX`, and the first `WLEN` of its sixteen
bytes (10_state.md R33, R34). What a host does with the values it reads, R104 leaves open (log 21, DESIGN CHOICE). -/
def wordOfReads (widx t0 t1 t2 t3 : Word) : WordIndex × ByteString :=
  (widx.extractLsb' 0 11,
    (wordBytes t0 ++ wordBytes t1 ++ wordBytes t2 ++ wordBytes t3).take (widx.extractLsb' 16 5).toNat)

/-- The words, from the values of the reads of `mnemonicWordReads`. -/
def wordsOfReads : List Word → List (WordIndex × ByteString)
  | widx :: t0 :: t1 :: t2 :: t3 :: rest => wordOfReads widx t0 t1 t2 t3 :: wordsOfReads rest
  | _ => []

/-- The macro `generateMnemonics` from its `POLL` on: it fails with the code where `ERR` is set, else it reads `WCOUNT`
and as many words as that says (30_encoding.md R104). -/
def mnemonicFinish (cfg : Config) : HostProgram (List (WordIndex × ByteString)) :=
  .pollThen (.receive (rd cfg .wcount) fun n =>
    .receiveAll (mnemonicWordReads cfg n.toNat) fun vs => .done (wordsOfReads vs))

/-- The macro `generateMnemonics(e)` (30_encoding.md R104). -/
def mnemonicMacro (cfg : Config) (entropy : Option ByteString) : HostProgram (List (WordIndex × ByteString)) :=
  .performAll (mnemonicWrites cfg entropy) (mnemonicFinish cfg)

/-- The writes for one text of the macro `generateSeed`: the words of its buffer and its length, none where it is absent
(30_encoding.md R104). -/
def textWrites (cfg : Config) (target : Fin 64 → Target) (len : Target) : Option ByteString → List HostStmt
  | none => []
  | some t => wrBytes cfg 64 target t ++ [wr cfg len (BitVec.ofNat 32 t.length)]

/-- The writes of the macro `generateSeed(m, p)`, the command the last (30_encoding.md R104). -/
def seedWrites (cfg : Config) (m p : Option ByteString) : List HostStmt :=
  textWrites cfg Target.mbuf .mlen m ++ textWrites cfg Target.pbuf .plen p ++
    [wr cfg .cmd (encode (.genseed m.isSome p.isSome))]

/-- The macro `generateSeed(m, p)` up to and with its `POLL`, as a list (30_encoding.md R104). -/
def seedIssue (cfg : Config) (m p : Option ByteString) : List HostStmt := seedWrites cfg m p ++ [.poll]

/-- The reads that end the macro `generateSeed` (30_encoding.md R104). -/
def seedCollect (cfg : Config) : List HostStmt :=
  (List.finRange 16).map fun j => rd cfg (.seed j)

/-- The macro `generateSeed` from its `POLL` on: it fails with the code where `ERR` is set, else it reads the seed, whose
bytes are its result (30_encoding.md R104; log 21, DESIGN CHOICE). -/
def seedFinish (cfg : Config) : HostProgram ByteString :=
  .pollThen (.receiveAll (seedCollect cfg) fun vs => .done (vs.flatMap wordBytes))

/-- The macro `generateSeed(m, p)` (30_encoding.md R104). -/
def seedMacro (cfg : Config) (m p : Option ByteString) : HostProgram ByteString :=
  .performAll (seedWrites cfg m p) (seedFinish cfg)

/-- `joinWords` (41_seed_deriver.md R168): the words separated by single spaces. Of no words, for which the rule gives no
value, the empty text (log 26, DESIGN CHOICE). -/
def joinWords : List ByteString → ByteString
  | [] => []
  | [w] => w
  | w :: ws => w ++ 0x20 :: joinWords ws

end Sys2Proof.Machine.HostScript
end

