-- ==== Sys2Proof/Machine/Instances.lean ====
section
/-! DEFINITION. Several instances of the CORE (60_exceptions.md R234): "the product of `n` independent models with one
configuration", each with its own `BASE` and its own state (log 18, DEDUCED). -/

namespace Sys2Proof.Machine

/-- One instance: its base and its state. -/
structure Unit where
  /-- `BASE / 4` of this instance. -/
  baseWord : Nat
  state : State
deriving DecidableEq, Repr

/-- The configuration as one instance sees it: shared, but for its own `BASE` (60_exceptions.md R234). -/
def Unit.config (cfg : Config) (u : Unit) : Config := { cfg with baseWord := u.baseWord }

/-- One step of one instance. -/
def Unit.step (cfg : Config) (u : Unit) : Host.Outcome Unit Fault Refusal :=
  match stepWith (u.config cfg) u.state with
  | .next s => .next { u with state := s }
  | .fault f => .fault f
  | .refused r => .refused r

/-- One step of instance `k` of several; where there is no such instance nothing moves. -/
def stepUnits (cfg : Config) : Nat → List Unit → Host.Outcome (List Unit) Fault Refusal
  | _, [] => .next []
  | 0, u :: us =>
    match u.step cfg with
    | .next u' => .next (u' :: us)
    | .fault f => .fault f
    | .refused r => .refused r
  | k + 1, u :: us =>
    match stepUnits cfg k us with
    | .next us' => .next (u :: us')
    | .fault f => .fault f
    | .refused r => .refused r

end Sys2Proof.Machine
end

