-- ==== Sys2Proof/Safety.lean ====
section
/-! DEFINITION. What the claims call a sound state: the status invariant of 10_state.md R26, the form of the buffers' memory,
the shape of results (R32 to R35), and what a run may not do. -/

namespace Sys2Proof.Machine

/-- An offset of a byte of an operand buffer: `EBUF`, `MBUF` or `PBUF` (20_memory.md R66). -/
abbrev operandOffset (a : Nat) : Prop := (0x040 ≤ a ∧ a < 0x080) ∨ (0x200 ≤ a ∧ a < 0x400)

/-- An offset of a byte of a result buffer: `SEED` or `WTEXT` (20_memory.md R66). -/
abbrev resultOffset (a : Nat) : Prop := (0x080 ≤ a ∧ a < 0x0C0) ∨ (0x400 ≤ a ∧ a < 0x580)

/-- Every result register is zero: `WCOUNT`, `WIDX`, `WTEXT`, `SEED` (10_state.md R26). -/
structure ResultsZero (c : CoreState) : Prop where
  wcount : c.wcount = 0
  widx : ∀ i : Fin 24, c.widx[i] = WordReg.zero
  bytes : ∀ a, resultOffset a → c.mem.read a = 0

/-- The operand registers and buffers of two states are equal (10_state.md R22). -/
structure SameOperands (c d : CoreState) : Prop where
  elen : c.elen = d.elen
  mlen : c.mlen = d.mlen
  plen : c.plen = d.plen
  bytes : ∀ a, operandOffset a → c.mem.read a = d.mem.read a

/-- The result registers and buffers of two states are equal (10_state.md R22). -/
structure SameResults (c d : CoreState) : Prop where
  wcount : c.wcount = d.wcount
  widx : ∀ i : Fin 24, c.widx[i] = d.widx[i]
  bytes : ∀ a, resultOffset a → c.mem.read a = d.mem.read a

/-- The status bits of two states are equal (10_state.md R25). -/
structure SameStatus (c d : CoreState) : Prop where
  busy : c.busy = d.busy
  done : c.done = d.done
  err : c.err = d.err
  fatal : c.fatal = d.fatal
  ecode : c.ecode = d.ecode

/-- The status invariant of 10_state.md R26, but for its clause on history. -/
structure StatusInv (c : CoreState) : Prop where
  busyDone : ¬(c.busy = true ∧ c.done = true)
  busyErr : ¬(c.busy = true ∧ c.err = true)
  doneErr : ¬(c.done = true ∧ c.err = true)
  ecode : c.ecode ≠ none ↔ c.err = true
  fatal : c.fatal = true → c.busy = false ∧ c.done = false ∧ c.err = false ∧ c.ecode = none
  results : c.done = false → ResultsZero c

/-- None of `BUSY`, `DONE`, `ERR` is set: no command has been accepted since reset (10_state.md R26). -/
def CoreState.untouched (c : CoreState) : Bool := !c.busy && !c.done && !c.err

/-- The memory of the buffers is canonical and lists bytes of buffers only. -/
structure MemoryInv (m : Memory) : Prop where
  wf : m.wf = true
  mapped : ∀ cell ∈ m, operandOffset cell.1 ∨ resultOffset cell.1

/-- The word registers from `n` on are zero, and so are their texts (10_state.md R33, R34). -/
structure NoWordsFrom (n : Nat) (c : CoreState) : Prop where
  widx : ∀ i : Fin 24, n ≤ i.val → c.widx[i] = WordReg.zero
  wtext : ∀ i : Fin 24, n ≤ i.val → ∀ k, k < 16 → c.byte (.wtext i) k = 0

/-- The words below `n` are entries of the wordlist, with their lengths and padded texts (10_state.md R33, R34). -/
structure WordsBelow (cfg : Config) (n : Nat) (c : CoreState) : Prop where
  wlen : ∀ i : Fin 24, i.val < n → c.widx[i].wlen.toNat = (cfg.wordlist c.widx[i].idx).length
  wtext : ∀ i : Fin 24, i.val < n → ∀ k, k < 16 →
    c.byte (.wtext i) k = (cfg.wordlist c.widx[i].idx).getD k 0

/-- The shape of the results in every state (10_state.md R32 to R35): the first `WCOUNT` word registers hold words, the
others are zero, `WCOUNT` is 0 or one of the five counts, and words and a seed are never there together. -/
structure ResultsInv (cfg : Config) (c : CoreState) : Prop where
  count : c.wcount.toNat ∈ [0, 12, 15, 18, 21, 24]
  below : WordsBelow cfg c.wcount.toNat c
  above : NoWordsFrom c.wcount.toNat c
  seed : c.wcount ≠ 0 → ∀ k, k < 64 → c.byte .seed k = 0

/-- The valid entropy lengths in bytes (40_mnemonic_encoder.md R121). -/
def validLengths : List Nat := [16, 20, 24, 28, 32]

/-- Stream position `p` of the BitString of entropy `e` with a checksum `c` of `cs` bits, position by position
(30_encoding.md R97). -/
def positionBit (e : ByteString) (c cs p : Nat) : Bool :=
  if p < 8 * e.length then (e.getD (p / 8) 0).getLsbD (7 - p % 8)
  else c.testBit (cs - 1 - (p - 8 * e.length))

/-- The leading `CS` bits of the digest's first byte, `CS = len(e) / 4` (30_encoding.md R99, 40_mnemonic_encoder.md
R125). -/
def leadingChecksum (cfg : Config) (e : ByteString) : Nat :=
  (cfg.sha256 e)[0].toNat / 2 ^ (8 - e.length / 4)

/-- The index of word `j` as the sum of 30_encoding.md R98 over the positions of R97. -/
def positionIndex (cfg : Config) (e : ByteString) (j : Nat) : Nat :=
  ∑ k ∈ Finset.range 11,
    (positionBit e (leadingChecksum cfg e) (e.length / 4) (11 * j + k)).toNat * 2 ^ (10 - k)

/-- A byte string as one big-endian unsigned integer: the `E` of 40_mnemonic_encoder.md R135. -/
def bigEndian (e : ByteString) : Nat := e.foldl (fun acc b => 256 * acc + b.toNat) 0

/-- Every statement the host has left is admitted (20_memory.md R63 to R65). -/
def State.scriptAdmitted (cfg : Config) (s : State) : Bool := s.script.all (HostStmt.wellFormed cfg)

/-- No statement the host has left is a reset. -/
def State.scriptResetFree (s : State) : Bool := s.script.all fun st => decide (st ≠ .reset)

/-- `k` steps of the machine under a configuration. -/
def runWith (cfg : Config) : Nat → State → Host.Outcome State Fault Refusal
  | 0, s => .next s
  | k + 1, s =>
    match stepWith cfg s with
    | .next t => runWith cfg k t
    | .fault f => .fault f
    | .refused r => .refused r

end Sys2Proof.Machine
end

