-- ==== Sys2Proof/Certificates/Slice0/Obligations.lean ====
section
/-! DEFINITION. The statements for the provers. Each docstring names the rule it formalises, or says that it is derived.
Statements over every configuration are about `stepWith cfg` and `execWith cfg`; `StepIsThePlatformMachine` says that the
platform's `step` and `exec` are these at `platform`. -/

open Sys2Proof Sys2Proof.Machine

/-! ### The command word -/

/-- Derived (95_test_vectors.md section 4.1): words written out from 30_encoding.md R91 and R94. -/
def Obligations.WrittenCommandWordsDecode : Prop :=
  decode 0x00000001 = some (.genmnem false) ∧ decode 0x00000101 = some (.genmnem true) ∧
  decode 0x00000002 = some (.genseed false false) ∧ decode 0x00000202 = some (.genseed true false) ∧
  decode 0x00000402 = some (.genseed false true) ∧ decode 0x00000602 = some (.genseed true true) ∧
  decode 0x00000000 = none ∧ decode 0x00000003 = none ∧ decode 0x00000301 = none ∧ decode 0x00000701 = none ∧
  decode 0x00000102 = none ∧ decode 0x00000801 = none ∧ decode 0x80000001 = none ∧ decode 0xFFFFFFFF = none

/-- Derived (30_encoding.md R90 to R92): decoding an encoded command gives it back, and every word that decodes is the
encoding of what it decodes to. -/
def Obligations.DecodeAndEncodeAgree : Prop :=
  (∀ i : Instr, decode (encode i) = some i) ∧
  (∀ (w : Word) (i : Instr), decode w = some i → encode i = w)

/-- 30_encoding.md R91: a word selects the row whose masked bits match, with the flags the row uses; the six words are
the complete list. -/
def Obligations.WordsSelectTheirRow : Prop :=
  (∀ (w : Word) (ep : Bool), decode w = some (.genmnem ep) ↔ w &&& 0xFFFFFEFF = 0x00000001 ∧ ep = w.getLsbD 8) ∧
  (∀ (w : Word) (mp pp : Bool), decode w = some (.genseed mp pp) ↔
    w &&& 0xFFFFF9FF = 0x00000002 ∧ mp = w.getLsbD 9 ∧ pp = w.getLsbD 10) ∧
  (∀ w : Word, (decode w).isSome = true ↔
    w ∈ [0x00000001, 0x00000101, 0x00000002, 0x00000202, 0x00000402, 0x00000602])

/-- 30_encoding.md R94: which words are illegal; an illegal command is accepted like any other and completes with
`COMMAND_ERROR`, computing nothing. -/
def Obligations.IllegalWordsFailAtCompletion : Prop :=
  (∀ w : Word, decode w = none ↔
    w.extractLsb' 11 21 ≠ 0 ∨ (w.extractLsb' 0 8 ≠ 0x01 ∧ w.extractLsb' 0 8 ≠ 0x02) ∨
    (w.extractLsb' 0 8 = 0x01 ∧ (w.getLsbD 9 = true ∨ w.getLsbD 10 = true)) ∨
    (w.extractLsb' 0 8 = 0x02 ∧ w.getLsbD 8 = true)) ∧
  (∀ (w : Word) (c : CoreState), decode w = none → c.busy = false → c.fatal = false →
    (c.writeWord .cmd w).cmd = w ∧ (c.writeWord .cmd w).busy = true) ∧
  (∀ s : State, s.nextMove = .core → decode s.core.cmd = none →
    step s = .next { s.takeTurn with
      core := { s.core with busy := false, err := true, ecode := some .commandError } })

/-! ### Steps and their order -/

/-- Derived (30_encoding.md R101): a step of the core runs the decoded command on the state whose turn was taken. The
second clause is the model's choice and no rule of the spec: `withFetchWord` is introduced by log 3 (DESIGN CHOICE), and
the clause says that the next step runs the command it places. -/
def Obligations.StepRunsTheDecodedCommand : Prop :=
  (∀ (s : State) (i : Instr), s.nextMove = .core → decode s.core.cmd = some i → step s = exec i s.takeTurn) ∧
  (∀ (s : State) (nbits w : Nat) (i : Instr), decodeTableWord nbits w = some i →
    step (s.withFetchWord nbits w) = exec i (s.withFetchWord nbits w))

/-- Derived (00_scope.md R9): the platform's machine is the machine under the platform's configuration. -/
def Obligations.StepIsThePlatformMachine : Prop :=
  (∀ (i : Instr) (s : State), exec i s = execWith platform i s) ∧ ∀ s : State, step s = stepWith platform s

/-- Derived (30_encoding.md R101, 70_reset_and_hazards.md R250, R251): the core's step is enabled exactly when `BUSY =
1` and writes the result of `execute`; both orders of the core and the host are possible; a reset that is next comes
first. Who moves is the model's (log 2, DESIGN CHOICE; log 4, DEDUCED). -/
def Obligations.CompletionIsEnabledExactlyWhileBusy : Prop :=
  (∀ s : State, s.nextMove = .core → s.core.busy = true) ∧
  (∀ s : State, s.core.busy = true → s.script.head? ≠ some .reset →
    ∃ turns, ({ s with turns := turns } : State).nextMove = .core) ∧
  (∀ (s : State) (st : HostStmt) (rest : List HostStmt), s.script = st :: rest →
    ∃ turns, ({ s with turns := turns } : State).nextMove = .host st) ∧
  (∀ (s : State) (rest : List HostStmt), s.script = .reset :: rest → s.nextMove = .host .reset) ∧
  (∀ (cfg : Config) (s : State), s.nextMove = .core →
    stepWith cfg s =
      .next { s.takeTurn with core := s.core.complete cfg (execute cfg s.core.cmd s.core) })

/-- Derived (20_memory.md R65, 60_exceptions.md opening): no step faults, a step is refused only for an access that is
not admitted, and a host whose statements are all admitted is never stopped. -/
def Obligations.AdmittedScriptsAreNeverStopped : Prop :=
  (∀ (cfg : Config) (s : State) (f : Fault), stepWith cfg s ≠ .fault f) ∧
  (∀ (cfg : Config) (s : State) (r : Refusal), stepWith cfg s = .refused r →
    ∃ addr n, r = .accessNotAdmitted addr n ∧ admittedWord cfg addr n = none) ∧
  (∀ (cfg : Config) (s : State), s.scriptAdmitted cfg = true →
    ∃ t, stepWith cfg s = .next t ∧ t.scriptAdmitted cfg = true)

/-- Derived (30_encoding.md R101: an operation in flight is eventually completed): with no reset coming and the host's
accesses admitted, the operation in flight ends within as many steps as there are choices left, and one more. The
bound is the model's (log 2, DESIGN CHOICE). -/
def Obligations.OperationInFlightCompletes : Prop :=
  ∀ (cfg : Config) (s : State), s.core.busy = true → s.scriptAdmitted cfg = true → s.scriptResetFree = true →
    ∃ k t, 1 ≤ k ∧ k ≤ s.turns.length + 1 ∧ runWith cfg k s = .next t ∧ t.core.busy = false ∧
      t.core = s.core.complete cfg (execute cfg s.core.cmd s.core)

/-- Derived (30_encoding.md R101: "Apart from reset nothing else can end an operation"): `BUSY` goes from 1 to 0 only
by a completion or a reset. -/
def Obligations.OnlyCompletionOrResetEndsAnOperation : Prop :=
  ∀ (cfg : Config) (s t : State), stepWith cfg s = .next t → s.core.busy = true →
    (t.core.busy = false ↔ s.nextMove = .core ∨ s.nextMove = .host .reset)

/-! ### Host accesses -/

/-- Derived (20_memory.md R63 to R66): an access is admitted exactly when it is four bytes wide, aligned, and at the
offset of a defined word, and it then names that word. -/
def Obligations.AccessIsAdmittedExactlyAtDefinedWords : Prop :=
  ∀ (cfg : Config) (addr n : Nat) (tg : Target),
    admittedWord cfg addr n = some tg ↔ n = 4 ∧ addr % 4 = 0 ∧ addr = cfg.base + tg.offset

/-- 20_memory.md R65: an access that is not admitted is refused. -/
def Obligations.UnadmittedAccessIsRefused : Prop :=
  ∀ (cfg : Config) (s : State) (addr n : Nat),
    ¬(n = 4 ∧ addr % 4 = 0 ∧ ∃ tg : Target, addr = cfg.base + tg.offset) →
    (s.nextMove = .host (.read addr n) → stepWith cfg s = .refused (.accessNotAdmitted addr n)) ∧
    (∀ v, s.nextMove = .host (.write addr n v) → stepWith cfg s = .refused (.accessNotAdmitted addr n))

/-- Derived (20_memory.md R66, 10_state.md R22): the offset of every named word; no two words share an offset, all lie in
the block at multiples of 4, and the reserved ranges hold none. -/
def Obligations.AddressMapHasNoAliases : Prop :=
  (Target.offset .cmd = 0x000 ∧ Target.offset .status = 0x004 ∧ Target.offset .elen = 0x008 ∧
    Target.offset .mlen = 0x00C ∧ Target.offset .plen = 0x010 ∧ Target.offset .wcount = 0x014 ∧
    (∀ j : Fin 16, Target.offset (.ebuf j) = 0x040 + 4 * j.val ∧ Target.offset (.seed j) = 0x080 + 4 * j.val) ∧
    (∀ i : Fin 24, Target.offset (.widx i) = 0x0C0 + 4 * i.val) ∧
    (∀ j : Fin 64, Target.offset (.mbuf j) = 0x200 + 4 * j.val ∧ Target.offset (.pbuf j) = 0x300 + 4 * j.val) ∧
    (∀ (i : Fin 24) (j : Fin 4), Target.offset (.wtext i j) = 0x400 + 16 * i.val + 4 * j.val)) ∧
  (∀ a b : Target, a.offset = b.offset → a = b) ∧
  (∀ a : Target, a.offset % 4 = 0 ∧ a.offset < 0x600 ∧
    ¬(0x018 ≤ a.offset ∧ a.offset < 0x040) ∧ ¬(0x120 ≤ a.offset ∧ a.offset < 0x200) ∧ ¬(0x580 ≤ a.offset)) ∧
  (∀ off, off % 4 = 0 → off < 0x600 → ¬(0x018 ≤ off ∧ off < 0x040) → ¬(0x120 ≤ off ∧ off < 0x200) →
    ¬(0x580 ≤ off) → ∃ a : Target, a.offset = off)

/-- Derived (20_memory.md R63): an admitted read returns the word, changes no state of the CORE, and is admitted in
every state. -/
def Obligations.HostReadReturnsTheWord : Prop :=
  ∀ (cfg : Config) (s : State) (tg : Target), s.nextMove = .host (.read (cfg.base + tg.offset) 4) →
    stepWith cfg s = .next { s.takeTurn with
      script := s.script.tail, received := s.received ++ [s.core.readWord tg] }

/-- Derived (10_state.md R25): the bits of `STATUS` as read. -/
def Obligations.StatusWordHasItsFields : Prop :=
  ∀ c : CoreState,
    (c.readWord .status).getLsbD 0 = c.busy ∧ (c.readWord .status).getLsbD 1 = c.done ∧
    (c.readWord .status).getLsbD 2 = c.err ∧ (c.readWord .status).getLsbD 3 = c.fatal ∧
    (c.readWord .status).extractLsb' 4 4 = (match c.ecode with
      | none => 0 | some .invalidEntropy => 1 | some .emptyMnemonic => 2 | some .indexOutOfRange => 3
      | some .commandError => 4) ∧
    (c.readWord .status).extractLsb' 8 24 = 0

/-- Derived (95_test_vectors.md section 4.2, from 10_state.md R26): in a state that keeps the status invariant and has
not the code that is never raised, `STATUS` reads one of seven values. -/
def Obligations.StatusReadsOneOfSevenValues : Prop :=
  ∀ c : CoreState, StatusInv c → c.ecode ≠ some .indexOutOfRange →
    c.status ∈ [0x00000000, 0x00000001, 0x00000002, 0x00000014, 0x00000024, 0x00000044, 0x00000008]

/-- Derived (10_state.md R24, R32, R33, 20_memory.md R63): `CMD` reads as the stored word, reserved bits included; the
fields of `WIDX[i]` as read; the length and count registers with zeros above their implemented bits. -/
def Obligations.RegisterWordsHaveTheirFields : Prop :=
  ∀ c : CoreState,
    c.readWord .cmd = c.cmd ∧
    (∀ i : Fin 24,
      (c.readWord (.widx i)).extractLsb' 0 11 = c.widx[i].idx ∧ (c.readWord (.widx i)).extractLsb' 11 5 = 0 ∧
      (c.readWord (.widx i)).extractLsb' 16 5 = c.widx[i].wlen ∧ (c.readWord (.widx i)).extractLsb' 21 11 = 0) ∧
    (c.readWord .elen).extractLsb' 0 8 = c.elen ∧ (c.readWord .elen).extractLsb' 8 24 = 0 ∧
    (c.readWord .mlen).extractLsb' 0 9 = c.mlen ∧ (c.readWord .mlen).extractLsb' 9 23 = 0 ∧
    (c.readWord .plen).extractLsb' 0 9 = c.plen ∧ (c.readWord .plen).extractLsb' 9 23 = 0 ∧
    (c.readWord .wcount).extractLsb' 0 5 = c.wcount ∧ (c.readWord .wcount).extractLsb' 5 27 = 0

/-- 10_state.md R21: the byte lanes of every buffer word, and the register bit that a stream bit of the buffer is. -/
def Obligations.BufferLanesAreBigEndian : Prop :=
  ∀ (c : CoreState) (b : Buffer),
    (∀ k, (c.word b (k / 4)).extractLsb' (24 - 8 * (k % 4)) 8 = c.byte b k) ∧
    (∀ p, (c.word b (p / 32)).getLsbD (31 - p % 32) = (c.byte b (p / 8)).getLsbD (7 - p % 8)) ∧
    (∀ j : Fin 16, c.readWord (.ebuf j) = c.word .ebuf j.val ∧ c.readWord (.seed j) = c.word .seed j.val) ∧
    (∀ j : Fin 64, c.readWord (.mbuf j) = c.word .mbuf j.val ∧ c.readWord (.pbuf j) = c.word .pbuf j.val) ∧
    (∀ (i : Fin 24) (j : Fin 4), c.readWord (.wtext i j) = c.word (.wtext i) j.val)

/-- Derived (20_memory.md R64, 10_state.md R27 to R31, 70_reset_and_hazards.md R267: "a read after a write returns the
written value"): the step of a host write to an operand word, the CORE not busy, stores the word; it then reads back its
implemented bits, and no other word of the map changes. -/
def Obligations.OperandWriteReadsBack : Prop :=
  (∀ (cfg : Config) (s : State) (tg : Target) (v : Word), s.core.busy = false → tg.isOperand = true →
    s.nextMove = .host (.write (cfg.base + tg.offset) 4 v) →
    stepWith cfg s = .next { s.takeTurn with script := s.script.tail, core := s.core.writeWord tg v }) ∧
  (∀ (c : CoreState) (tg : Target) (v : Word), c.busy = false → c.mem.wf = true → tg.isOperand = true →
    (c.writeWord tg v).readWord tg = (match tg with
      | .elen => v &&& 0x000000FF
      | .mlen | .plen => v &&& 0x000001FF
      | _ => v) ∧
    ∀ other : Target, other ≠ tg → (c.writeWord tg v).readWord other = c.readWord other)

/-- 20_memory.md R67: while `BUSY = 1` a write to an operand word, or to `CMD`, is admitted and changes nothing of the
CORE. -/
def Obligations.OperandWriteWhileBusyIsIgnored : Prop :=
  ∀ (cfg : Config) (s : State) (tg : Target) (v : Word), s.core.busy = true → tg.isOperand = true ∨ tg = .cmd →
    s.nextMove = .host (.write (cfg.base + tg.offset) 4 v) →
    stepWith cfg s = .next { s.takeTurn with script := s.script.tail }

/-- 20_memory.md R68: a write to a read-only word is admitted and ignored in every state; of a length register the
implemented bits alone are stored. -/
def Obligations.ReadOnlyWriteIsIgnored : Prop :=
  (∀ (cfg : Config) (s : State) (tg : Target) (v : Word), tg.readOnly = true →
    s.nextMove = .host (.write (cfg.base + tg.offset) 4 v) →
    stepWith cfg s = .next { s.takeTurn with script := s.script.tail }) ∧
  (∀ (c : CoreState) (v v' : Word), v.extractLsb' 0 8 = v'.extractLsb' 0 8 →
    c.writeWord .elen v = c.writeWord .elen v') ∧
  (∀ (c : CoreState) (v v' : Word), v.extractLsb' 0 9 = v'.extractLsb' 0 9 →
    c.writeWord .mlen v = c.writeWord .mlen v' ∧ c.writeWord .plen v = c.writeWord .plen v') ∧
  (∀ (c : CoreState) (v : Word), c.busy = false →
    (c.writeWord .elen v).elen = v.extractLsb' 0 8 ∧ (c.writeWord .mlen v).mlen = v.extractLsb' 0 9 ∧
    (c.writeWord .plen v).plen = v.extractLsb' 0 9)

/-- 30_encoding.md R100: the issue step, accepted or not. -/
def Obligations.IssueFollowsItsRule : Prop :=
  ∀ (cfg : Config) (s : State) (v : Word), s.nextMove = .host (.write (cfg.base + 0x000) 4 v) →
    ∃ t, stepWith cfg s = .next t ∧ t.script = s.script.tail ∧ t.received = s.received ∧
      (s.core.busy = true ∨ s.core.fatal = true → t.core = s.core) ∧
      (s.core.busy = false → s.core.fatal = false →
        t.core.cmd = v ∧ t.core.busy = true ∧ t.core.done = false ∧ t.core.err = false ∧ t.core.ecode = none ∧
        t.core.fatal = false ∧ ResultsZero t.core ∧ SameOperands t.core s.core ∧
        (decode v = none → execute cfg t.core.cmd t.core = .err .commandError))

/-- Derived (30_encoding.md R103: POLL repeats the read "until `s[0] = 0`" and "leaves `s`"): while busy it stays and
changes nothing of the CORE, else it receives `STATUS` and is done. What it records is the model's reading (log 19,
DEDUCED). -/
def Obligations.PollWaitsForBusyClear : Prop :=
  ∀ (cfg : Config) (s : State), s.nextMove = .host .poll →
    (s.core.busy = true → stepWith cfg s = .next s.takeTurn) ∧
    (s.core.busy = false → stepWith cfg s = .next { s.takeTurn with
      script := s.script.tail, received := s.received ++ [s.core.readWord .status] })

/-! ### Reset -/

/-- Derived (10_state.md R39): after the reset step every register has its reset value, and `FATAL` is the verdict on the
wordlist. That the host's other statements and what it received are kept is the model's choice (log 1, DESIGN CHOICE). -/
def Obligations.ResetStepSetsEveryRegister : Prop :=
  ∀ (cfg : Config) (s : State), s.nextMove = .host .reset →
    ∃ t, stepWith cfg s = .next t ∧ t.script = s.script.tail ∧ t.received = s.received ∧
      t.core.cmd = 0 ∧ t.core.busy = false ∧ t.core.done = false ∧ t.core.err = false ∧ t.core.ecode = none ∧
      (t.core.fatal = false ↔ WordlistWellFormed cfg.wordlist) ∧
      t.core.elen = 0 ∧ t.core.mlen = 0 ∧ t.core.plen = 0 ∧ t.core.wcount = 0 ∧
      (∀ i : Fin 24, t.core.widx[i] = WordReg.zero) ∧ (∀ a, t.core.mem.read a = 0) ∧ t.core = (State.resetWith cfg).core

/-- Derived (10_state.md R39, R26): the state after reset satisfies the status, memory and result invariants. The canonical
form in the memory invariant is the model's (log 11, DESIGN CHOICE). -/
def Obligations.ResetStateIsSound : Prop :=
  ∀ cfg : Config, StatusInv (State.resetWith cfg).core ∧ MemoryInv (State.resetWith cfg).core.mem ∧
    ResultsInv cfg (State.resetWith cfg).core ∧ State.reset = State.resetWith platform

/-- Derived (70_reset_and_hazards.md R253) on the machine: `FATAL` holds exactly under a malformed wordlist and never
changes but at reset; in the FATAL state no command is accepted, no operation starts and every result stays zero. -/
def Obligations.FatalCoreAcceptsNothing : Prop :=
  ∀ (cfg : Config) (s t : State), stepWith cfg s = .next t →
    (s.core.fatal = true ↔ ¬WordlistWellFormed cfg.wordlist) →
    (s.core.fatal = true → s.core.untouched = true ∧ s.core.cmd = 0 ∧ ResultsZero s.core) →
    (t.core.fatal = true ↔ ¬WordlistWellFormed cfg.wordlist) ∧
    (t.core.fatal = true → t.core.untouched = true ∧ t.core.cmd = 0 ∧ ResultsZero t.core)

/-! ### Invariants of every step -/

/-- Derived (10_state.md R26): the status invariant is kept by every step of every agent. -/
def Obligations.StepKeepsStatusInvariant : Prop :=
  ∀ (cfg : Config) (s t : State), StatusInv s.core → stepWith cfg s = .next t → StatusInv t.core

/-- Derived (10_state.md R26: `BUSY = DONE = ERR = 0` holds exactly where no command has been accepted since the last
reset): only an accepted command leaves that condition, only a reset comes back to it, and in it `CMD` is zero. -/
def Obligations.UntouchedUntilFirstAcceptedCommand : Prop :=
  ∀ (cfg : Config) (s t : State), stepWith cfg s = .next t →
    (s.core.untouched = true → t.core.untouched = false →
      ∃ v, s.nextMove = .host (.write cfg.base 4 v) ∧ s.core.fatal = false ∧ t.core.cmd = v ∧ t.core.busy = true) ∧
    (s.core.untouched = false → t.core.untouched = true → s.nextMove = .host .reset) ∧
    ((s.core.untouched = true → s.core.cmd = 0) → (t.core.untouched = true → t.core.cmd = 0))

/-- Derived (10_state.md R20, 20_memory.md R66; the canonical form is the model's, log 11, DESIGN CHOICE): every step
keeps the memory of the buffers canonical and within the buffers. -/
def Obligations.StepKeepsMemoryInvariant : Prop :=
  ∀ (cfg : Config) (s t : State), MemoryInv s.core.mem → stepWith cfg s = .next t → MemoryInv t.core.mem

/-- Derived (10_state.md R32 to R35): under a well-formed wordlist every step keeps the shape of the results. -/
def Obligations.StepKeepsResultsInvariant : Prop :=
  ∀ (cfg : Config) (s t : State), WordlistWellFormed cfg.wordlist → StatusInv s.core → MemoryInv s.core.mem →
    ResultsInv cfg s.core → stepWith cfg s = .next t → ResultsInv cfg t.core

/-- Derived (60_exceptions.md R210, R212: code 3 is never raised): no step sets `INDEX_OUT_OF_RANGE`. -/
def Obligations.IndexErrorIsNeverRaised : Prop :=
  ∀ (cfg : Config) (s t : State), s.core.ecode ≠ some .indexOutOfRange → stepWith cfg s = .next t →
    t.core.ecode ≠ some .indexOutOfRange

/-- Derived (10_state.md R30, R31) on the machine: no step of the core writes `CMD` or an operand register or buffer. -/
def Obligations.CoreNeverWritesOperands : Prop :=
  ∀ (cfg : Config) (s t : State), s.nextMove = .core → stepWith cfg s = .next t →
    t.core.cmd = s.core.cmd ∧ SameOperands t.core s.core ∧ t.core.fatal = s.core.fatal ∧
    t.script = s.script ∧ t.received = s.received

/-- Derived (10_state.md R22, 20_memory.md R64, 70_reset_and_hazards.md R264): a step of the host that is neither an
accepted command nor a reset leaves the results and the status alone; it changes at most one word of the map, an operand
word that the host writes while the CORE is not busy. -/
def Obligations.HostChangesResultsOnlyByCommandOrReset : Prop :=
  ∀ (cfg : Config) (s t : State), stepWith cfg s = .next t → s.nextMove ≠ .core → s.nextMove ≠ .host .reset →
    (∀ v, s.nextMove = .host (.write cfg.base 4 v) → s.core.accepts = false) →
    SameResults t.core s.core ∧ SameStatus t.core s.core ∧ t.core.cmd = s.core.cmd ∧
    (∃ tg : Target, ∀ other : Target, other ≠ tg → t.core.readWord other = s.core.readWord other) ∧
    (∀ tg : Target, t.core.readWord tg ≠ s.core.readWord tg → tg.isOperand = true ∧ s.core.busy = false ∧
      ∃ v, s.nextMove = .host (.write (cfg.base + tg.offset) 4 v))

/-! ### GENMNEM -/

/-- Derived (40_mnemonic_encoder.md R141; `WLEN` is five bits wide, log 16, DEDUCED): `GENMNEM` with a present entropy
of a legal length completes with the words of the encoder, by the positional rules R97 to R99. -/
def Obligations.GenmnemCompletesWithTheWords : Prop :=
  ∀ s : State, s.core.elen.toNat ∈ validLengths → ResultsZero s.core → s.core.mem.wf = true →
    ∃ t, exec (.genmnem true) s = .next t ∧
      t.core.busy = false ∧ t.core.done = true ∧ t.core.err = s.core.err ∧ t.core.ecode = s.core.ecode ∧
      t.core.wcount.toNat = 3 * s.core.elen.toNat / 4 ∧
      (∀ i : Fin 24, i.val < 3 * s.core.elen.toNat / 4 →
        t.core.widx[i].idx.toNat = positionIndex platform (s.core.bytes .ebuf s.core.elen.toNat) i.val ∧
        t.core.widx[i].wlen = BitVec.ofNat 5 (platform.wordlist t.core.widx[i].idx).length ∧
        ∀ k, k < 16 → t.core.byte (.wtext i) k = (platform.wordlist t.core.widx[i].idx).getD k 0) ∧
      NoWordsFrom (3 * s.core.elen.toNat / 4) t.core ∧ (∀ k, k < 64 → t.core.byte .seed k = 0)

/-- Derived (40_mnemonic_encoder.md R141), under every configuration with a well-formed wordlist: flags, `WCOUNT`,
`WIDX`, `WTEXT`, zero `SEED`, unchanged operands; the words of `generateMnemonics` in order. -/
def Obligations.GenmnemUnderWellFormedWordlist : Prop :=
  ∀ (cfg : Config) (s : State), WordlistWellFormed cfg.wordlist → s.core.elen.toNat ∈ validLengths →
    StatusInv s.core → s.core.busy = true → s.core.mem.wf = true →
    ∃ t words, execWith cfg (.genmnem true) s = .next t ∧
      generateMnemonics cfg (some (s.core.bytes .ebuf s.core.elen.toNat)) = .ok words ∧
      t.core.busy = false ∧ t.core.done = true ∧ t.core.err = false ∧ t.core.ecode = none ∧
      t.core.wcount.toNat = words.length ∧
      (∀ i : Fin 24, i.val < words.length →
        words[i.val]? = some (t.core.widx[i].idx, cfg.wordlist t.core.widx[i].idx)) ∧
      WordsBelow cfg words.length t.core ∧ NoWordsFrom words.length t.core ∧
      (∀ k, k < 64 → t.core.byte .seed k = 0) ∧ SameOperands t.core s.core ∧ t.core.cmd = s.core.cmd

/-- 60_exceptions.md R211: the register conditions of `InvalidEntropyError`, what is then left as it was, and that no
other command raises it. -/
def Obligations.GenmnemRejectsIllegalEntropy : Prop :=
  (∀ (ep : Bool) (s : State), (ep = false ∨ s.core.elen.toNat ∉ [16, 20, 24, 28, 32]) →
    exec (.genmnem ep) s = .next { s with
      core := { s.core with busy := false, err := true, ecode := some .invalidEntropy } }) ∧
  (∀ (cfg : Config) (w : Word) (c : CoreState), execute cfg w c = .err .invalidEntropy ↔
    ∃ ep, decode w = some (.genmnem ep) ∧ (ep = false ∨ c.elen.toNat ∉ [16, 20, 24, 28, 32]))

/-- Derived (40_mnemonic_encoder.md R141; the cut at 16 bytes is log 16, DEDUCED): the frame of `GENMNEM`. The bytes
stored are those of the words of `genmnem` at the offsets of their `WTEXT` slots; every other byte, register and the host
are unchanged. -/
def Obligations.GenmnemFrame : Prop :=
  ∀ (ep : Bool) (s t : State), exec (.genmnem ep) s = .next t →
    t.script = s.script ∧ t.received = s.received ∧ t.turns = s.turns ∧
    t.core.cmd = s.core.cmd ∧ t.core.fatal = s.core.fatal ∧ t.core.elen = s.core.elen ∧ t.core.mlen = s.core.mlen ∧
    t.core.plen = s.core.plen ∧
    (∀ e, genmnem platform ep s.core = .err e →
      t.core.done = s.core.done ∧ t.core.wcount = s.core.wcount ∧ t.core.widx = s.core.widx ∧
      ∀ a, t.core.mem.read a = s.core.mem.read a) ∧
    (∀ indices, genmnem platform ep s.core = .okMnemonic indices →
      t.core.err = s.core.err ∧ t.core.ecode = s.core.ecode ∧
      (∀ i : Fin 24, indices.length ≤ i.val → t.core.widx[i] = s.core.widx[i]) ∧
      ∀ a, (∀ (i : Fin 24) (idx : WordIndex) (k : Nat), indices[i.val]? = some idx →
          k < min Config.wslotBytes (romRead platform idx).length → a ≠ Buffer.offset (.wtext i) + k) →
        t.core.mem.read a = s.core.mem.read a)

/-- Derived (10_state.md R30, 70_reset_and_hazards.md R266): `GENMNEM` depends on `ELEN` and the first `ELEN` bytes of
`EBUF` alone, and on no byte when the entropy is absent or longer than 32 bytes. -/
def Obligations.GenmnemReadsOnlyItsOperand : Prop :=
  ∀ (cfg : Config) (ep : Bool) (s s' : State),
    (ep = true → s.core.elen = s'.core.elen) →
    (ep = true → s.core.elen.toNat ≤ 32 → ∀ k, k < s.core.elen.toNat → s.core.byte .ebuf k = s'.core.byte .ebuf k) →
    SameStatus s.core s'.core → SameResults s.core s'.core → s.core.mem.wf = true → s'.core.mem.wf = true →
    ∃ t t', execWith cfg (.genmnem ep) s = .next t ∧ execWith cfg (.genmnem ep) s' = .next t' ∧
      SameStatus t.core t'.core ∧ SameResults t.core t'.core

/-! ### The encoder's functions -/

/-- Derived (40_mnemonic_encoder.md R121): the validator accepts exactly the five lengths, and every failure is the
same error. -/
def Obligations.ValidateAcceptsFiveLengths : Prop :=
  validate none = .err .invalidEntropy ∧
  (∀ e : ByteString, validate (some e) = .ok e ↔ e.length ∈ [16, 20, 24, 28, 32]) ∧
  (∀ e : ByteString, e.length ∉ [16, 20, 24, 28, 32] → validate (some e) = .err .invalidEntropy)

/-- 30_encoding.md R99 (and 40_mnemonic_encoder.md R125): the checksum is the top `CS` bits of the digest's first
byte, fits in `CS` bits, and no other bit of the digest matters. -/
def Obligations.ChecksumIsLeadingDigestBits : Prop :=
  (∀ (cfg : Config) (e : ByteString), e.length ∈ validLengths →
    (checksum cfg e).2 = 8 * e.length / 32 ∧
    (checksum cfg e).1 = (cfg.sha256 e)[0].toNat / 2 ^ (8 - (checksum cfg e).2) ∧
    (checksum cfg e).1 < 2 ^ (checksum cfg e).2) ∧
  (∀ (cfg cfg' : Config) (e : ByteString), e.length ∈ validLengths →
    (∀ k, k < e.length / 4 → (cfg.sha256 e)[0].getLsbD (7 - k) = (cfg'.sha256 e)[0].getLsbD (7 - k)) →
    checksum cfg e = checksum cfg' e)

/-- 30_encoding.md R97: the BitString position by position. -/
def Obligations.BitStringPositions : Prop :=
  ∀ (e : ByteString) (c cs : Nat),
    (concatenate e c cs).length = 8 * e.length + cs ∧
    (∀ p, p < 8 * e.length →
      (concatenate e c cs)[p]? = some (decide (((e.getD (p / 8) 0).toNat >>> (7 - p % 8)) % 2 = 1))) ∧
    (∀ k, k < cs → (concatenate e c cs)[8 * e.length + k]? = some (decide ((c >>> (cs - 1 - k)) % 2 = 1)))

/-- Derived (30_encoding.md R98 over the positions of R97 and R99): each index of a valid entropy is the sum of its
eleven bits. -/
def Obligations.WordIndexIsPositionalSum : Prop :=
  ∀ (cfg : Config) (e : ByteString), e.length ∈ validLengths → ∀ j, j < 3 * e.length / 4 →
    (groupIndex (bitString cfg e) j).toNat = positionIndex cfg e j

/-- Derived (40_mnemonic_encoder.md R135, from R128 and R131): the closed form of the indices. -/
def Obligations.WordIndexClosedForm : Prop :=
  ∀ (cfg : Config) (e : ByteString), e.length ∈ validLengths →
    let ms := 3 * e.length / 4
    let n := bigEndian e * 2 ^ (e.length / 4) + (checksum cfg e).1
    n < 2 ^ (8 * e.length + e.length / 4) ∧
    (∀ j, j < ms → (groupIndex (bitString cfg e) j).toNat = (n >>> (11 * (ms - 1 - j))) &&& 0x7FF) ∧
    n = ∑ j ∈ Finset.range ms, (groupIndex (bitString cfg e) j).toNat * 2048 ^ (ms - 1 - j)

/-- Derived (40_mnemonic_encoder.md R142 (a), (b)): the word counts, membership in the wordlist, and failure exactly on
the other lengths. -/
def Obligations.MnemonicCountAndMembership : Prop :=
  ∀ (cfg : Config) (e : ByteString),
    (e.length ∈ validLengths → ∃ words, generateMnemonics cfg (some e) = .ok words ∧
      words.length = 3 * e.length / 4 ∧ words.length ∈ [12, 15, 18, 21, 24] ∧
      ∀ w ∈ words, w.2 = cfg.wordlist w.1) ∧
    (e.length ∉ validLengths → generateMnemonics cfg (some e) = .err .invalidEntropy)

/-- Derived (40_mnemonic_encoder.md R142 (f)): the encoder is injective on valid entropy, by its indices, and by its
words under a well-formed wordlist. -/
def Obligations.EncoderIsInjective : Prop :=
  ∀ (cfg : Config) (e e' : ByteString) (ws ws' : List (WordIndex × ByteString)),
    generateMnemonics cfg (some e) = .ok ws → generateMnemonics cfg (some e') = .ok ws' →
    (ws.map Prod.fst = ws'.map Prod.fst → e = e') ∧
    (WordlistWellFormed cfg.wordlist → ws.map Prod.snd = ws'.map Prod.snd → e = e')

/-! ### GENSEED -/

/-- Derived (41_seed_deriver.md R163 to R166): `GENSEED` with a present mnemonic that is not blank, no text longer
than its buffer, completes with the derived seed; an absent passphrase is the empty one. `CMD`, `FATAL`, the operands, the
mnemonic's results, every byte outside `SEED` and the host are unchanged. The blank test is the default of R162 (log 9,
DESIGN CHOICE). -/
def Obligations.GenseedCompletesWithTheSeed : Prop :=
  ∀ (pp : Bool) (s : State), s.core.mlen.toNat ≤ 256 → (pp = true → s.core.plen.toNat ≤ 256) →
    (∃ k, k < s.core.mlen.toNat ∧ s.core.byte .mbuf k ∉ [0x09, 0x0A, 0x0B, 0x0C, 0x0D, 0x20]) →
    s.core.mem.wf = true →
    ∃ t, exec (.genseed true pp) s = .next t ∧
      t.core.busy = false ∧ t.core.done = true ∧ t.core.err = s.core.err ∧ t.core.ecode = s.core.ecode ∧
      (∀ k, (h : k < 64) → t.core.byte .seed k =
        (platform.pbkdf2HmacSha512 (platform.nfkdUtf8 (s.core.bytes .mbuf s.core.mlen.toNat))
          (platform.nfkdUtf8 ([0x6d, 0x6e, 0x65, 0x6d, 0x6f, 0x6e, 0x69, 0x63] ++
            (if pp = true then s.core.bytes .pbuf s.core.plen.toNat else []))) 2048 64)[k]) ∧
      t.core.cmd = s.core.cmd ∧ t.core.fatal = s.core.fatal ∧
      t.core.wcount = s.core.wcount ∧ t.core.widx = s.core.widx ∧ SameOperands t.core s.core ∧
      (∀ a, (∀ k, k < 64 → a ≠ Buffer.offset .seed + k) → t.core.mem.read a = s.core.mem.read a) ∧
      t.script = s.script ∧ t.received = s.received ∧ t.turns = s.turns

/-- Derived (60_exceptions.md R215, R222): the register conditions of `EmptyMnemonicError`, where no length exceeds its
buffer, and that no other command raises it. The blank test on the platform is the default of 41_seed_deriver.md R162
(log 9, DESIGN CHOICE). -/
def Obligations.GenseedRejectsEmptyMnemonic : Prop :=
  (∀ (mp pp : Bool) (s : State), (mp = true → s.core.mlen.toNat ≤ 256) → (pp = true → s.core.plen.toNat ≤ 256) →
    (mp = false ∨ ∀ k, k < s.core.mlen.toNat → s.core.byte .mbuf k ∈ [0x09, 0x0A, 0x0B, 0x0C, 0x0D, 0x20]) →
    exec (.genseed mp pp) s = .next { s with
      core := { s.core with busy := false, err := true, ecode := some .emptyMnemonic } }) ∧
  (∀ (cfg : Config) (w : Word) (c : CoreState), execute cfg w c = .err .emptyMnemonic ↔
    ∃ mp pp, decode w = some (.genseed mp pp) ∧ (mp = true → c.mlen.toNat ≤ 256) ∧ (pp = true → c.plen.toNat ≤ 256) ∧
      (mp = false ∨ cfg.isBlank (c.bytes .mbuf c.mlen.toNat) = true))

/-- 60_exceptions.md R222: what an operation yields where several error conditions hold: the first in the order of the
rule, and success where none holds. -/
def Obligations.ErrorPriorityFollowsItsOrder : Prop :=
  ∀ (cfg : Config) (w : Word) (c : CoreState),
    (decode w = none → execute cfg w c = .err .commandError) ∧
    (∀ ep, decode w = some (.genmnem ep) →
      (ep = false ∨ c.elen.toNat ∉ validLengths → execute cfg w c = .err .invalidEntropy) ∧
      (ep = true → c.elen.toNat ∈ validLengths → ∃ indices, execute cfg w c = .okMnemonic indices)) ∧
    (∀ mp pp, decode w = some (.genseed mp pp) →
      ((mp = true ∧ 256 < c.mlen.toNat) ∨ (pp = true ∧ 256 < c.plen.toNat) → execute cfg w c = .err .commandError) ∧
      (¬((mp = true ∧ 256 < c.mlen.toNat) ∨ (pp = true ∧ 256 < c.plen.toNat)) →
        (mp = false ∨ cfg.isBlank (c.bytes .mbuf c.mlen.toNat) = true → execute cfg w c = .err .emptyMnemonic) ∧
        (mp = true → cfg.isBlank (c.bytes .mbuf c.mlen.toNat) = false →
          ∃ seed, execute cfg w c = .okSeed seed)))

/-- 60_exceptions.md R224: the completion of a failing operation changes `BUSY`, `ERR` and `ECODE` alone; `DONE` stays
0 and the results stay zero. -/
def Obligations.FailingOperationReportsInStatusAlone : Prop :=
  ∀ (cfg : Config) (s : State) (e : CoreError), s.nextMove = .core → StatusInv s.core →
    execute cfg s.core.cmd s.core = .err e →
    ∃ t, stepWith cfg s = .next t ∧ t.script = s.script ∧ t.received = s.received ∧
      t.core = { s.core with busy := false, err := true, ecode := some e } ∧
      t.core.done = false ∧ ResultsZero t.core

/-- Derived (60_exceptions.md R213 (b), R222): a present text longer than its buffer gives `COMMAND_ERROR`, whatever the
mnemonic is. -/
def Obligations.GenseedRejectsOverlongText : Prop :=
  ∀ (mp pp : Bool) (s : State), (mp = true ∧ 256 < s.core.mlen.toNat) ∨ (pp = true ∧ 256 < s.core.plen.toNat) →
    exec (.genseed mp pp) s = .next { s with
      core := { s.core with busy := false, err := true, ecode := some .commandError } }

/-- Derived (41_seed_deriver.md R166): the frame of `GENSEED`. The bytes stored are the 64 of `SEED`, and none where it
reports an error. -/
def Obligations.GenseedFrame : Prop :=
  ∀ (mp pp : Bool) (s t : State), exec (.genseed mp pp) s = .next t →
    t.script = s.script ∧ t.received = s.received ∧ t.turns = s.turns ∧
    t.core.cmd = s.core.cmd ∧ t.core.fatal = s.core.fatal ∧ t.core.elen = s.core.elen ∧ t.core.mlen = s.core.mlen ∧
    t.core.plen = s.core.plen ∧ t.core.wcount = s.core.wcount ∧ t.core.widx = s.core.widx ∧
    (∀ e, genseed platform mp pp s.core = .err e →
      t.core.done = s.core.done ∧ ∀ a, t.core.mem.read a = s.core.mem.read a) ∧
    (∀ seed, genseed platform mp pp s.core = .okSeed seed →
      t.core.err = s.core.err ∧ t.core.ecode = s.core.ecode ∧
      ∀ a, (∀ k, k < seed.toList.length → a ≠ Buffer.offset .seed + k) → t.core.mem.read a = s.core.mem.read a)

/-- Derived (30_encoding.md R96, 41_seed_deriver.md R166): `GENSEED` depends on the lengths and the first bytes of its
present operands alone. -/
def Obligations.GenseedReadsOnlyItsOperands : Prop :=
  ∀ (cfg : Config) (mp pp : Bool) (s s' : State),
    (mp = true → s.core.mlen = s'.core.mlen ∧
      ∀ k, k < s.core.mlen.toNat → s.core.byte .mbuf k = s'.core.byte .mbuf k) →
    (pp = true → s.core.plen = s'.core.plen ∧
      ∀ k, k < s.core.plen.toNat → s.core.byte .pbuf k = s'.core.byte .pbuf k) →
    SameStatus s.core s'.core → SameResults s.core s'.core → s.core.mem.wf = true → s'.core.mem.wf = true →
    ∃ t t', execWith cfg (.genseed mp pp) s = .next t ∧ execWith cfg (.genseed mp pp) s' = .next t' ∧
      SameStatus t.core t'.core ∧ SameResults t.core t'.core

/-- Derived (41_seed_deriver.md R162): the default `IS_BLANK`, which is the platform's (log 9, DESIGN CHOICE), byte by
byte, with the two required properties, the second over the characters of a text (what a character is is log 12,
PRESUMED). -/
def Obligations.BlankTestFollowsItsDefault : Prop :=
  (∀ m : ByteString, isBlankDefault m = true ↔ ∀ b ∈ m, b = 0x09 ∨ b = 0x0A ∨ b = 0x0B ∨ b = 0x0C ∨ b = 0x0D ∨ b = 0x20) ∧
  (∀ m : ByteString, platform.isBlank m = m.all isAsciiSpace) ∧
  BlankLaws platform.isBlank isAsciiSpaceChar

/-- Derived (42_external_primitives.md R189 (b), (d), 90_conflicts.md C4): normalising the salt after the
concatenation is normalising the passphrase before it, under the named laws for well-formed text (what is well formed is
log 12, PRESUMED), and on the platform for ASCII text (its normaliser is log 8, DESIGN CHOICE). -/
def Obligations.SaltNormalisationCommutes : Prop :=
  (∀ (cfg : Config) (p : ByteString), NfkdLaws cfg.nfkdUtf8 → wellFormedUtf8 p = true →
    cfg.nfkdUtf8 (salt (some p)) = Config.saltPrefix ++ cfg.nfkdUtf8 p) ∧
  (∀ p : ByteString, (∀ b ∈ p, b.toNat < 0x80) → platform.nfkdUtf8 (salt (some p)) = salt (some p))

/-! ### The collaborators -/

/-- Derived (42_external_primitives.md R183, R186 to R188; the definitions are general knowledge there, log 7,
PRESUMED): the digests have 32 and 64 bytes, so that nothing is cut or padded, and for 64 bytes the key derivation is
its first block alone (41_seed_deriver.md R165). -/
def Obligations.DigestLengthsAndSingleBlock : Prop :=
  (∀ m : ByteString, (Sha2.digest sha256Params m).length = 32 ∧ (sha256 m).toList = Sha2.digest sha256Params m) ∧
  (∀ m : ByteString, (sha512 m).length = 64) ∧
  (∀ (p s : ByteString) (c : Nat), (pbkdf2HmacSha512 p s c 64).toList = kdfBlock p s c 1)

/-- Derived (42_external_primitives.md R184, R188, general knowledge there, log 7, PRESUMED): padding gives whole
blocks that begin with the message and `0x80`. -/
def Obligations.PaddingFillsWholeBlocks : Prop :=
  ∀ m : ByteString,
    (Sha2.pad 32 m).length % 64 = 0 ∧ (Sha2.pad 64 m).length % 128 = 0 ∧
    (Sha2.pad 32 m).length < m.length + 1 + 8 + 64 ∧ (Sha2.pad 64 m).length < m.length + 1 + 16 + 128 ∧
    (Sha2.pad 32 m).take (m.length + 1) = m ++ [0x80] ∧ (Sha2.pad 64 m).take (m.length + 1) = m ++ [0x80]

/-! ### Repetition, instances, host notation -/

/-- Derived (60_exceptions.md R226, 40_mnemonic_encoder.md R141): a command issued again with unchanged operands
yields the same status and the same results, whether it failed or not. -/
def Obligations.ReissuedCommandRepeatsItsResult : Prop :=
  ∀ (cfg : Config) (c : CoreState), c.busy = true → StatusInv c → MemoryInv c.mem →
    let first := c.complete cfg (execute cfg c.cmd c)
    let again := first.issue c.cmd
    let second := again.complete cfg (execute cfg again.cmd again)
    first.accepts = true ∧ again.cmd = c.cmd ∧ SameStatus first second ∧ SameResults first second

/-- Derived (60_exceptions.md R234): a step of one instance is its own step and leaves every other instance alone. -/
def Obligations.InstancesAreIndependent : Prop :=
  ∀ (cfg : Config) (k : Nat) (us us' : List Machine.Unit), stepUnits cfg k us = .next us' →
    us'.length = us.length ∧ (∀ j, j ≠ k → us'[j]? = us[j]?) ∧
    (∀ u, us[k]? = some u → ∃ u', us'[k]? = some u' ∧ u'.baseWord = u.baseWord ∧
      stepWith { cfg with baseWord := u.baseWord } u.state = .next u'.state)

/-- Derived (30_encoding.md R104, 10_state.md R21): `pack(e, j)` is the sum of the four bytes from `4j` on; one packed word
written puts its four bytes into `EBUF`; and the writes the macros make for a byte string (`HostScript.wrBytes`), run from
a CORE that is not busy, put its bytes into the operand buffer in order, one step each, and change no byte outside the
words written. The macros themselves, run to their end from a CORE that is not busy and not FATAL, return what
`generateMnemonics` and `generateSeed` yield, or fail with the code of its error, whatever the order of the agents is. What
a host makes of the values it reads is the model's choice (log 21, DESIGN CHOICE). -/
def Obligations.PackedWordsCarryTheirBytes : Prop :=
  (∀ (e : ByteString) (j : Nat),
    (HostScript.pack e j).toNat = ∑ t ∈ Finset.range 4, (e.getD (4 * j + t) 0).toNat * 2 ^ (24 - 8 * t)) ∧
  (∀ (c : CoreState) (e : ByteString) (j : Fin 16) (t : Nat), t < 4 → c.busy = false → c.mem.wf = true →
    (c.writeWord (.ebuf j) (HostScript.pack e j.val)).byte .ebuf (4 * j.val + t) = e.getD (4 * j.val + t) 0) ∧
  (∀ (cfg : Config) (s : State) (b : Buffer) (n : Nat) (target : Fin n → Target) (e : ByteString)
    (rest : List HostStmt),
    (∀ j, (target j).isOperand = true ∧ (target j).offset = Buffer.offset b + 4 * j.val) → e.length ≤ 4 * n →
    s.core.busy = false → s.core.mem.wf = true → s.script = HostScript.wrBytes cfg n target e ++ rest →
    ∃ t, runWith cfg ((e.length + 3) / 4) s = .next t ∧ t.script = rest ∧ t.received = s.received ∧
      t.turns = s.turns ∧ t.core = { s.core with mem := t.core.mem } ∧ t.core.bytes b e.length = e ∧
      (∀ k, e.length ≤ k → k < 4 * ((e.length + 3) / 4) → t.core.byte b k = 0) ∧
      ∀ a, a < Buffer.offset b ∨ Buffer.offset b + 4 * ((e.length + 3) / 4) ≤ a →
        t.core.mem.read a = s.core.mem.read a) ∧
  (∀ (cfg : Config) (s : State) (entropy : Option ByteString), WordlistWellFormed cfg.wordlist →
    s.core.busy = false → s.core.fatal = false → s.core.mem.wf = true → (∀ e, entropy = some e → e.length ≤ 64) →
    ∃ k t, (HostScript.mnemonicMacro cfg entropy).run cfg k s = match generateMnemonics cfg entropy with
      | .ok words => .returned words t
      | .err e => .failed e.code t) ∧
  (∀ (cfg : Config) (s : State) (m p : Option ByteString), s.core.busy = false → s.core.fatal = false →
    s.core.mem.wf = true → (∀ e, m = some e → e.length ≤ 256) → (∀ e, p = some e → e.length ≤ 256) →
    ∃ k t, (HostScript.seedMacro cfg m p).run cfg k s = match generateSeed cfg m p with
      | .ok seed => .returned seed.toList t
      | .err e => .failed e.code t)

/-! ### The open whitespace set -/

/-- Derived (41_seed_deriver.md R162, R161, 60_exceptions.md R215): under any blank test with the required properties
for a whitespace set of characters, `GENSEED` of a well-formed mnemonic reports `EmptyMnemonicError` where every
character is in the set, and completes where one is not. What a character is is log 12 (PRESUMED). -/
def Obligations.BlankMnemonicIsAllWhitespaceCharacters : Prop :=
  ∀ (cfg : Config) (space : ByteString → Bool) (pp : Bool) (s : State) (chars : List ByteString),
    BlankLaws cfg.isBlank space → utf8Chars (s.core.bytes .mbuf s.core.mlen.toNat) = some chars →
    s.core.mlen.toNat ≤ 256 → (pp = true → s.core.plen.toNat ≤ 256) →
    ((∀ c ∈ chars, space c = true) → execWith cfg (.genseed true pp) s = .next { s with
      core := { s.core with busy := false, err := true, ecode := some .emptyMnemonic } }) ∧
    ((∃ c ∈ chars, space c = false) → ∃ t, execWith cfg (.genseed true pp) s = .next t ∧
      t.core.busy = false ∧ t.core.done = true ∧ t.core.err = s.core.err ∧ t.core.ecode = s.core.ecode)
end

