-- ==== Sys2Proof/Laws/AddressMap.lean ====
section
/-! SUPPORT. The address map read both ways (20_memory.md R66). -/

namespace Sys2Proof.Machine

/-- The word at a word's offset is that word. -/
theorem Target.ofOffset_offset (t : Target) : Target.ofOffset t.offset = some t := by
  cases t with
  | cmd | status | elen | mlen | plen | wcount => rfl
  | ebuf j => revert j; decide
  | seed j => revert j; decide
  | widx i => revert i; decide
  | mbuf j => revert j; decide
  | pbuf j => revert j; decide
  | wtext i j => revert i j; decide

/-- A word found at an offset has that offset, a multiple of 4. -/
theorem Target.offset_of_ofOffset {off : Nat} {t : Target} (h : Target.ofOffset off = some t) :
    t.offset = off ∧ off % 4 = 0 := by
  unfold Target.ofOffset at h
  by_cases h4 : off % 4 ≠ 0
  · rw [if_pos h4] at h; cases h
  rw [if_neg h4] at h
  refine ⟨?_, by omega⟩
  by_cases hc : off = 0x000
  · rw [if_pos hc] at h; cases h; exact hc.symm
  rw [if_neg hc] at h; clear hc
  by_cases hc : off = 0x004
  · rw [if_pos hc] at h; cases h; exact hc.symm
  rw [if_neg hc] at h; clear hc
  by_cases hc : off = 0x008
  · rw [if_pos hc] at h; cases h; exact hc.symm
  rw [if_neg hc] at h; clear hc
  by_cases hc : off = 0x00C
  · rw [if_pos hc] at h; cases h; exact hc.symm
  rw [if_neg hc] at h; clear hc
  by_cases hc : off = 0x010
  · rw [if_pos hc] at h; cases h; exact hc.symm
  rw [if_neg hc] at h; clear hc
  by_cases hc : off = 0x014
  · rw [if_pos hc] at h; cases h; exact hc.symm
  rw [if_neg hc] at h; clear hc
  by_cases hc : 0x040 ≤ off ∧ off < 0x080
  · rw [dif_pos hc] at h; cases h; simp only [Target.offset]; omega
  rw [dif_neg hc] at h; clear hc
  by_cases hc : 0x080 ≤ off ∧ off < 0x0C0
  · rw [dif_pos hc] at h; cases h; simp only [Target.offset]; omega
  rw [dif_neg hc] at h; clear hc
  by_cases hc : 0x0C0 ≤ off ∧ off < 0x120
  · rw [dif_pos hc] at h; cases h; simp only [Target.offset]; omega
  rw [dif_neg hc] at h; clear hc
  by_cases hc : 0x200 ≤ off ∧ off < 0x300
  · rw [dif_pos hc] at h; cases h; simp only [Target.offset]; omega
  rw [dif_neg hc] at h; clear hc
  by_cases hc : 0x300 ≤ off ∧ off < 0x400
  · rw [dif_pos hc] at h; cases h; simp only [Target.offset]; omega
  rw [dif_neg hc] at h; clear hc
  by_cases hc : 0x400 ≤ off ∧ off < 0x580
  · rw [dif_pos hc] at h; cases h; simp only [Target.offset]; omega
  rw [dif_neg hc] at h; clear hc
  cases h

/-- An access at a word's offset, four bytes wide, names that word. -/
theorem admittedWord_offset (cfg : Config) (t : Target) : admittedWord cfg (cfg.base + t.offset) 4 = some t := by
  have h4 := (Target.offset_of_ofOffset (Target.ofOffset_offset t)).2
  have hb : cfg.base % 4 = 0 := by unfold Config.base; omega
  rw [admittedWord, if_pos ⟨rfl, by omega, by omega⟩, Nat.add_sub_cancel_left, Target.ofOffset_offset]

end Sys2Proof.Machine
end

