-- ==== Sys2Proof/Laws/Decode.lean ====
section
/-! SUPPORT. What the decoder answers, by the fields of the word (30_encoding.md R90 to R94). -/

namespace Sys2Proof

/-- A command word is its five fields. -/
theorem CommandWord.ext {v w : Word} (hopc : CommandWord.opc v = CommandWord.opc w)
    (hep : CommandWord.ep v = CommandWord.ep w) (hmp : CommandWord.mp v = CommandWord.mp w)
    (hpp : CommandWord.pp v = CommandWord.pp w) (hrsv : CommandWord.rsv v = CommandWord.rsv w) : v = w := by
  apply BitVec.eq_of_getLsbD_eq
  intro i hi
  by_cases h8 : i < 8
  · have := congrArg (BitVec.getLsbD · i) hopc
    simpa [CommandWord.opc, h8] using this
  · by_cases h11 : 11 ≤ i
    · have := congrArg (BitVec.getLsbD · (i - 11)) hrsv
      simpa [CommandWord.rsv, show i - 11 < 21 by omega, show 11 + (i - 11) = i by omega] using this
    · have : i = 8 ∨ i = 9 ∨ i = 10 := by omega
      rcases this with rfl | rfl | rfl
      exacts [hep, hmp, hpp]

theorem decode_genmnem_iff (w : Word) (ep : Bool) :
    decode w = some (.genmnem ep) ↔
      CommandWord.rsv w = 0 ∧ CommandWord.opc w = 0x01 ∧ CommandWord.mp w = false ∧ CommandWord.pp w = false ∧
      CommandWord.ep w = ep := by
  unfold decode decodeNamed
  by_cases h0 : CommandWord.rsv w = 0#21
  · by_cases h1 : CommandWord.opc w = 1#8
    · by_cases h2 : CommandWord.mp w = false ∧ CommandWord.pp w = false <;> simp [h0, h1, h2]
      exact fun a b => absurd ⟨a, b⟩ h2
    · by_cases h2 : CommandWord.opc w = 2#8
      · by_cases h3 : CommandWord.ep w = false <;> simp [h0, h2, h3]
      · simp [h0, h1, h2]
  · simp [h0]

theorem decode_genseed_iff (w : Word) (mp pp : Bool) :
    decode w = some (.genseed mp pp) ↔
      CommandWord.rsv w = 0 ∧ CommandWord.opc w = 0x02 ∧ CommandWord.ep w = false ∧ CommandWord.mp w = mp ∧
      CommandWord.pp w = pp := by
  unfold decode decodeNamed
  by_cases h0 : CommandWord.rsv w = 0#21
  · by_cases h1 : CommandWord.opc w = 1#8
    · by_cases h2 : CommandWord.mp w = false ∧ CommandWord.pp w = false <;> simp [h0, h1, h2]
    · by_cases h2 : CommandWord.opc w = 2#8
      · by_cases h3 : CommandWord.ep w = false <;> simp [h0, h2, h3]
      · simp [h0, h1, h2]
  · simp [h0]

/-- The fields of an encoded command. -/
theorem encode_genmnem_fields (ep : Bool) :
    CommandWord.rsv (encode (.genmnem ep)) = 0 ∧ CommandWord.opc (encode (.genmnem ep)) = 0x01 ∧
    CommandWord.mp (encode (.genmnem ep)) = false ∧ CommandWord.pp (encode (.genmnem ep)) = false ∧
    CommandWord.ep (encode (.genmnem ep)) = ep := by
  cases ep <;> decide

theorem encode_genseed_fields (mp pp : Bool) :
    CommandWord.rsv (encode (.genseed mp pp)) = 0 ∧ CommandWord.opc (encode (.genseed mp pp)) = 0x02 ∧
    CommandWord.ep (encode (.genseed mp pp)) = false ∧ CommandWord.mp (encode (.genseed mp pp)) = mp ∧
    CommandWord.pp (encode (.genseed mp pp)) = pp := by
  cases mp <;> cases pp <;> decide

end Sys2Proof
end

