-- ==== Sys2Proof/Laws/Memory.lean ====
section
/-! SUPPORT. The laws of the buffers' memory: a read after a write, and that every operation keeps the canonical form. -/

namespace Sys2Proof.Machine.Memory

@[simp] theorem read_nil (a : Nat) : Memory.read [] a = 0 := rfl

theorem read_cons (b : Nat) (u : Byte) (m : Memory) (a : Nat) :
    Memory.read ((b, u) :: m) a = if b = a then u else Memory.read m a := rfl

theorem read_above {m : Memory} {lo a : Nat} (h : Memory.above lo m = true) (ha : a ≤ lo) :
    Memory.read m a = 0 := by
  induction m with
  | nil => rfl
  | cons c m ih =>
    obtain ⟨b, u⟩ := c
    simp only [Memory.above, List.all_cons, Bool.and_eq_true, decide_eq_true_eq] at h
    rw [read_cons, if_neg (by omega), ih (by simpa [Memory.above] using h.2)]

theorem above_mono {m : Memory} {lo lo' : Nat} (h : Memory.above lo m = true) (hl : lo' ≤ lo) :
    Memory.above lo' m = true := by
  simp only [Memory.above, List.all_eq_true, decide_eq_true_eq] at h ⊢
  intro c hc; have := h c hc; omega

theorem wf_cons {a : Nat} {v : Byte} {m : Memory} :
    Memory.wf ((a, v) :: m) = true ↔ v ≠ 0 ∧ Memory.above a m = true ∧ m.wf = true := by
  rw [Memory.wf, Bool.and_eq_true, Bool.and_eq_true, decide_eq_true_iff, and_assoc]; exact Iff.rfl

theorem read_consCell (a : Nat) (v : Byte) (m : Memory) (x : Nat) (hm : Memory.above a m = true) :
    Memory.read (Memory.consCell a v m) x = if a = x then v else Memory.read m x := by
  unfold Memory.consCell Memory.unlisted
  split
  · split
    · subst_vars; exact read_above hm (Nat.le_refl _)
    · rfl
  · rfl

theorem wf_consCell {a : Nat} {v : Byte} {m : Memory} (hm : Memory.above a m = true) (h : m.wf = true) :
    (Memory.consCell a v m).wf = true := by
  unfold Memory.consCell
  split
  · exact h
  · exact wf_cons.2 ⟨‹_›, hm, h⟩

theorem above_consCell {lo a : Nat} {v : Byte} {m : Memory} (ha : lo < a) (h : Memory.above lo m = true) :
    Memory.above lo (Memory.consCell a v m) = true := by
  unfold Memory.consCell
  split
  · exact h
  · simpa [Memory.above, ha] using h

theorem above_write {lo a : Nat} {v : Byte} {m : Memory} (ha : lo < a) (h : Memory.above lo m = true) :
    Memory.above lo (m.write a v) = true := by
  induction m with
  | nil => exact above_consCell ha h
  | cons c m ih =>
    obtain ⟨b, u⟩ := c
    have hb : lo < b := by simp only [Memory.above, List.all_cons, Bool.and_eq_true, decide_eq_true_eq] at h; exact h.1
    have hm : Memory.above lo m = true := by
      simp only [Memory.above, List.all_cons, Bool.and_eq_true] at h ⊢; exact h.2
    unfold Memory.write
    split
    · exact above_consCell ha h
    · split
      · exact above_consCell ha hm
      · simpa [Memory.above, hb] using ih hm

/-- A write keeps the canonical form. -/
theorem wf_write {m : Memory} (a : Nat) (v : Byte) (h : m.wf = true) : (m.write a v).wf = true := by
  induction m with
  | nil => exact wf_consCell rfl rfl
  | cons c m ih =>
    obtain ⟨b, u⟩ := c
    obtain ⟨hu, hb, hm⟩ := wf_cons.1 h
    unfold Memory.write
    split
    · exact wf_consCell (by simpa [Memory.above, ‹a < b›] using above_mono hb (by omega)) h
    · split
      · subst_vars; exact wf_consCell hb hm
      · exact wf_cons.2 ⟨hu, above_write (by omega) hb, ih hm⟩

/-- A write leaves every other offset alone. -/
theorem read_write_other {m : Memory} {a x : Nat} (v : Byte) (hx : x ≠ a) :
    (m.write a v).read x = m.read x := by
  have key : ∀ n : Memory, Memory.read (Memory.consCell a v n) x = Memory.read n x := by
    intro n; unfold Memory.consCell; split
    · rfl
    · rw [read_cons, if_neg (Ne.symm hx)]
  induction m with
  | nil => exact key []
  | cons c m ih =>
    obtain ⟨b, u⟩ := c
    unfold Memory.write
    split
    · exact key _
    · split
      · subst_vars; rw [key, read_cons, if_neg (Ne.symm hx)]
      · rw [read_cons, read_cons, ih]

/-- A read after a write to the same offset gives the value written. -/
theorem read_write_same {m : Memory} {a : Nat} {v : Byte} (h : m.wf = true) : (m.write a v).read a = v := by
  induction m with
  | nil => rw [Memory.write, read_consCell _ _ _ _ rfl, if_pos rfl]
  | cons c m ih =>
    obtain ⟨b, u⟩ := c
    obtain ⟨hu, hb, hm⟩ := wf_cons.1 h
    unfold Memory.write
    split
    · rw [read_consCell _ _ _ _ (by simpa [Memory.above, ‹a < b›] using above_mono hb (by omega)), if_pos rfl]
    · split
      · subst_vars; rw [read_consCell _ _ _ _ hb, if_pos rfl]
      · rw [read_cons, if_neg (by omega), ih hm]

theorem wf_writeBytes {m : Memory} (a : Nat) (bs : ByteString) (h : m.wf = true) :
    (m.writeBytes a bs).wf = true := by
  induction bs generalizing m a with
  | nil => exact h
  | cons b bs ih => exact ih _ (wf_write _ _ h)

/-- A byte string leaves every offset outside it alone. -/
theorem read_writeBytes_other {m : Memory} {a x : Nat} (bs : ByteString) (hx : x < a ∨ a + bs.length ≤ x) :
    (m.writeBytes a bs).read x = m.read x := by
  induction bs generalizing m a with
  | nil => rfl
  | cons b bs ih =>
    simp only [List.length_cons] at hx
    rw [Memory.writeBytes, ih (by omega), read_write_other _ (by omega)]

/-- A stored byte string is read back. -/
theorem read_writeBytes_same {m : Memory} {a k : Nat} {bs : ByteString} (h : m.wf = true) (hk : k < bs.length) :
    (m.writeBytes a bs).read (a + k) = bs[k] := by
  induction bs generalizing m a k with
  | nil => simp at hk
  | cons b bs ih =>
    rw [Memory.writeBytes]
    cases k with
    | zero => rw [read_writeBytes_other _ (by omega)]; exact read_write_same h
    | succ k =>
      simp only [List.length_cons] at hk
      have := ih (m := m.write a b) (a := a + 1) (k := k) (wf_write _ _ h) (by omega)
      rw [show a + (k + 1) = a + 1 + k by omega, this]; rfl

theorem above_filter {lo : Nat} {m : Memory} (p : Host.Cell → Bool) (h : Memory.above lo m = true) :
    Memory.above lo (m.filter p) = true := by
  simp only [Memory.above, List.all_eq_true, decide_eq_true_eq] at h ⊢
  intro c hc; exact h c (List.mem_filter.1 hc).1

/-- Clearing keeps the canonical form. -/
theorem wf_clear {m : Memory} (lo hi : Nat) (h : m.wf = true) : (m.clear lo hi).wf = true := by
  induction m with
  | nil => rfl
  | cons c m ih =>
    obtain ⟨b, u⟩ := c
    obtain ⟨hu, hb, hm⟩ := wf_cons.1 h
    unfold Memory.clear
    rw [List.filter_cons]
    split
    · exact wf_cons.2 ⟨hu, above_filter _ hb, ih hm⟩
    · exact ih hm

/-- What a cleared memory reads as. -/
theorem read_clear (m : Memory) (lo hi x : Nat) :
    (m.clear lo hi).read x = if lo ≤ x ∧ x < hi then 0 else m.read x := by
  induction m with
  | nil => simp [Memory.clear]
  | cons c m ih =>
    obtain ⟨b, u⟩ := c
    unfold Memory.clear at ih ⊢
    rw [List.filter_cons]
    by_cases hb : lo ≤ b ∧ b < hi
    · rw [if_neg (by simp [hb.1, hb.2]), ih, read_cons]
      by_cases hx : b = x
      · subst hx; rw [if_pos hb, if_pos hb]
      · rw [if_neg hx]
    · have : (!(decide (lo ≤ b) && decide (b < hi))) = true := by
        simp only [Bool.not_eq_true', Bool.and_eq_false_iff, decide_eq_false_iff_not]; omega
      rw [if_pos this, read_cons, ih, read_cons]
      by_cases hx : b = x
      · subst hx; rw [if_pos rfl, if_neg hb, if_pos rfl]
      · rw [if_neg hx, if_neg hx]

/-- The cells after a write are old cells and the written one. -/
theorem mem_write {m : Memory} {a : Nat} {v : Byte} {c : Host.Cell} (hc : c ∈ m.write a v) :
    c ∈ m ∨ c = (a, v) := by
  have key : ∀ n : Memory, c ∈ Memory.consCell a v n → c ∈ n ∨ c = (a, v) := by
    intro n h; unfold Memory.consCell at h; split at h
    · exact .inl h
    · rcases List.mem_cons.1 h with h | h
      · exact .inr h
      · exact .inl h
  induction m with
  | nil => exact key [] hc
  | cons d m ih =>
    obtain ⟨b, u⟩ := d
    unfold Memory.write at hc
    split at hc
    · exact key _ hc
    · split at hc
      · rcases key _ hc with h | h
        · exact .inl (List.mem_cons_of_mem _ h)
        · exact .inr h
      · rcases List.mem_cons.1 hc with h | h
        · exact .inl (h ▸ List.mem_cons_self)
        · rcases ih h with h | h
          · exact .inl (List.mem_cons_of_mem _ h)
          · exact .inr h

/-- The offsets listed after a byte string was stored are old ones or lie inside it. -/
theorem mem_writeBytes {m : Memory} {a : Nat} {bs : ByteString} {c : Host.Cell} (hc : c ∈ m.writeBytes a bs) :
    c ∈ m ∨ (a ≤ c.1 ∧ c.1 < a + bs.length) := by
  induction bs generalizing m a with
  | nil => exact .inl hc
  | cons b bs ih =>
    rcases ih hc with h | h
    · rcases mem_write h with h | h
      · exact .inl h
      · subst h; exact .inr ⟨Nat.le_refl _, by simp⟩
    · exact .inr ⟨by omega, by simp only [List.length_cons]; omega⟩

theorem mem_clear {m : Memory} {lo hi : Nat} {c : Host.Cell} (hc : c ∈ m.clear lo hi) : c ∈ m :=
  (List.mem_filter.1 hc).1

/-- Two canonical memories that read alike are equal: equal memories are equal data. -/
theorem ext {m n : Memory} (hm : m.wf = true) (hn : n.wf = true) (h : ∀ a, m.read a = n.read a) : m = n := by
  have first : ∀ {b : Nat} {u : Byte} {m : Memory}, Memory.wf ((b, u) :: m) = true → ∀ a, a < b →
      Memory.read ((b, u) :: m) a = 0 := by
    intro b u m hw a ha
    obtain ⟨-, hb, -⟩ := wf_cons.1 hw
    rw [read_cons, if_neg (by omega), read_above hb (by omega)]
  induction m generalizing n with
  | nil =>
    cases n with
    | nil => rfl
    | cons c n =>
      obtain ⟨b, u⟩ := c
      have := h b; rw [read_cons, if_pos rfl] at this
      exact absurd this.symm (wf_cons.1 hn).1
  | cons c m ih =>
    obtain ⟨b, u⟩ := c
    cases n with
    | nil =>
      have := h b; rw [read_cons, if_pos rfl] at this
      exact absurd this (wf_cons.1 hm).1
    | cons d n =>
      obtain ⟨b', u'⟩ := d
      have hm' := wf_cons.1 hm
      have hn' := wf_cons.1 hn
      have hb : b = b' := by
        rcases Nat.lt_trichotomy b b' with hlt | heq | hlt
        · have := h b; rw [read_cons, if_pos rfl, first hn b hlt] at this; exact absurd this hm'.1
        · exact heq
        · have := h b'; rw [first hm b' hlt, read_cons, if_pos rfl] at this; exact absurd this.symm hn'.1
      subst hb
      have hu : u = u' := by have := h b; rwa [read_cons, if_pos rfl, read_cons, if_pos rfl] at this
      subst hu
      congr 1
      refine ih hm'.2.2 hn'.2.2 fun a => ?_
      have := h a
      rw [read_cons, read_cons] at this
      by_cases ha : b = a
      · subst ha; rw [read_above hm'.2.1 (Nat.le_refl _), read_above hn'.2.1 (Nat.le_refl _)]
      · rwa [if_neg ha, if_neg ha] at this

end Sys2Proof.Machine.Memory
end

