-- ==== Sys2Proof/Laws/State.lean ====
section
/-! SUPPORT. One lemma per field for each update of the state, true by rfl, so that no proof unfolds a record update. -/

namespace Sys2Proof.Machine

/-- The verdict is the predicate of 70_reset_and_hazards.md R252. -/
theorem wordlistVerdict_iff (w : WordIndex → ByteString) : wordlistVerdict w = true ↔ WordlistWellFormed w := by
  unfold wordlistVerdict
  rw [Bool.and_eq_true, decide_eq_true_iff, decide_eq_true_iff]
  exact ⟨fun h => ⟨h.1, h.2⟩, fun h => ⟨h.1, h.2⟩⟩

variable (c : CoreState) (s : State) (cfg : Config)

@[simp] theorem CoreState.flagsIssued_cmd : (c.flagsIssued).cmd = c.cmd := rfl
@[simp] theorem CoreState.flagsIssued_busy : (c.flagsIssued).busy = true := rfl
@[simp] theorem CoreState.flagsIssued_done : (c.flagsIssued).done = false := rfl
@[simp] theorem CoreState.flagsIssued_err : (c.flagsIssued).err = false := rfl
@[simp] theorem CoreState.flagsIssued_fatal : (c.flagsIssued).fatal = c.fatal := rfl
@[simp] theorem CoreState.flagsIssued_ecode : (c.flagsIssued).ecode = none := rfl
@[simp] theorem CoreState.flagsIssued_elen : (c.flagsIssued).elen = c.elen := rfl
@[simp] theorem CoreState.flagsIssued_mlen : (c.flagsIssued).mlen = c.mlen := rfl
@[simp] theorem CoreState.flagsIssued_plen : (c.flagsIssued).plen = c.plen := rfl
@[simp] theorem CoreState.flagsIssued_wcount : (c.flagsIssued).wcount = c.wcount := rfl
@[simp] theorem CoreState.flagsIssued_widx : (c.flagsIssued).widx = c.widx := rfl
@[simp] theorem CoreState.flagsIssued_mem : (c.flagsIssued).mem = c.mem := rfl

@[simp] theorem CoreState.flagsDone_cmd : (c.flagsDone).cmd = c.cmd := rfl
@[simp] theorem CoreState.flagsDone_busy : (c.flagsDone).busy = false := rfl
@[simp] theorem CoreState.flagsDone_done : (c.flagsDone).done = true := rfl
@[simp] theorem CoreState.flagsDone_err : (c.flagsDone).err = c.err := rfl
@[simp] theorem CoreState.flagsDone_fatal : (c.flagsDone).fatal = c.fatal := rfl
@[simp] theorem CoreState.flagsDone_ecode : (c.flagsDone).ecode = c.ecode := rfl
@[simp] theorem CoreState.flagsDone_elen : (c.flagsDone).elen = c.elen := rfl
@[simp] theorem CoreState.flagsDone_mlen : (c.flagsDone).mlen = c.mlen := rfl
@[simp] theorem CoreState.flagsDone_plen : (c.flagsDone).plen = c.plen := rfl
@[simp] theorem CoreState.flagsDone_wcount : (c.flagsDone).wcount = c.wcount := rfl
@[simp] theorem CoreState.flagsDone_widx : (c.flagsDone).widx = c.widx := rfl
@[simp] theorem CoreState.flagsDone_mem : (c.flagsDone).mem = c.mem := rfl

@[simp] theorem CoreState.reportError_cmd (e : CoreError) : (c.reportError e).cmd = c.cmd := rfl
@[simp] theorem CoreState.reportError_busy (e : CoreError) : (c.reportError e).busy = false := rfl
@[simp] theorem CoreState.reportError_done (e : CoreError) : (c.reportError e).done = c.done := rfl
@[simp] theorem CoreState.reportError_err (e : CoreError) : (c.reportError e).err = true := rfl
@[simp] theorem CoreState.reportError_fatal (e : CoreError) : (c.reportError e).fatal = c.fatal := rfl
@[simp] theorem CoreState.reportError_ecode (e : CoreError) : (c.reportError e).ecode = some e := rfl
@[simp] theorem CoreState.reportError_elen (e : CoreError) : (c.reportError e).elen = c.elen := rfl
@[simp] theorem CoreState.reportError_mlen (e : CoreError) : (c.reportError e).mlen = c.mlen := rfl
@[simp] theorem CoreState.reportError_plen (e : CoreError) : (c.reportError e).plen = c.plen := rfl
@[simp] theorem CoreState.reportError_wcount (e : CoreError) : (c.reportError e).wcount = c.wcount := rfl
@[simp] theorem CoreState.reportError_widx (e : CoreError) : (c.reportError e).widx = c.widx := rfl
@[simp] theorem CoreState.reportError_mem (e : CoreError) : (c.reportError e).mem = c.mem := rfl

@[simp] theorem CoreState.clearResults_cmd : (c.clearResults).cmd = c.cmd := rfl
@[simp] theorem CoreState.clearResults_busy : (c.clearResults).busy = c.busy := rfl
@[simp] theorem CoreState.clearResults_done : (c.clearResults).done = c.done := rfl
@[simp] theorem CoreState.clearResults_err : (c.clearResults).err = c.err := rfl
@[simp] theorem CoreState.clearResults_fatal : (c.clearResults).fatal = c.fatal := rfl
@[simp] theorem CoreState.clearResults_ecode : (c.clearResults).ecode = c.ecode := rfl
@[simp] theorem CoreState.clearResults_elen : (c.clearResults).elen = c.elen := rfl
@[simp] theorem CoreState.clearResults_mlen : (c.clearResults).mlen = c.mlen := rfl
@[simp] theorem CoreState.clearResults_plen : (c.clearResults).plen = c.plen := rfl
@[simp] theorem CoreState.clearResults_wcount : (c.clearResults).wcount = 0 := rfl
@[simp] theorem CoreState.clearResults_widx : (c.clearResults).widx = Vector.replicate 24 WordReg.zero := rfl
@[simp] theorem CoreState.clearResults_mem : (c.clearResults).mem = (c.mem.clear 0x080 0x0C0).clear 0x400 0x580 := rfl

@[simp] theorem CoreState.issue_cmd (v : Word) : (c.issue v).cmd = v := rfl
@[simp] theorem CoreState.issue_busy (v : Word) : (c.issue v).busy = true := rfl
@[simp] theorem CoreState.issue_done (v : Word) : (c.issue v).done = false := rfl
@[simp] theorem CoreState.issue_err (v : Word) : (c.issue v).err = false := rfl
@[simp] theorem CoreState.issue_fatal (v : Word) : (c.issue v).fatal = c.fatal := rfl
@[simp] theorem CoreState.issue_ecode (v : Word) : (c.issue v).ecode = none := rfl
@[simp] theorem CoreState.issue_elen (v : Word) : (c.issue v).elen = c.elen := rfl
@[simp] theorem CoreState.issue_mlen (v : Word) : (c.issue v).mlen = c.mlen := rfl
@[simp] theorem CoreState.issue_plen (v : Word) : (c.issue v).plen = c.plen := rfl
@[simp] theorem CoreState.issue_wcount (v : Word) : (c.issue v).wcount = 0 := rfl
@[simp] theorem CoreState.issue_widx (v : Word) : (c.issue v).widx = Vector.replicate 24 WordReg.zero := rfl
@[simp] theorem CoreState.issue_mem (v : Word) : (c.issue v).mem = (c.mem.clear 0x080 0x0C0).clear 0x400 0x580 := rfl

@[simp] theorem CoreState.reportSeed_cmd (d : Vector Byte 64) : (c.reportSeed d).cmd = c.cmd := rfl
@[simp] theorem CoreState.reportSeed_busy (d : Vector Byte 64) : (c.reportSeed d).busy = false := rfl
@[simp] theorem CoreState.reportSeed_done (d : Vector Byte 64) : (c.reportSeed d).done = true := rfl
@[simp] theorem CoreState.reportSeed_err (d : Vector Byte 64) : (c.reportSeed d).err = c.err := rfl
@[simp] theorem CoreState.reportSeed_fatal (d : Vector Byte 64) : (c.reportSeed d).fatal = c.fatal := rfl
@[simp] theorem CoreState.reportSeed_ecode (d : Vector Byte 64) : (c.reportSeed d).ecode = c.ecode := rfl
@[simp] theorem CoreState.reportSeed_elen (d : Vector Byte 64) : (c.reportSeed d).elen = c.elen := rfl
@[simp] theorem CoreState.reportSeed_mlen (d : Vector Byte 64) : (c.reportSeed d).mlen = c.mlen := rfl
@[simp] theorem CoreState.reportSeed_plen (d : Vector Byte 64) : (c.reportSeed d).plen = c.plen := rfl
@[simp] theorem CoreState.reportSeed_wcount (d : Vector Byte 64) : (c.reportSeed d).wcount = c.wcount := rfl
@[simp] theorem CoreState.reportSeed_widx (d : Vector Byte 64) : (c.reportSeed d).widx = c.widx := rfl
@[simp] theorem CoreState.reportSeed_mem (d : Vector Byte 64) : (c.reportSeed d).mem = c.mem.writeBytes 0x080 d.toList := rfl

@[simp] theorem CoreState.reset_cmd : (CoreState.reset cfg).cmd = 0 := rfl
@[simp] theorem CoreState.reset_busy : (CoreState.reset cfg).busy = false := rfl
@[simp] theorem CoreState.reset_done : (CoreState.reset cfg).done = false := rfl
@[simp] theorem CoreState.reset_err : (CoreState.reset cfg).err = false := rfl
@[simp] theorem CoreState.reset_fatal : (CoreState.reset cfg).fatal = !wordlistVerdict cfg.wordlist := rfl
@[simp] theorem CoreState.reset_ecode : (CoreState.reset cfg).ecode = none := rfl
@[simp] theorem CoreState.reset_elen : (CoreState.reset cfg).elen = 0 := rfl
@[simp] theorem CoreState.reset_mlen : (CoreState.reset cfg).mlen = 0 := rfl
@[simp] theorem CoreState.reset_plen : (CoreState.reset cfg).plen = 0 := rfl
@[simp] theorem CoreState.reset_wcount : (CoreState.reset cfg).wcount = 0 := rfl
@[simp] theorem CoreState.reset_widx : (CoreState.reset cfg).widx = Vector.replicate 24 WordReg.zero := rfl
@[simp] theorem CoreState.reset_mem : (CoreState.reset cfg).mem = [] := rfl

@[simp] theorem State.complete_core (r : OpResult) : (s.complete cfg r).core = s.core.complete cfg r := rfl
@[simp] theorem State.complete_script (r : OpResult) : (s.complete cfg r).script = s.script := rfl
@[simp] theorem State.complete_received (r : OpResult) : (s.complete cfg r).received = s.received := rfl
@[simp] theorem State.complete_turns (r : OpResult) : (s.complete cfg r).turns = s.turns := rfl

@[simp] theorem State.hostReceives_core (v : Word) : (s.hostReceives v).core = s.core := rfl
@[simp] theorem State.hostReceives_script (v : Word) : (s.hostReceives v).script = s.script.tail := rfl
@[simp] theorem State.hostReceives_received (v : Word) : (s.hostReceives v).received = s.received ++ [v] := rfl
@[simp] theorem State.hostReceives_turns (v : Word) : (s.hostReceives v).turns = s.turns := rfl

@[simp] theorem State.hostWrites_core (t : Target) (v : Word) : (s.hostWrites t v).core = s.core.writeWord t v := rfl
@[simp] theorem State.hostWrites_script (t : Target) (v : Word) : (s.hostWrites t v).script = s.script.tail := rfl
@[simp] theorem State.hostWrites_received (t : Target) (v : Word) : (s.hostWrites t v).received = s.received := rfl
@[simp] theorem State.hostWrites_turns (t : Target) (v : Word) : (s.hostWrites t v).turns = s.turns := rfl

@[simp] theorem State.hostResets_core : (s.hostResets cfg).core = CoreState.reset cfg := rfl
@[simp] theorem State.hostResets_script : (s.hostResets cfg).script = s.script.tail := rfl
@[simp] theorem State.hostResets_received : (s.hostResets cfg).received = s.received := rfl
@[simp] theorem State.hostResets_turns : (s.hostResets cfg).turns = s.turns := rfl

@[simp] theorem State.placeCommand_core (v : Word) : (s.placeCommand v).core = ({ s.core with fatal := false } : CoreState).issue v := rfl
@[simp] theorem State.placeCommand_script (v : Word) : (s.placeCommand v).script = [] := rfl
@[simp] theorem State.placeCommand_received (v : Word) : (s.placeCommand v).received = s.received := rfl
@[simp] theorem State.placeCommand_turns (v : Word) : (s.placeCommand v).turns = s.turns := rfl

@[simp] theorem State.takeTurn_core : s.takeTurn.core = s.core := by unfold State.takeTurn; split <;> rfl
@[simp] theorem State.takeTurn_script : s.takeTurn.script = s.script := by unfold State.takeTurn; split <;> rfl
@[simp] theorem State.takeTurn_received : s.takeTurn.received = s.received := by
  unfold State.takeTurn; split <;> rfl
theorem State.takeTurn_turns : s.takeTurn.turns = if s.contended then s.turns.tail else s.turns := by
  unfold State.takeTurn; split <;> rfl

end Sys2Proof.Machine
end

