-- ==== Sys2Proof/Laws/Ops.lean ====
section
/-! SUPPORT. What each shared operation can do, said once: issue, the placing of words, the three completions, host
writes. -/

namespace Sys2Proof.Machine

/-! ### Issue -/

theorem CoreState.issue_read (v : Word) (c : CoreState) (a : Nat) :
    (c.issue v).mem.read a = if resultOffset a then 0 else c.mem.read a := by
  rw [CoreState.issue_mem, Memory.read_clear, Memory.read_clear]
  by_cases h1 : 0x400 ≤ a ∧ a < 0x580
  · rw [if_pos h1, if_pos (Or.inr h1)]
  · by_cases h2 : 0x080 ≤ a ∧ a < 0x0C0
    · rw [if_neg h1, if_pos h2, if_pos (Or.inl h2)]
    · rw [if_neg h1, if_neg h2, if_neg (by rintro (h | h); exacts [h2 h, h1 h])]

theorem CoreState.issue_resultsZero (v : Word) (c : CoreState) : ResultsZero (c.issue v) where
  wcount := rfl
  widx i := by simp
  bytes a ha := by rw [CoreState.issue_read, if_pos ha]

theorem CoreState.issue_sameOperands (v : Word) (c : CoreState) : SameOperands (c.issue v) c where
  elen := rfl
  mlen := rfl
  plen := rfl
  bytes a ha := by
    rw [CoreState.issue_read, if_neg]
    rintro h; rcases ha with ha | ha <;> rcases h with h | h <;> omega

theorem CoreState.issue_memoryInv (v : Word) {c : CoreState} (h : MemoryInv c.mem) : MemoryInv (c.issue v).mem where
  wf := Memory.wf_clear _ _ (Memory.wf_clear _ _ h.wf)
  mapped x hx := h.mapped x (Memory.mem_clear (Memory.mem_clear hx))

/-! ### Placing words -/

/-- Placing a word changes `WIDX` and the memory alone. -/
theorem CoreState.placeWord_fields (cfg : Config) (i : Nat) (idx : WordIndex) (c : CoreState) :
    ∃ w m, c.placeWord cfg i idx = { c with widx := w, mem := m } := by
  unfold CoreState.placeWord; split
  · exact ⟨_, _, rfl⟩
  · exact ⟨c.widx, c.mem, rfl⟩

/-- Placing words changes `WIDX` and the memory alone. -/
theorem CoreState.placeWords_fields (cfg : Config) (i : Nat) (l : List WordIndex) (c : CoreState) :
    ∃ w m, CoreState.placeWords cfg i l c = { c with widx := w, mem := m } := by
  induction l generalizing i c with
  | nil => exact ⟨c.widx, c.mem, rfl⟩
  | cons x l ih =>
    obtain ⟨w, m, h⟩ := CoreState.placeWord_fields cfg i x c
    obtain ⟨w', m', h'⟩ := ih (i + 1) (c.placeWord cfg i x)
    exact ⟨w', m', by rw [CoreState.placeWords, h', h]⟩

theorem CoreState.placeWord_widx (cfg : Config) (i : Nat) (idx : WordIndex) (c : CoreState) (k : Fin 24) :
    (c.placeWord cfg i idx).widx[k] =
      if k.val = i then { idx := idx, wlen := BitVec.ofNat 5 (romRead cfg idx).length } else c.widx[k] := by
  unfold CoreState.placeWord
  split
  · simp only [Fin.getElem_fin, Vector.getElem_set]
    by_cases hk : k.val = i
    · rw [if_pos hk, if_pos hk.symm]
    · rw [if_neg hk, if_neg (Ne.symm hk)]
  · rw [if_neg (by omega)]

/-- `WIDX` after a result: a register whose position has no word is as before. -/
theorem CoreState.placeWords_widx_out (cfg : Config) {i : Nat} {l : List WordIndex} (c : CoreState) {k : Fin 24}
    (hk : k.val < i ∨ i + l.length ≤ k.val) :
    (CoreState.placeWords cfg i l c).widx[k] = c.widx[k] := by
  induction l generalizing i c with
  | nil => rfl
  | cons y l ih =>
    simp only [List.length_cons] at hk
    rw [CoreState.placeWords, ih _ (by omega), CoreState.placeWord_widx, if_neg (by omega)]

/-- `WIDX` after a result: a register whose position has a word holds it. -/
theorem CoreState.placeWords_widx_in (cfg : Config) {i : Nat} {l : List WordIndex} (c : CoreState) {k : Fin 24}
    {idx : WordIndex} (hk : i ≤ k.val) (hx : l[k.val - i]? = some idx) :
    (CoreState.placeWords cfg i l c).widx[k] =
      { idx := idx, wlen := BitVec.ofNat 5 (romRead cfg idx).length } := by
  induction l generalizing i c with
  | nil => simp at hx
  | cons y l ih =>
    rw [CoreState.placeWords]
    rcases Nat.lt_or_ge i k.val with hlt | hge
    · refine ih _ hlt ?_
      rwa [show k.val - i = (k.val - (i + 1)) + 1 by omega, List.getElem?_cons_succ] at hx
    · have hki : k.val = i := by omega
      rw [show k.val - i = 0 by omega, List.getElem?_cons_zero] at hx
      rw [CoreState.placeWords_widx_out cfg _ (by omega), CoreState.placeWord_widx, if_pos hki, Option.some.inj hx]

/-- The bytes a word's text occupies. -/
theorem wtext_offset (i : Fin 24) : Buffer.offset (.wtext i) = 0x400 + 16 * i.val := rfl

theorem CoreState.placeWord_memoryInv (cfg : Config) (i : Nat) (idx : WordIndex) {c : CoreState}
    (h : MemoryInv c.mem) : MemoryInv (c.placeWord cfg i idx).mem := by
  unfold CoreState.placeWord
  split
  · rename_i hi
    refine ⟨Memory.wf_writeBytes _ _ h.wf, fun x hx => ?_⟩
    rcases Memory.mem_writeBytes hx with hx | hx
    · exact h.mapped x hx
    · have hl : ((romRead cfg idx).take Config.wslotBytes).length ≤ 16 := by
        rw [List.length_take]; exact Nat.min_le_left _ _
      rw [wtext_offset] at hx
      simp only at hx
      exact Or.inr (Or.inr ⟨by omega, by omega⟩)
  · exact h

theorem CoreState.placeWords_memoryInv (cfg : Config) (i : Nat) (l : List WordIndex) {c : CoreState}
    (h : MemoryInv c.mem) : MemoryInv (CoreState.placeWords cfg i l c).mem := by
  induction l generalizing i c with
  | nil => exact h
  | cons x l ih => exact ih _ (CoreState.placeWord_memoryInv cfg i x h)

theorem CoreState.placeWord_wf (cfg : Config) (i : Nat) (idx : WordIndex) {c : CoreState}
    (h : c.mem.wf = true) : (c.placeWord cfg i idx).mem.wf = true := by
  unfold CoreState.placeWord
  split
  · exact Memory.wf_writeBytes _ _ h
  · exact h

theorem CoreState.placeWord_read_other (cfg : Config) (i : Nat) (idx : WordIndex) (c : CoreState) {a : Nat}
    (ha : a < 0x400 + 16 * i ∨ 0x400 + 16 * i + min 16 (romRead cfg idx).length ≤ a) :
    (c.placeWord cfg i idx).mem.read a = c.mem.read a := by
  unfold CoreState.placeWord
  split
  · refine Memory.read_writeBytes_other _ ?_
    rw [wtext_offset, List.length_take]
    exact ha
  · rfl

theorem CoreState.placeWord_read (cfg : Config) {i : Nat} (hi : i < 24) (idx : WordIndex) {c : CoreState}
    (h : c.mem.wf = true) {k : Nat} (hk : k < 16) (hl : k < (romRead cfg idx).length) :
    (c.placeWord cfg i idx).mem.read (0x400 + 16 * i + k) = (romRead cfg idx).getD k 0 := by
  unfold CoreState.placeWord
  rw [dif_pos hi]
  have hk' : k < ((romRead cfg idx).take Config.wslotBytes).length := by
    rw [List.length_take]; exact Nat.lt_min.2 ⟨hk, hl⟩
  have := Memory.read_writeBytes_same (a := 0x400 + 16 * i) h hk'
  rw [List.getElem_take] at this
  rw [List.getD_eq_getElem?_getD, List.getElem?_eq_getElem hl]
  exact this

theorem CoreState.placeWord_wtext_other (cfg : Config) {i j : Nat} (hij : i ≠ j) (idx : WordIndex) (c : CoreState)
    {k : Nat} (hk : k < 16) :
    (c.placeWord cfg i idx).mem.read (0x400 + 16 * j + k) = c.mem.read (0x400 + 16 * j + k) :=
  CoreState.placeWord_read_other _ _ _ _ (by omega)

/-- A text whose position has no word is as before. -/
theorem CoreState.placeWords_wtext_out (cfg : Config) {i j : Nat} {l : List WordIndex} (c : CoreState)
    (hj : j < i ∨ i + l.length ≤ j) {k : Nat} (hk : k < 16) :
    (CoreState.placeWords cfg i l c).mem.read (0x400 + 16 * j + k) = c.mem.read (0x400 + 16 * j + k) := by
  induction l generalizing i c with
  | nil => rfl
  | cons y l ih =>
    simp only [List.length_cons] at hj
    rw [CoreState.placeWords, ih _ (by omega), CoreState.placeWord_wtext_other cfg (by omega) y c hk]

/-- A text whose position has a word: the word's bytes, and as before after its end. -/
theorem CoreState.placeWords_wtext_in (cfg : Config) {i j : Nat} {l : List WordIndex} {c : CoreState}
    (h : c.mem.wf = true) {idx : WordIndex} (hj : i ≤ j) (hj' : j < 24) (hx : l[j - i]? = some idx) {k : Nat} (hk : k < 16) :
    (CoreState.placeWords cfg i l c).mem.read (0x400 + 16 * j + k) =
      if k < (romRead cfg idx).length then (romRead cfg idx).getD k 0
      else c.mem.read (0x400 + 16 * j + k) := by
  induction l generalizing i c with
  | nil => simp at hx
  | cons y l ih =>
    rw [CoreState.placeWords]
    rcases Nat.lt_or_ge i j with hlt | hge
    · rw [show j - i = (j - (i + 1)) + 1 by omega, List.getElem?_cons_succ] at hx
      rw [ih (CoreState.placeWord_wf cfg i y h) hlt hx, CoreState.placeWord_wtext_other cfg (by omega) y c hk]
    · have hji : j = i := by omega
      subst hji
      rw [show j - j = 0 by omega, List.getElem?_cons_zero] at hx
      rw [CoreState.placeWords_wtext_out cfg _ (by omega) hk, ← Option.some.inj hx]
      split
      · exact CoreState.placeWord_read cfg hj' y h hk ‹_›
      · exact CoreState.placeWord_read_other _ _ _ _ (by omega)

/-- Placing words leaves every byte outside `WTEXT` alone. -/
theorem CoreState.placeWords_read_outside (cfg : Config) (i : Nat) (l : List WordIndex) (c : CoreState) {a : Nat}
    (ha : a < 0x400 ∨ 0x580 ≤ a) : (CoreState.placeWords cfg i l c).mem.read a = c.mem.read a := by
  induction l generalizing i c with
  | nil => rfl
  | cons x l ih =>
    rw [CoreState.placeWords, ih]
    by_cases hi : i < 24
    · exact CoreState.placeWord_read_other _ _ _ _ (by omega)
    · unfold CoreState.placeWord; rw [dif_neg hi]

theorem CoreState.placeWords_wf (cfg : Config) (i : Nat) (l : List WordIndex) {c : CoreState}
    (h : c.mem.wf = true) : (CoreState.placeWords cfg i l c).mem.wf = true := by
  induction l generalizing i c with
  | nil => exact h
  | cons x l ih => exact ih _ (CoreState.placeWord_wf cfg i x h)

/-! ### Completion -/

/-- A completion clears `BUSY` and leaves `CMD`, `FATAL` and the length registers alone. -/
theorem CoreState.complete_fixed (cfg : Config) (r : OpResult) (c : CoreState) :
    (c.complete cfg r).busy = false ∧ (c.complete cfg r).cmd = c.cmd ∧ (c.complete cfg r).fatal = c.fatal ∧
    (c.complete cfg r).elen = c.elen ∧ (c.complete cfg r).mlen = c.mlen ∧ (c.complete cfg r).plen = c.plen := by
  cases r with
  | err e => exact ⟨rfl, rfl, rfl, rfl, rfl, rfl⟩
  | okMnemonic l =>
    obtain ⟨w, m, h⟩ := CoreState.placeWords_fields cfg 0 l { c.flagsDone with wcount := BitVec.ofNat 5 l.length }
    rw [show c.complete cfg (.okMnemonic l) = _ from h]
    exact ⟨rfl, rfl, rfl, rfl, rfl, rfl⟩
  | okSeed d => exact ⟨rfl, rfl, rfl, rfl, rfl, rfl⟩

/-- The flags after a completion with words. -/
theorem CoreState.reportMnemonic_flags (cfg : Config) (l : List WordIndex) (c : CoreState) :
    (c.reportMnemonic cfg l).done = true ∧ (c.reportMnemonic cfg l).err = c.err ∧
    (c.reportMnemonic cfg l).ecode = c.ecode ∧ (c.reportMnemonic cfg l).wcount = BitVec.ofNat 5 l.length := by
  obtain ⟨w, m, h⟩ := CoreState.placeWords_fields cfg 0 l { c.flagsDone with wcount := BitVec.ofNat 5 l.length }
  rw [show c.reportMnemonic cfg l = _ from h]
  exact ⟨rfl, rfl, rfl, rfl⟩

/-- A completion writes bytes of result buffers only. -/
theorem CoreState.complete_read_operand (cfg : Config) (r : OpResult) (c : CoreState) {a : Nat}
    (ha : operandOffset a) : (c.complete cfg r).mem.read a = c.mem.read a := by
  cases r with
  | err e => rfl
  | okMnemonic l =>
    exact CoreState.placeWords_read_outside cfg 0 l _ (by rcases ha with ha | ha <;> omega)
  | okSeed d =>
    have hd : d.toList.length = 64 := by simp
    refine Memory.read_writeBytes_other _ ?_
    rw [hd, Buffer.offset]
    rcases ha with ha | ha <;> omega

theorem CoreState.complete_sameOperands (cfg : Config) (r : OpResult) (c : CoreState) :
    SameOperands (c.complete cfg r) c where
  elen := (CoreState.complete_fixed cfg r c).2.2.2.1
  mlen := (CoreState.complete_fixed cfg r c).2.2.2.2.1
  plen := (CoreState.complete_fixed cfg r c).2.2.2.2.2
  bytes _ ha := CoreState.complete_read_operand cfg r c ha

theorem CoreState.complete_memoryInv (cfg : Config) (r : OpResult) {c : CoreState} (h : MemoryInv c.mem) :
    MemoryInv (c.complete cfg r).mem := by
  cases r with
  | err e => exact h
  | okMnemonic l => exact CoreState.placeWords_memoryInv cfg 0 l h
  | okSeed d =>
    refine ⟨Memory.wf_writeBytes _ _ h.wf, fun x hx => ?_⟩
    rcases Memory.mem_writeBytes hx with hx | hx
    · exact h.mapped x hx
    · have hd : d.toList.length = 64 := by simp
      rw [hd, Buffer.offset] at hx
      exact Or.inr (Or.inl ⟨by omega, by omega⟩)

/-- The bytes of `SEED` after a completion with a seed. -/
theorem CoreState.reportSeed_byte (d : Vector Byte 64) {c : CoreState} (h : c.mem.wf = true) {k : Nat} (hk : k < 64) :
    (c.reportSeed d).byte .seed k = d[k] := by
  have := Memory.read_writeBytes_same (a := 0x080) (k := k) (bs := d.toList) h (by simpa using hk)
  simpa [CoreState.byte, Buffer.offset] using this

/-! ### Host writes -/

/-- A write of a word leaves other offsets alone. -/
theorem Memory.read_writeWord_other {m : Memory} {off a : Nat} (v : Word) (ha : a < off ∨ off + 4 ≤ a) :
    (m.writeWord off v).read a = m.read a :=
  Memory.read_writeBytes_other _ ha

theorem Memory.read_writeWord_same {m : Memory} {off t : Nat} (v : Word) (h : m.wf = true) (ht : t < 4) :
    (m.writeWord off v).read (off + t) = wordByte v t := by
  have := Memory.read_writeBytes_same (a := off) (bs := [wordByte v 0, wordByte v 1, wordByte v 2, wordByte v 3])
    h (k := t) (by simpa using ht)
  rw [Memory.writeWord, this]
  match t, ht with
  | 0, _ => rfl
  | 1, _ => rfl
  | 2, _ => rfl
  | 3, _ => rfl

theorem Memory.writeWord_memoryInv {m : Memory} {off : Nat} (v : Word) (h : MemoryInv m)
    (ho : ∀ t, t < 4 → operandOffset (off + t)) : MemoryInv (m.writeWord off v) where
  wf := Memory.wf_writeBytes _ _ h.wf
  mapped x hx := by
    rcases Memory.mem_writeBytes hx with hx | hx
    · exact h.mapped x hx
    · have hl : x.1 - off < 4 := by simp only [List.length_cons, List.length_nil] at hx; omega
      have := ho (x.1 - off) hl
      rw [show off + (x.1 - off) = x.1 by omega] at this
      exact Or.inl this

/-- Everything a host write can do to the CORE: nothing, an issue, or a store to one operand. -/
theorem CoreState.writeWord_cases (t : Target) (v : Word) (c : CoreState) :
    c.writeWord t v = c ∨
    (t = .cmd ∧ c.busy = false ∧ c.fatal = false ∧ c.writeWord t v = c.issue v) ∨
    (c.busy = false ∧ t.isOperand = true ∧ c.writeWord t v = c.writeOperand t v ∧
      c.writeOperand t v = { c with
        elen := (c.writeOperand t v).elen, mlen := (c.writeOperand t v).mlen, plen := (c.writeOperand t v).plen,
        mem := (c.writeOperand t v).mem } ∧
      (∀ a, resultOffset a → (c.writeOperand t v).mem.read a = c.mem.read a) ∧
      (MemoryInv c.mem → MemoryInv (c.writeOperand t v).mem)) := by
  have store : ∀ off, (∀ i, i < 4 → operandOffset (off + i)) →
      (∀ a, resultOffset a → (c.mem.writeWord off v).read a = c.mem.read a) ∧
      (MemoryInv c.mem → MemoryInv (c.mem.writeWord off v)) := by
    intro off ho
    refine ⟨fun a ha => Memory.read_writeWord_other v ?_, fun h => Memory.writeWord_memoryInv v h ho⟩
    have h0 := ho 0 (by omega); have h3 := ho 3 (by omega)
    rcases ha with ha | ha <;> rcases h0 with h0 | h0 <;> rcases h3 with h3 | h3 <;> omega
  cases hb : c.busy with
  | true =>
    left
    cases t <;> simp [CoreState.writeWord, CoreState.writeOperand, CoreState.accepts, hb]
  | false =>
    cases t with
    | cmd =>
      cases hf : c.fatal with
      | true => left; simp [CoreState.writeWord, CoreState.accepts, hf]
      | false => right; left; simp [CoreState.writeWord, CoreState.accepts, hb, hf]
    | status | wcount | seed _ | widx _ | wtext _ _ => left; rfl
    | elen | mlen | plen =>
      right; right
      refine ⟨rfl, rfl, rfl, ?_, ?_, ?_⟩ <;> simp [CoreState.writeOperand, hb]
    | ebuf j =>
      right; right
      refine ⟨rfl, rfl, rfl, ?_, ?_⟩
      · simp [CoreState.writeOperand, hb]
      · simp only [CoreState.writeOperand, hb, Bool.false_eq_true, if_false]
        exact store _ fun i hi => Or.inl ⟨by simp only [Target.offset]; omega, by simp only [Target.offset]; omega⟩
    | mbuf j =>
      right; right
      refine ⟨rfl, rfl, rfl, ?_, ?_⟩
      · simp [CoreState.writeOperand, hb]
      · simp only [CoreState.writeOperand, hb, Bool.false_eq_true, if_false]
        exact store _ fun i hi => Or.inr ⟨by simp only [Target.offset]; omega, by simp only [Target.offset]; omega⟩
    | pbuf j =>
      right; right
      refine ⟨rfl, rfl, rfl, ?_, ?_⟩
      · simp [CoreState.writeOperand, hb]
      · simp only [CoreState.writeOperand, hb, Bool.false_eq_true, if_false]
        exact store _ fun i hi => Or.inr ⟨by simp only [Target.offset]; omega, by simp only [Target.offset]; omega⟩

end Sys2Proof.Machine
end

