-- ==== Sys2Proof/Laws/Step.lean ====
section
/-! SUPPORT. Everything one step can do, said once; later proofs cite these instead of unfolding the step. -/

namespace Sys2Proof.Machine

/-- The core moves only while an operation is in flight. -/
theorem State.busy_of_nextMove {s : State} (h : s.nextMove = .core) : s.core.busy = true := by
  unfold State.nextMove at h
  split at h
  · split at h <;> simp_all
  · simp at h
  · split at h
    · assumption
    · simp at h

/-- The host moves with the first statement of its script. -/
theorem State.script_of_nextMove {s : State} {st : HostStmt} (h : s.nextMove = .host st) :
    s.script = st :: s.script.tail := by
  unfold State.nextMove at h
  split at h
  · split at h <;> simp_all
  · rename_i hs; rw [hs]; simp only [Move.host.injEq] at h; subst h; rfl
  · rename_i hs
    rw [hs]
    split at h
    · split at h <;> simp_all
    · simp_all

/-- Nobody moves exactly when nothing is in flight and the host is silent. -/
theorem State.nextMove_idle {s : State} (h : s.nextMove = .idle) : s.core.busy = false ∧ s.script = [] := by
  unfold State.nextMove at h
  split at h
  · rename_i hs; exact ⟨by split at h <;> simp_all, hs⟩
  · simp at h
  · split at h
    · split at h <;> simp_all
    · simp at h

/-- A reset at the head of the script moves whatever else could. -/
theorem State.nextMove_reset {s : State} {rest : List HostStmt} (h : s.script = .reset :: rest) :
    s.nextMove = .host .reset := by
  unfold State.nextMove; rw [h]

/-- With nothing in flight the host's next statement moves. -/
theorem State.nextMove_of_not_busy {s : State} {st : HostStmt} {rest : List HostStmt} (hb : s.core.busy = false)
    (hs : s.script = st :: rest) : s.nextMove = .host st := by
  unfold State.nextMove; rw [hs, hb]; cases st <;> rfl

/-- With nothing in flight no choice of `turns` is used. -/
theorem State.takeTurn_of_not_busy {s : State} (hb : s.core.busy = false) : s.takeTurn = s := by
  unfold State.takeTurn State.contended
  cases s.script with
  | nil => rfl
  | cons st rest => cases st <;> simp [hb]

/-- A run is its first steps and then the others. -/
theorem runWith_add {cfg : Config} {a b : Nat} {s t : State} (h : runWith cfg a s = .next t) :
    runWith cfg (a + b) s = runWith cfg b t := by
  induction a generalizing s with
  | zero => cases h; rw [Nat.zero_add]
  | succ a ih =>
    rw [Nat.succ_add]
    simp only [runWith] at h ⊢
    cases hs : stepWith cfg s with
    | next u => rw [hs] at h; exact ih h
    | fault f => rw [hs] at h; cases h
    | refused r => rw [hs] at h; cases h

/-- Everything a step can do. -/
theorem stepOf_cases {cfg : Config} {run : Instr → State → Host.Outcome State Fault Refusal} {s t : State}
    (h : stepOf cfg run s = .next t) :
    (s.nextMove = .idle ∧ t = s) ∨
    (s.nextMove = .core ∧ coreStep cfg run s.takeTurn = .next t) ∨
    (∃ a n tg, s.nextMove = .host (.read a n) ∧ admittedWord cfg a n = some tg ∧
      t = s.takeTurn.hostReceives (s.core.readWord tg)) ∨
    (∃ a n v tg, s.nextMove = .host (.write a n v) ∧ admittedWord cfg a n = some tg ∧ t = s.takeTurn.hostWrites tg v) ∨
    (s.nextMove = .host .poll ∧
      ((s.core.busy = true ∧ t = s.takeTurn) ∨
       (s.core.busy = false ∧ t = s.takeTurn.hostReceives s.core.status))) ∨
    (s.nextMove = .host .reset ∧ t = s.takeTurn.hostResets cfg) := by
  unfold stepOf at h
  split at h
  · exact .inl ⟨‹_›, by simpa using h.symm⟩
  · exact .inr (.inl ⟨‹_›, h⟩)
  · rename_i st hm
    unfold hostStep at h
    split at h
    · split at h
      · exact .inr (.inr (.inl ⟨_, _, _, hm, ‹_›, by simpa using h.symm⟩))
      · simp at h
    · split at h
      · exact .inr (.inr (.inr (.inl ⟨_, _, _, _, hm, ‹_›, by simpa using h.symm⟩)))
      · simp at h
    · refine .inr (.inr (.inr (.inr (.inl ⟨hm, ?_⟩))))
      split at h
      · rename_i hb; rw [State.takeTurn_core] at hb; exact .inl ⟨hb, by simpa using h.symm⟩
      · rename_i hb; rw [State.takeTurn_core] at hb; exact .inr ⟨by simpa using hb, by simpa using h.symm⟩
    · exact .inr (.inr (.inr (.inr (.inr ⟨hm, by simpa using h.symm⟩))))

/-- Under any configuration the core's step is the completion with the result of `execute` (30_encoding.md R101). -/
theorem coreStep_execWith (cfg : Config) (s : State) :
    coreStep cfg (execWith cfg) s = .next (s.complete cfg (execute cfg s.core.cmd s.core)) := by
  unfold coreStep execute
  cases hd : decode s.core.cmd with
  | none => rfl
  | some i => cases i <;> rfl

/-- What a step can do to the CORE, with what the move was. -/
theorem stepWith_core_cases {cfg : Config} {s t : State} (h : stepWith cfg s = .next t) :
    (s.nextMove ≠ .core ∧ s.nextMove ≠ .host .reset ∧ t.core = s.core) ∨
    (s.nextMove = .core ∧ s.core.busy = true ∧
      t.core = s.core.complete cfg (execute cfg s.core.cmd s.core)) ∨
    (∃ a n v, s.nextMove = .host (.write a n v) ∧ admittedWord cfg a n = some .cmd ∧ s.core.busy = false ∧
      s.core.fatal = false ∧ t.core = s.core.issue v) ∨
    (∃ a n v tg, s.nextMove = .host (.write a n v) ∧ admittedWord cfg a n = some tg ∧ s.core.busy = false ∧
      tg.isOperand = true ∧ t.core = s.core.writeOperand tg v) ∨
    (s.nextMove = .host .reset ∧ t.core = CoreState.reset cfg) := by
  rcases stepOf_cases h with ⟨hm, rfl⟩ | ⟨hm, hc⟩ | ⟨a, n, tg, hm, -, rfl⟩ | ⟨a, n, v, tg, hm, ha, rfl⟩ |
    ⟨hm, ⟨-, rfl⟩ | ⟨-, rfl⟩⟩ | ⟨hm, rfl⟩
  · exact .inl ⟨by simp [hm], by simp [hm], rfl⟩
  · rw [coreStep_execWith] at hc
    obtain rfl : s.takeTurn.complete cfg (execute cfg s.takeTurn.core.cmd s.takeTurn.core) = t := by simpa using hc
    exact .inr (.inl ⟨hm, State.busy_of_nextMove hm, by simp⟩)
  · exact .inl ⟨by simp [hm], by simp [hm], by simp⟩
  · rcases CoreState.writeWord_cases tg v s.core with hw | ⟨rfl, hb, hf, hw⟩ | ⟨hb, ho, hw, -⟩
    · exact .inl ⟨by simp [hm], by simp [hm], by simp [hw]⟩
    · exact .inr (.inr (.inl ⟨a, n, v, hm, ha, hb, hf, by simp [hw]⟩))
    · exact .inr (.inr (.inr (.inl ⟨a, n, v, tg, hm, ha, hb, ho, by simp [hw]⟩)))
  · exact .inl ⟨by simp [hm], by simp [hm], by simp⟩
  · exact .inl ⟨by simp [hm], by simp [hm], by simp⟩
  · exact .inr (.inr (.inr (.inr ⟨hm, by simp⟩)))

theorem execWith_genmnem (cfg : Config) (ep : Bool) (s : State) :
    execWith cfg (.genmnem ep) s = .next (s.complete cfg (genmnem cfg ep s.core)) := rfl

theorem execWith_genseed (cfg : Config) (mp pp : Bool) (s : State) :
    execWith cfg (.genseed mp pp) s = .next (s.complete cfg (genseed cfg mp pp s.core)) := rfl

/-- The commands on the platform are those under the platform's configuration. -/
theorem exec_platform (i : Instr) (s : State) : exec i s = execWith platform i s := by cases i <;> rfl

end Sys2Proof.Machine
end

