-- ==== Sys2Proof/Laws/Encoder.lean ====
section
/-! SUPPORT. The encoder's and the seed deriver's functions: lengths, bits, and when each result occurs. -/

namespace Sys2Proof.Machine

@[simp] theorem bitsMSB_length (v n : Nat) : (bitsMSB v n).length = n := by simp [bitsMSB]

/-- Bit `k` of `bitsMSB(v, n)` (00_scope.md R12). -/
theorem bitsMSB_getElem (v n k : Nat) (h : k < (bitsMSB v n).length) :
    (bitsMSB v n)[k] = v.testBit (n - 1 - k) := by simp [bitsMSB]

theorem valMSB_lt (b : BitString) : valMSB b < 2 ^ b.length := by
  induction b with
  | nil => simp [valMSB]
  | cons x b ih =>
    have : x.toNat ≤ 1 := Bool.toNat_le x
    simp only [valMSB, List.length_cons, Nat.pow_succ]
    have : x.toNat * 2 ^ b.length ≤ 1 * 2 ^ b.length := Nat.mul_le_mul_right _ this
    omega

/-- `valMSB` of a concatenation. -/
theorem valMSB_append (b c : BitString) : valMSB (b ++ c) = valMSB b * 2 ^ c.length + valMSB c := by
  induction b with
  | nil => simp [valMSB]
  | cons x b ih =>
    simp only [List.cons_append, valMSB, ih, List.length_append, Nat.pow_add]
    ring

@[simp] theorem flatMap_bits_length (e : ByteString) :
    (e.flatMap fun b => bitsMSB b.toNat 8).length = 8 * e.length := by
  induction e with
  | nil => rfl
  | cons b e ih => simp only [List.flatMap_cons, List.length_append, ih, bitsMSB_length, List.length_cons]; omega

/-- The length of a BitString is `ENT + CS` (40_mnemonic_encoder.md R128). -/
@[simp] theorem concatenate_length (e : ByteString) (c cs : Nat) : (concatenate e c cs).length = entBits e + cs := by
  simp [concatenate, entBits, Nat.mul_comm]

theorem bitString_length (cfg : Config) (e : ByteString) : (bitString cfg e).length = entBits e + csBits e := by
  simp [bitString, checksum]

@[simp] theorem mapIndices_length (cfg : Config) (b : BitString) :
    (mapIndices cfg b).length = b.length / Config.groupBits := by simp [mapIndices]

/-- The validator accepts the five lengths and no other (40_mnemonic_encoder.md R121). -/
theorem validate_cases (o : Option ByteString) :
    (∃ e, o = some e ∧ e.length ∈ validLengths ∧ validate o = .ok e) ∨
    ((∀ e, o = some e → e.length ∉ validLengths) ∧ validate o = .err .invalidEntropy) := by
  cases o with
  | none => exact .inr ⟨by simp, rfl⟩
  | some e =>
    have hv : e.length ∈ validLengths ↔
        ¬entBits e < Config.entMin ∧ ¬entBits e > Config.entMax ∧ ¬entBits e % Config.entStep ≠ 0 := by
      simp only [entBits, Config.entMin, Config.entMax, Config.entStep, validLengths, List.mem_cons, List.not_mem_nil,
        or_false]
      omega
    by_cases h : e.length ∈ validLengths
    · obtain ⟨h1, h2, h3⟩ := hv.1 h
      exact .inl ⟨e, rfl, h, by simp only [validate, if_neg h1, if_neg h2, if_neg h3]⟩
    · refine .inr ⟨fun e' he => by rwa [← Option.some.inj he], ?_⟩
      rw [hv] at h
      simp only [validate]
      split
      · rfl
      · split
        · rfl
        · rw [if_pos fun h3 => h ⟨‹_›, ‹_›, fun hne => hne h3⟩]

theorem CoreState.bytes_length (c : CoreState) (b : Buffer) (n : Nat) : (c.bytes b n).length = n := by
  simp [CoreState.bytes]

theorem entropyOperand_length {cfg : Config} {c : CoreState} {e : ByteString}
    (h : entropyOperand cfg true c = some e) : e.length = c.elen.toNat := by
  unfold entropyOperand at h
  simp only [Bool.true_eq_false, if_false] at h
  split at h
  · rw [← Option.some.inj h, CoreState.bytes_length]
  · rw [← Option.some.inj h]; simp

/-- The number of groups of a valid entropy: three for each 4 bytes (00_scope.md R10). -/
theorem groups_of_valid {e : ByteString} (h : e.length ∈ validLengths) :
    (entBits e + csBits e) / Config.groupBits = 3 * e.length / 4 ∧ csBits e = e.length / 4 := by
  simp only [validLengths, List.mem_cons, List.not_mem_nil, or_false] at h
  simp only [entBits, csBits, Config.entStep, Config.groupBits]
  omega

/-- When `GENMNEM` yields words, and which (40_mnemonic_encoder.md R141). -/
theorem genmnem_cases (cfg : Config) (ep : Bool) (c : CoreState) :
    (ep = true ∧ c.elen.toNat ∈ validLengths ∧
      genmnem cfg ep c =
        .okMnemonic ((mapIndices cfg (bitString cfg (c.bytes .ebuf c.elen.toNat))).map Prod.fst)) ∨
    ((ep = false ∨ c.elen.toNat ∉ validLengths) ∧ genmnem cfg ep c = .err .invalidEntropy) := by
  cases ep with
  | false => exact .inr ⟨.inl rfl, rfl⟩
  | true =>
    have hlen : ∀ e, entropyOperand cfg true c = some e → e.length = c.elen.toNat := fun e he =>
      entropyOperand_length he
    unfold genmnem generateMnemonics
    rcases validate_cases (entropyOperand cfg true c) with ⟨e, he, hv, hok⟩ | ⟨hv, hbad⟩
    · left
      have hn := hlen e he
      rw [hn] at hv
      refine ⟨rfl, hv, ?_⟩
      have : e = c.bytes .ebuf c.elen.toNat := by
        unfold entropyOperand at he
        have h32 : c.elen.toNat ≤ Config.entropyMaxBytes := by
          simp only [validLengths, List.mem_cons, List.not_mem_nil, or_false] at hv
          simp only [Config.entropyMaxBytes]; omega
        simp only [Bool.true_eq_false, if_false, if_pos h32] at he
        exact (Option.some.inj he).symm
      rw [hok, this]
    · right
      refine ⟨.inr ?_, by rw [hbad]⟩
      cases he : entropyOperand cfg true c with
      | none => unfold entropyOperand at he; simp only [Bool.true_eq_false, if_false] at he; split at he <;> simp at he
      | some e => have := hv e he; rwa [hlen e he] at this

/-- The number of words of a `GENMNEM`: three for each 4 bytes of entropy, at most 24. -/
theorem genmnem_length {cfg : Config} {ep : Bool} {c : CoreState} {l : List WordIndex}
    (h : genmnem cfg ep c = .okMnemonic l) : l.length = 3 * c.elen.toNat / 4 ∧ l.length ≤ 24 := by
  rcases genmnem_cases cfg ep c with ⟨-, hv, hg⟩ | ⟨-, hg⟩
  · rw [hg] at h
    have hl : l = _ := (OpResult.okMnemonic.inj h).symm
    have hb : (c.bytes .ebuf c.elen.toNat).length ∈ validLengths := by rwa [CoreState.bytes_length]
    have : l.length = 3 * c.elen.toNat / 4 := by
      rw [hl, List.length_map, mapIndices_length, bitString_length, (groups_of_valid hb).1, CoreState.bytes_length]
    refine ⟨this, ?_⟩
    simp only [validLengths, List.mem_cons, List.not_mem_nil, or_false] at hv
    omega
  · rw [hg] at h; cases h

/-- When `GENSEED` yields a seed and when an error (41_seed_deriver.md R166). -/
theorem genseed_cases (cfg : Config) (mp pp : Bool) (c : CoreState) :
    (overCapacity mp pp c = true ∧ genseed cfg mp pp c = .err .commandError) ∨
    (overCapacity mp pp c = false ∧ (mp = false ∨ cfg.isBlank (c.bytes .mbuf c.mlen.toNat) = true) ∧
      genseed cfg mp pp c = .err .emptyMnemonic) ∨
    (overCapacity mp pp c = false ∧ mp = true ∧ cfg.isBlank (c.bytes .mbuf c.mlen.toNat) = false ∧
      genseed cfg mp pp c = .okSeed (deriveSeed cfg (c.bytes .mbuf c.mlen.toNat) (salt (passphraseOperand pp c)))) := by
  unfold genseed
  cases ho : overCapacity mp pp c with
  | true => exact .inl ⟨rfl, rfl⟩
  | false =>
    cases mp with
    | false => exact .inr (.inl ⟨rfl, .inl rfl, rfl⟩)
    | true =>
      cases hb : cfg.isBlank (c.bytes .mbuf c.mlen.toNat) with
      | true =>
        refine .inr (.inl ⟨rfl, .inr rfl, ?_⟩)
        simp [generateSeed, checkMnemonic, mnemonicOperand, hb]
      | false =>
        refine .inr (.inr ⟨rfl, rfl, rfl, ?_⟩)
        simp [generateSeed, checkMnemonic, mnemonicOperand, hb]

/-- What any command word can yield (30_encoding.md R101): words only from `GENMNEM`, and at most 24 of them. -/
theorem execute_length {cfg : Config} {w : Word} {c : CoreState} {l : List WordIndex}
    (h : execute cfg w c = .okMnemonic l) : l.length = 3 * c.elen.toNat / 4 ∧ l.length ≤ 24 := by
  unfold execute at h
  split at h
  · cases h
  · exact genmnem_length h
  · rename_i mp pp _
    rcases genseed_cases cfg mp pp c with ⟨-, hg⟩ | ⟨-, -, hg⟩ | ⟨-, -, -, hg⟩ <;> rw [hg] at h <;> cases h

/-- The only errors an operation reports (60_exceptions.md R210, R212): never code 3. -/
theorem execute_error {cfg : Config} {w : Word} {c : CoreState} {e : CoreError}
    (h : execute cfg w c = .err e) : e ≠ .indexOutOfRange := by
  unfold execute at h
  split at h
  · cases h; simp
  · rename_i ep _
    rcases genmnem_cases cfg ep c with ⟨-, -, hg⟩ | ⟨-, hg⟩ <;> rw [hg] at h <;> cases h <;> simp
  · rename_i mp pp _
    rcases genseed_cases cfg mp pp c with ⟨-, hg⟩ | ⟨-, -, hg⟩ | ⟨-, -, -, hg⟩ <;> rw [hg] at h <;> cases h <;> simp

end Sys2Proof.Machine
end

