-- ==== Sys2Proof/Laws/HostScript.lean ====
section
/-! SUPPORT. The host's notation (30_encoding.md R103, R104): which words the macros write, and what a run of the host's
statements is made of. -/

namespace Sys2Proof.Machine

/-- The four lanes of a packed word are its four bytes (10_state.md R21). -/
theorem wordByte_packWord (b0 b1 b2 b3 : Byte) {t : Nat} (ht : t < 4) :
    wordByte (packWord b0 b1 b2 b3) t = [b0, b1, b2, b3].getD t 0 := by
  obtain rfl | rfl | rfl | rfl : t = 0 ∨ t = 1 ∨ t = 2 ∨ t = 3 := by omega
  all_goals
    apply BitVec.eq_of_getLsbD_eq
    intro i hi
    simp only [wordByte, packWord, BitVec.getLsbD_extractLsb', BitVec.getLsbD_append, hi, decide_true, Bool.true_and]
    (repeat' split) <;> first | (simp; done) | omega | (simp only [List.getD_cons_zero, List.getD_cons_succ]; congr 1; omega)

/-- Lane `t` of `pack(e, j)` is byte `4j + t` of the string, zero where it has none (30_encoding.md R104). -/
theorem HostScript.wordByte_pack (e : ByteString) (j : Nat) {t : Nat} (ht : t < 4) :
    wordByte (HostScript.pack e j) t = e.getD (4 * j + t) 0 := by
  rw [HostScript.pack, wordByte_packWord _ _ _ _ ht]
  obtain rfl | rfl | rfl | rfl : t = 0 ∨ t = 1 ∨ t = 2 ∨ t = 3 := by omega
  all_goals rfl

/-- The words written for a string are the first `ceil(len / 4)` of the buffer, in order (30_encoding.md R104). -/
theorem HostScript.wrBytes_eq_take (cfg : Config) (n : Nat) (target : Fin n → Target) (e : ByteString) :
    HostScript.wrBytes cfg n target e =
      ((List.finRange n).take ((e.length + 3) / 4)).map fun j => HostScript.wr cfg (target j) (HostScript.pack e j.val) := by
  have key : ∀ (l : List (Fin n)) (i : Nat), (∀ k (h : k < l.length), (l[k]).val = i + k) →
      l.filter (fun j => 4 * j.val < e.length) = l.take ((e.length + 3) / 4 - i) := by
    intro l
    induction l with
    | nil => simp
    | cons x l ih =>
      intro i h
      have hx : x.val = i := by have := h 0 (by simp); simpa using this
      have hl := ih (i + 1) fun k hk => by
        have := h (k + 1) (by simpa using hk)
        rw [List.getElem_cons_succ] at this; omega
      by_cases hc : 4 * i < e.length
      · rw [List.filter_cons_of_pos (by simp [hx, hc]), hl,
          show (e.length + 3) / 4 - i = ((e.length + 3) / 4 - (i + 1)) + 1 by omega, List.take_succ_cons]
      · rw [List.filter_cons_of_neg (by simp [hx, hc]), hl, show (e.length + 3) / 4 - i = 0 by omega,
          show (e.length + 3) / 4 - (i + 1) = 0 by omega, List.take_zero, List.take_zero]
  rw [HostScript.wrBytes, key _ 0 fun k h => by simp, Nat.sub_zero]

end Sys2Proof.Machine
end

