-- ==== Sys2Proof/Laws/HostProgram.lean ====
section
/-! SUPPORT. What a run of a host program is made of (30_encoding.md R103, R104): one lemma for each kind of statement, and
for the lists of writes and reads the macros make. -/

namespace Sys2Proof.Machine

variable {α : Type} {cfg : Config}

@[simp] theorem State.withStatement_core (st : HostStmt) (s : State) : (s.withStatement st).core = s.core := rfl
@[simp] theorem State.withStatement_script (st : HostStmt) (s : State) : (s.withStatement st).script = [st] := rfl
@[simp] theorem State.withStatement_received (st : HostStmt) (s : State) : (s.withStatement st).received = s.received := rfl
@[simp] theorem State.withStatement_turns (st : HostStmt) (s : State) : (s.withStatement st).turns = s.turns := rfl

@[simp] theorem HostProgram.run_done (k : Nat) (a : α) (s : State) :
    HostProgram.run cfg k (.done a) s = .returned a s := by cases k <;> rfl
@[simp] theorem HostProgram.run_fail (k : Nat) (e : BitVec 4) (s : State) :
    HostProgram.run cfg k (.fail e : HostProgram α) s = .failed e s := by cases k <;> rfl

/-- With nothing in flight a step is the host's statement. -/
theorem stepWith_withStatement {s : State} (st : HostStmt) (hb : s.core.busy = false) :
    stepWith cfg (s.withStatement st) = hostStep cfg st (s.withStatement st) := by
  have hm : (s.withStatement st).nextMove = .host st := State.nextMove_of_not_busy (rest := []) hb rfl
  rw [stepWith, stepOf, hm, State.takeTurn_of_not_busy (s := s.withStatement st) hb]

/-- A write with nothing in flight takes one step. -/
theorem HostProgram.run_write {s : State} (hb : s.core.busy = false) (t : Target) (v : Word) (rest : HostProgram α) (k : Nat) :
    HostProgram.run cfg (k + 1) (.perform (HostScript.wr cfg t v) rest) s =
      HostProgram.run cfg k rest ((s.withStatement (HostScript.wr cfg t v)).hostWrites t v) := by
  rw [HostProgram.run, stepWith_withStatement _ hb, HostScript.wr, hostStep, admittedWord_offset]; rfl

/-- A read with nothing in flight takes one step and gives the word. -/
theorem HostProgram.run_read {s : State} (hb : s.core.busy = false) (t : Target) (rest : Word → HostProgram α) (k : Nat) :
    HostProgram.run cfg (k + 1) (.receive (HostScript.rd cfg t) rest) s =
      HostProgram.run cfg k (rest (s.core.readWord t))
        ((s.withStatement (HostScript.rd cfg t)).hostReceives (s.core.readWord t)) := by
  rw [HostProgram.run, stepWith_withStatement _ hb, HostScript.rd, hostStep, admittedWord_offset]
  simp [State.statementDone, State.lastReceived, State.hostReceives]

/-- A poll with nothing in flight takes one step and gives `STATUS`. -/
theorem HostProgram.run_poll {s : State} (hb : s.core.busy = false) (rest : Word → HostProgram α) (k : Nat) :
    HostProgram.run cfg (k + 1) (.receive .poll rest) s =
      HostProgram.run cfg k (rest s.core.status) ((s.withStatement .poll).hostReceives s.core.status) := by
  rw [HostProgram.run, stepWith_withStatement _ hb, hostStep, if_neg (by simp [hb])]
  simp [State.statementDone, State.lastReceived, State.hostReceives]

/-- A poll with an operation in flight waits for the completion, whatever the choices are, and gives `STATUS` after it. -/
theorem HostProgram.run_poll_busy {s : State} (hb : s.core.busy = true) (rest : Word → HostProgram α) :
    ∃ j t, t.core = s.core.complete cfg (execute cfg s.core.cmd s.core) ∧
      ∀ k, HostProgram.run cfg (j + k) (.receive .poll rest) s = HostProgram.run cfg k (rest t.core.status) t := by
  have core : ∀ s : State, s.core.busy = true → (s.withStatement .poll).nextMove = .core →
      ∃ j t, t.core = s.core.complete cfg (execute cfg s.core.cmd s.core) ∧
        ∀ k, HostProgram.run cfg (j + k) (.receive .poll rest) s = HostProgram.run cfg k (rest t.core.status) t := by
    intro s hb hm
    have hs : stepWith cfg (s.withStatement .poll) = .next ((s.withStatement .poll).takeTurn.complete cfg
        (execute cfg s.core.cmd s.core)) := by
      rw [stepWith, stepOf, hm]; simp only [coreStep_execWith, State.takeTurn_core, State.withStatement_core]
    have hb' := (CoreState.complete_fixed cfg (execute cfg s.core.cmd s.core) s.core).1
    refine ⟨2, (((s.withStatement .poll).takeTurn.complete cfg (execute cfg s.core.cmd s.core)).withStatement
      .poll).hostReceives (s.core.complete cfg (execute cfg s.core.cmd s.core)).status, ?_, fun k => ?_⟩
    · simp [State.complete]
    · rw [show 2 + k = (k + 1) + 1 by omega, HostProgram.run, hs]
      simp only
      rw [if_neg (by simp [State.statementDone, State.complete]), HostProgram.run_poll (by simpa [State.complete] using hb')]
      simp [State.complete]
  obtain ⟨tn, htn⟩ : ∃ l, s.turns = l := ⟨_, rfl⟩
  induction tn generalizing s with
  | nil => exact core s hb (by unfold State.nextMove; simp [hb, htn])
  | cons a tn ih =>
    cases a with
    | core => exact core s hb (by unfold State.nextMove; simp [hb, htn])
    | host =>
      have hm : (s.withStatement .poll).nextMove = .host .poll := by unfold State.nextMove; simp [hb, htn]
      have ht : (s.withStatement .poll).takeTurn.turns = tn := by
        rw [State.takeTurn_turns]; simp [State.contended, hb, htn]
      have hs : stepWith cfg (s.withStatement .poll) = .next (s.withStatement .poll).takeTurn := by
        rw [stepWith, stepOf, hm]; simp only [hostStep, State.takeTurn_core, State.withStatement_core, if_pos hb]
      obtain ⟨j, t, hc, hr⟩ := ih (s := (s.withStatement .poll).takeTurn) (by simpa using hb) ht
      refine ⟨j + 1, t, by simpa using hc, fun k => ?_⟩
      rw [show j + 1 + k = (j + k) + 1 by omega, HostProgram.run, hs]
      simp only
      rw [if_neg (by simp [State.statementDone]), hr k]

/-- A write to a word other than `CMD` changes no flag and no `CMD`. -/
theorem CoreState.writeWord_flags {t : Target} (h : t ≠ .cmd) (v : Word) (c : CoreState) :
    (c.writeWord t v).busy = c.busy ∧ (c.writeWord t v).fatal = c.fatal := by
  rcases CoreState.writeWord_cases t v c with h' | ⟨rfl, -⟩ | ⟨-, -, hw, hf, -⟩
  · rw [h']; exact ⟨rfl, rfl⟩
  · exact absurd rfl h
  · rw [hw, hf]; exact ⟨rfl, rfl⟩

/-- A list of writes of operands, with nothing in flight: one step each, the CORE written in order. -/
theorem HostProgram.run_writes (ws : List (Target × Word)) (hw : ∀ p ∈ ws, p.1 ≠ .cmd) {s : State}
    (hb : s.core.busy = false) (rest : HostProgram α) :
    ∃ t, t.core = ws.foldl (fun c p => c.writeWord p.1 p.2) s.core ∧ t.core.busy = false ∧
      ∀ k, HostProgram.run cfg (ws.length + k)
        (.performAll (ws.map fun p => HostScript.wr cfg p.1 p.2) rest) s = HostProgram.run cfg k rest t := by
  induction ws generalizing s with
  | nil => exact ⟨s, rfl, hb, fun k => by simp [HostProgram.performAll]⟩
  | cons p ws ih =>
    obtain ⟨hp, hw⟩ := List.forall_mem_cons.1 hw
    obtain ⟨t, h1, h2, h3⟩ := ih hw (s := (s.withStatement (HostScript.wr cfg p.1 p.2)).hostWrites p.1 p.2)
      ((CoreState.writeWord_flags hp p.2 s.core).1.trans hb)
    refine ⟨t, h1, h2, fun k => ?_⟩
    rw [← h3 k, List.length_cons, show ws.length + 1 + k = (ws.length + k) + 1 by omega]
    exact HostProgram.run_write hb p.1 p.2 _ _

/-- A list of reads, with nothing in flight: one step each, the CORE as it was. -/
theorem HostProgram.run_reads (ts : List Target) {s : State} (hb : s.core.busy = false)
    (rest : List Word → HostProgram α) :
    ∃ t, t.core = s.core ∧ ∀ k, HostProgram.run cfg (ts.length + k)
      (.receiveAll (ts.map (HostScript.rd cfg)) rest) s = HostProgram.run cfg k (rest (ts.map s.core.readWord)) t := by
  induction ts generalizing s rest with
  | nil => exact ⟨s, rfl, fun k => by simp [HostProgram.receiveAll]⟩
  | cons x ts ih =>
    obtain ⟨t, h1, h2⟩ := ih (s := (s.withStatement (HostScript.rd cfg x)).hostReceives (s.core.readWord x)) hb
      (fun vs => rest (s.core.readWord x :: vs))
    refine ⟨t, h1, fun k => ?_⟩
    rw [List.length_cons, show ts.length + 1 + k = (ts.length + k) + 1 by omega]
    exact (HostProgram.run_read hb x _ _).trans (h2 k)

/-- A write to an operand word of a buffer stores its four bytes. -/
theorem CoreState.writeWord_bytes {t : Target} (ho : t.isOperand = true) (h : 0x040 ≤ t.offset) (v : Word) {c : CoreState}
    (hb : c.busy = false) : c.writeWord t v = { c with mem := c.mem.writeWord t.offset v } := by
  cases t with
  | cmd | status | wcount | seed _ | widx _ | wtext _ _ => cases ho
  | elen | mlen | plen => exact absurd h (by decide)
  | ebuf j | mbuf j | pbuf j => rw [CoreState.writeWord, CoreState.writeOperand, hb]; rfl

/-- The first `m` packed words of a byte string written to a buffer: its bytes in order, and nothing else. -/
theorem CoreState.foldl_pack (b : Buffer) {n : Nat} {target : Fin n → Target} (e : ByteString)
    (ht : ∀ j, (target j).isOperand = true ∧ (target j).offset = b.offset + 4 * j.val) {c : CoreState}
    (hb : c.busy = false) (hw : c.mem.wf = true) {m : Nat} (hm : m ≤ n) :
    let d := (((List.finRange n).take m).map fun j => (target j, HostScript.pack e j.val)).foldl
      (fun c p => c.writeWord p.1 p.2) c
    d = { c with mem := d.mem } ∧ d.mem.wf = true ∧ (∀ k, k < 4 * m → d.byte b k = e.getD k 0) ∧
      ∀ a, a < b.offset ∨ b.offset + 4 * m ≤ a → d.mem.read a = c.mem.read a := by
  induction m with
  | zero => exact ⟨rfl, hw, fun k hk => absurd hk (by omega), fun _ _ => rfl⟩
  | succ m ih =>
    obtain ⟨h1, h2, h3, h4⟩ := ih (by omega)
    have hm' : m < n := hm
    have hlast : (List.finRange n)[m]?.toList = [⟨m, hm'⟩] := by
      rw [List.getElem?_eq_getElem (by simpa using hm'), List.getElem_finRange]; rfl
    rw [List.take_add_one, hlast, List.map_append, List.foldl_append, List.map_cons, List.map_nil, List.foldl_cons,
      List.foldl_nil]
    generalize (((List.finRange n).take m).map fun j => (target j, HostScript.pack e j.val)).foldl
      (fun c p => c.writeWord p.1 p.2) c = d at h1 h2 h3 h4
    obtain ⟨ho, hoff⟩ := ht ⟨m, hm'⟩
    have hbuf : 0x040 ≤ b.offset := by cases b <;> simp only [Buffer.offset] <;> omega
    have hd : d.writeWord (target ⟨m, hm'⟩) (HostScript.pack e m) =
        { d with mem := d.mem.writeWord (b.offset + 4 * m) (HostScript.pack e m) } := by
      rw [CoreState.writeWord_bytes ho (by rw [hoff]; omega) _ (by rw [h1]; exact hb), hoff]
    rw [hd]
    refine ⟨by rw [h1], Memory.wf_writeBytes _ _ h2, fun k hk => ?_, fun a ha => ?_⟩
    · by_cases hkm : k < 4 * m
      · exact (Memory.read_writeWord_other _ (Or.inl (by omega))).trans (h3 k hkm)
      · obtain ⟨t, rfl⟩ : ∃ t, k = 4 * m + t := ⟨k - 4 * m, by omega⟩
        show (d.mem.writeWord (b.offset + 4 * m) _).read (b.offset + (4 * m + t)) = _
        rw [← Nat.add_assoc, Memory.read_writeWord_same _ h2 (by omega), HostScript.wordByte_pack _ _ (by omega)]
    · exact (Memory.read_writeWord_other _ (by omega)).trans (h4 a (by omega))

/-- The four bytes of a buffer word, lane 0 first. -/
theorem wordBytes_word (c : CoreState) (b : Buffer) (j : Nat) :
    HostScript.wordBytes (c.word b j) = [c.byte b (4 * j), c.byte b (4 * j + 1), c.byte b (4 * j + 2), c.byte b (4 * j + 3)] := by
  unfold HostScript.wordBytes CoreState.word
  rw [wordByte_packWord _ _ _ _ (by omega), wordByte_packWord _ _ _ _ (by omega),
    wordByte_packWord _ _ _ _ (by omega), wordByte_packWord _ _ _ _ (by omega)]
  rfl

/-- The words a host makes of its reads, from the values of the reads of each. -/
theorem HostScript.wordsOfReads_flatMap {β : Type} (l : List β) (w a b c d : β → Word) :
    HostScript.wordsOfReads (l.flatMap fun i => [w i, a i, b i, c i, d i]) =
      l.map fun i => HostScript.wordOfReads (w i) (a i) (b i) (c i) (d i) := by
  induction l with
  | nil => rfl
  | cons x l ih =>
    simp only [List.flatMap_cons, List.cons_append, List.nil_append, HostScript.wordsOfReads, ih, List.map_cons]

/-! ### A command and its poll -/

/-- `ERR` as a host reads it (10_state.md R25). -/
theorem CoreState.status_err (c : CoreState) : c.status.getLsbD 2 = c.err := by
  unfold CoreState.status
  generalize ecodeBits c.ecode = e
  simp only [flag, BitVec.getLsbD_append, BitVec.getLsbD_ofBool]
  simp

/-- `ECODE` as a host reads it (10_state.md R25). -/
theorem CoreState.status_ecode (c : CoreState) : c.status.extractLsb' 4 4 = ecodeBits c.ecode := by
  unfold CoreState.status
  generalize ecodeBits c.ecode = e
  apply BitVec.eq_of_getLsbD_eq
  intro i hi
  simp only [flag, BitVec.getLsbD_extractLsb', BitVec.getLsbD_append, BitVec.getLsbD_ofBool, hi]
  simp [show ¬(4 + i < 1) by omega, hi]

/-- `IDX` of a `WIDX` register as a host reads it (10_state.md R33). -/
theorem WordReg.word_idx (r : WordReg) : r.word.extractLsb' 0 11 = r.idx := by
  obtain ⟨x, y⟩ := r
  apply BitVec.eq_of_getLsbD_eq
  intro j hj
  simp only [WordReg.word, BitVec.getLsbD_extractLsb', BitVec.getLsbD_append, Nat.zero_add, hj, decide_true,
    Bool.true_and, if_true]

/-- `WLEN` of a `WIDX` register as a host reads it (10_state.md R33). -/
theorem WordReg.word_wlen (r : WordReg) : r.word.extractLsb' 16 5 = r.wlen := by
  obtain ⟨x, y⟩ := r
  apply BitVec.eq_of_getLsbD_eq
  intro j hj
  simp only [WordReg.word, BitVec.getLsbD_extractLsb', BitVec.getLsbD_append, hj, decide_true, Bool.true_and,
    show ¬(16 + j < 11) by omega, show ¬(16 + j - 11 < 5) by omega, show 16 + j - 11 - 5 = j by omega, if_false,
    if_true]

/-- A command written to a CORE that accepts it, and the poll after it: the completion of the issued command, and the test
of `ERR` on it, whatever the choices of who moves are (30_encoding.md R100, R101, R104). -/
theorem HostProgram.run_command {s : State} (hb : s.core.busy = false) (hf : s.core.fatal = false) (w : Word)
    (rest : HostProgram α) :
    ∃ j t, t.core = (s.core.issue w).complete cfg (execute cfg w (s.core.issue w)) ∧
      ∀ k, HostProgram.run cfg (j + k) (.perform (HostScript.wr cfg .cmd w) (.pollThen rest)) s =
        HostProgram.run cfg k (if t.core.err then .fail (ecodeBits t.core.ecode) else rest) t := by
  have hc : ((s.withStatement (HostScript.wr cfg .cmd w)).hostWrites .cmd w).core = s.core.issue w := by
    simp [CoreState.writeWord, CoreState.accepts, hb, hf]
  obtain ⟨j, t, h1, h2⟩ := HostProgram.run_poll_busy (cfg := cfg)
    (s := (s.withStatement (HostScript.wr cfg .cmd w)).hostWrites .cmd w) (by rw [hc]; rfl)
    (fun s => if s.getLsbD 2 then HostProgram.fail (s.extractLsb' 4 4) else rest)
  refine ⟨j + 1, t, by rw [h1, hc]; rfl, fun k => ?_⟩
  rw [show j + 1 + k = (j + k) + 1 by omega, HostProgram.run_write hb]
  refine (h2 k).trans ?_
  simp only [CoreState.status_err, CoreState.status_ecode]

theorem HostProgram.performAll_append (a b : List HostStmt) (rest : HostProgram α) :
    HostProgram.performAll (a ++ b) rest = .performAll a (.performAll b rest) := by
  simp [HostProgram.performAll]

/-- The reads of the seed give the bytes of `SEED`. -/
theorem HostProgram.run_seedCollect {s : State} (hb : s.core.busy = false) :
    ∃ t, ∀ k, HostProgram.run cfg (16 + k)
      (.receiveAll (HostScript.seedCollect cfg) fun vs => .done (vs.flatMap HostScript.wordBytes)) s =
      .returned (s.core.bytes .seed 64) t := by
  obtain ⟨t, -, h⟩ := HostProgram.run_reads (cfg := cfg) ((List.finRange 16).map Target.seed) hb
    (fun vs => .done (vs.flatMap HostScript.wordBytes))
  refine ⟨t, fun k => ?_⟩
  have := h k
  rw [List.length_map, List.length_finRange, List.map_map] at this
  refine this.trans ?_
  rw [HostProgram.run_done]
  congr 1
  rw [List.map_map, List.flatMap_map]
  have : ∀ j : Fin 16, HostScript.wordBytes ((s.core.readWord ∘ Target.seed) j) = _ := fun j =>
    wordBytes_word s.core .seed j.val
  simp only [this]
  rfl

/-- The reads of the words give, for each position below `WCOUNT`, the index and as much of the text as `WLEN` says. -/
theorem HostProgram.run_mnemonicCollect {s : State} (hb : s.core.busy = false) :
    ∃ j t, t.core = s.core ∧ ∀ k, HostProgram.run cfg (j + k) (.receive (HostScript.rd cfg .wcount) fun n =>
      .receiveAll (HostScript.mnemonicWordReads cfg n.toNat) fun vs => .done (HostScript.wordsOfReads vs)) s =
      .returned (((List.finRange 24).filter fun i => i.val < s.core.wcount.toNat).map fun i =>
        (s.core.widx[i].idx, (s.core.bytes (.wtext i) 16).take s.core.widx[i].wlen.toNat)) t := by
  have hn : (s.core.readWord .wcount).toNat = s.core.wcount.toNat := by simp [CoreState.readWord]; omega
  generalize hl : (List.finRange 24).filter (fun i => i.val < s.core.wcount.toNat) = l
  have hre : HostScript.mnemonicWordReads cfg (s.core.readWord .wcount).toNat =
      (l.flatMap fun i => [Target.widx i, .wtext i 0, .wtext i 1, .wtext i 2, .wtext i 3]).map (HostScript.rd cfg) := by
    unfold HostScript.mnemonicWordReads; rw [hn, hl, List.map_flatMap]; rfl
  obtain ⟨t, h1, h2⟩ := HostProgram.run_reads (cfg := cfg)
    (l.flatMap fun i => [Target.widx i, .wtext i 0, .wtext i 1, .wtext i 2, .wtext i 3])
    (s := (s.withStatement (HostScript.rd cfg .wcount)).hostReceives (s.core.readWord .wcount)) hb
    (fun vs => HostProgram.done (HostScript.wordsOfReads vs))
  refine ⟨(l.flatMap fun i => [Target.widx i, .wtext i 0, .wtext i 1, .wtext i 2, .wtext i 3]).length + 1, t, h1,
    fun k => ?_⟩
  rw [show ∀ a : Nat, a + 1 + k = (a + k) + 1 from fun a => by omega, HostProgram.run_read hb, hre, h2 k,
    HostProgram.run_done, List.map_flatMap]
  congr 1
  refine (HostScript.wordsOfReads_flatMap l (fun i => s.core.readWord (.widx i)) (fun i => s.core.readWord (.wtext i 0))
    (fun i => s.core.readWord (.wtext i 1)) (fun i => s.core.readWord (.wtext i 2))
    (fun i => s.core.readWord (.wtext i 3))).trans (List.map_congr_left fun i _ => ?_)
  have hx : (s.core.readWord (.widx i)).extractLsb' 0 11 = s.core.widx[i].idx := WordReg.word_idx _
  have hy : (s.core.readWord (.widx i)).extractLsb' 16 5 = s.core.widx[i].wlen := WordReg.word_wlen _
  unfold HostScript.wordOfReads
  rw [hx, hy]
  refine Prod.ext rfl (congrArg (List.take _) ?_)
  simp only [CoreState.readWord, wordBytes_word]
  rfl

end Sys2Proof.Machine
end

