-- ==== Sys2Proof/Laws/PerInstr.lean ====
section
/-! SUPPORT. The per-instruction family TableRow: the word of a command selects its own row of spec/opcode_table.json
(30_encoding.md R91: `(w & mask) = match`), and sets no bit the row fixes at zero. -/

namespace Sys2Proof.Laws.TableRow

/-- The row of the table that a command's word selects. -/
def Statement (i : Instr) : Prop :=
  i.wellFormed = true ∧ encode i &&& rowMask i = rowMatch i

theorem genmnem (ep : Bool) : Statement (.genmnem ep) := by cases ep <;> exact ⟨rfl, by decide⟩

theorem genseed (mp pp : Bool) : Statement (.genseed mp pp) := by
  cases mp <;> cases pp <;> exact ⟨rfl, by decide⟩

end Sys2Proof.Laws.TableRow
end

