-- ==== Sys2Proof/Laws/Text.lean ====
section
/-! SUPPORT. The characters of a text: cutting it into characters loses nothing, and every text made of characters is cut
into these (premises of 41_seed_deriver.md R162 and 42_external_primitives.md R189; log 12). -/

namespace Sys2Proof.Machine

theorem utf8Char_one {b0 : Byte} : utf8Char [b0] = true ↔ b0.toNat < 0x80 := by
  simp [utf8Char, BitVec.lt_def]

/-- A character of two bytes begins with a byte from `0xC2` to `0xDF`. -/
theorem utf8Char_two {b0 b1 : Byte} (h : utf8Char [b0, b1] = true) : 0xC2 ≤ b0.toNat ∧ b0.toNat ≤ 0xDF := by
  simp only [utf8Char, byteIn, Bool.and_eq_true, decide_eq_true_eq, BitVec.le_def] at h
  exact h.1

/-- A character of three bytes begins with a byte from `0xE0` to `0xEF`. -/
theorem utf8Char_three {b0 b1 b2 : Byte} (h : utf8Char [b0, b1, b2] = true) : 0xE0 ≤ b0.toNat ∧ b0.toNat ≤ 0xEF := by
  simp only [utf8Char, byteIn, Bool.and_eq_true, Bool.or_eq_true, beq_iff_eq, decide_eq_true_eq, BitVec.le_def] at h
  rcases h.2 with ((⟨rfl, -⟩ | ⟨⟨h, h'⟩, -⟩) | ⟨rfl, -⟩) | ⟨⟨h, h'⟩, -⟩ <;> simp at * <;> omega

/-- A character of four bytes begins with a byte from `0xF0` to `0xF4`. -/
theorem utf8Char_four {b0 b1 b2 b3 : Byte} (h : utf8Char [b0, b1, b2, b3] = true) : 0xF0 ≤ b0.toNat := by
  simp only [utf8Char, byteIn, Bool.and_eq_true, Bool.or_eq_true, beq_iff_eq, decide_eq_true_eq, BitVec.le_def] at h
  rcases h.2 with (⟨rfl, -⟩ | ⟨⟨h, -⟩, -⟩) | ⟨rfl, -⟩ <;> simp at * <;> omega

/-- A character at the head of a text is the first of its characters. -/
theorem utf8Chars_append {c : ByteString} (t : ByteString) (h : utf8Char c = true) :
    utf8Chars (c ++ t) = (utf8Chars t).map (c :: ·) := by
  match c, h with
  | [b0], h =>
    show utf8Chars (b0 :: t) = _
    rw [utf8Chars.eq_def]; simp only [h, if_true]
  | [b0, b1], h =>
    have l := utf8Char_two h
    have h1 : ¬utf8Char [b0] = true := by rw [utf8Char_one]; omega
    show utf8Chars (b0 :: b1 :: t) = _
    rw [utf8Chars.eq_def]; simp only [h, h1, if_true, if_false, Bool.false_eq_true]
  | [b0, b1, b2], h =>
    have l := utf8Char_three h
    have h1 : ¬utf8Char [b0] = true := by rw [utf8Char_one]; omega
    have h2 : ¬utf8Char [b0, b1] = true := fun h' => by have := utf8Char_two h'; omega
    show utf8Chars (b0 :: b1 :: b2 :: t) = _
    rw [utf8Chars.eq_def]; simp only [h, h1, h2, if_true, if_false, Bool.false_eq_true]
  | [b0, b1, b2, b3], h =>
    have l := utf8Char_four h
    have h1 : ¬utf8Char [b0] = true := by rw [utf8Char_one]; omega
    have h2 : ¬utf8Char [b0, b1] = true := fun h' => by have := utf8Char_two h'; omega
    have h3 : ¬utf8Char [b0, b1, b2] = true := fun h' => by have := utf8Char_three h'; omega
    show utf8Chars (b0 :: b1 :: b2 :: b3 :: t) = _
    rw [utf8Chars.eq_def]; simp only [h, h1, h2, h3, if_true, if_false, Bool.false_eq_true]

/-- A text made of characters is cut into these. -/
theorem utf8Chars_flatten {chars : List ByteString} (h : ∀ c ∈ chars, utf8Char c = true) :
    utf8Chars chars.flatten = some chars := by
  induction chars with
  | nil => rfl
  | cons c chars ih =>
    obtain ⟨hc, hr⟩ := List.forall_mem_cons.1 h
    rw [List.flatten_cons, utf8Chars_append _ hc, ih hr, Option.map_some]

/-- The characters of a text are characters, and they make up the text. -/
theorem utf8Chars_sound {m : ByteString} {chars : List ByteString} (h : utf8Chars m = some chars) :
    chars.flatten = m ∧ ∀ c ∈ chars, utf8Char c = true := by
  have step : ∀ {c t : ByteString}, utf8Char c = true →
      (∀ {chars}, utf8Chars t = some chars → chars.flatten = t ∧ ∀ c ∈ chars, utf8Char c = true) →
      ∀ {chars}, (utf8Chars t).map (c :: ·) = some chars →
      chars.flatten = c ++ t ∧ ∀ c ∈ chars, utf8Char c = true := by
    intro c t hc ih chars h
    obtain ⟨rest, hr, rfl⟩ := Option.map_eq_some_iff.1 h
    obtain ⟨hf, ha⟩ := ih hr
    exact ⟨by rw [List.flatten_cons, hf], List.forall_mem_cons.2 ⟨hc, ha⟩⟩
  induction m using utf8Chars.induct generalizing chars with
  | case1 => cases h; exact ⟨rfl, by simp⟩
  | case2 b0 t h1 ih => exact step h1 ih (utf8Chars_append t h1 ▸ h)
  | case4 b0 _ b1 t h2 ih => exact step h2 ih (utf8Chars_append t h2 ▸ h)
  | case6 b0 _ b1 _ b2 t h3 ih => exact step h3 ih (utf8Chars_append t h3 ▸ h)
  | case8 b0 _ b1 _ b2 _ b3 t h4 ih => exact step h4 ih (utf8Chars_append t h4 ▸ h)
  | case3 | case5 | case7 | case9 =>
    rw [utf8Chars.eq_def] at h
    simp only [*, if_false, Bool.false_eq_true] at h
    cases h

/-- Of a character, the default set may be asked byte by byte: no byte of a longer character is one of the six. -/
theorem isAsciiSpaceChar_of_utf8Char {c : ByteString} (h : utf8Char c = true) :
    isAsciiSpaceChar c = c.all isAsciiSpace := by
  have first : ∀ b : Byte, 0x80 ≤ b.toNat → isAsciiSpace b = false := by
    intro b hb
    rw [← Bool.not_eq_true]
    intro hs
    simp only [isAsciiSpace, Bool.or_eq_true, beq_iff_eq] at hs
    rcases hs with ((((rfl | rfl) | rfl) | rfl) | rfl) | rfl <;> simp at hb
  match c, h with
  | [b0], _ => simp [isAsciiSpaceChar]
  | [b0, b1], h => have := utf8Char_two h; simp [isAsciiSpaceChar, first b0 (by omega)]
  | [b0, b1, b2], h => have := utf8Char_three h; simp [isAsciiSpaceChar, first b0 (by omega)]
  | [b0, b1, b2, b3], h => have := utf8Char_four h; simp [isAsciiSpaceChar, first b0 (by omega)]

end Sys2Proof.Machine
end

