-- ==== Sys2Proof/Tests/Slice0.lean ====
section
/-! SUPPORT. The model's own tests, and for every obligation with hypotheses a witness that meets them. Expected values are
those of 95_test_vectors.md, of the check values of 42_external_primitives.md, or words written out by hand from
30_encoding.md R90. -/

namespace Sys2Proof.Tests
open Sys2Proof.Machine

/-! ### A configuration and small states to test with -/

/-- A well-formed wordlist: two bytes that spell the index. -/
def pairWord (i : WordIndex) : ByteString := [i.extractLsb' 8 3 |>.setWidth 8, i.extractLsb' 0 8]

theorem pairWord_wellFormed : WordlistWellFormed pairWord where
  distinct i j hij h := hij <| by
    simp only [pairWord, List.cons.injEq, and_true] at h
    apply BitVec.eq_of_getLsbD_eq
    intro k hk
    by_cases h8 : k < 8
    · have := congrArg (BitVec.getLsbD · k) h.2
      simpa [h8] using this
    · have := congrArg (BitVec.getLsbD · (k - 8)) h.1
      simpa [show k - 8 < 8 by omega, show k - 8 < 3 by omega, show 8 + (k - 8) = k by omega] using this
  sized i := ⟨by simp [pairWord], by simp [pairWord, Config.wslotBytes]⟩

/-- `BASE = 0x1000`, the required digest, and a key derivation that yields one repeated byte. -/
def cfg : Config where
  baseWord := 0x400
  wordlist := pairWord
  sha256 := sha256
  pbkdf2HmacSha512 := fun _ _ _ n => Vector.replicate n 0x5a
  nfkdUtf8 := id
  isBlank := isBlankDefault
  anyByte := fun _ => 0

/-- The same with a malformed wordlist: all entries equal. -/
def fatalCfg : Config := { cfg with wordlist := fun _ => [0x61] }

/-- The CORE after reset with a well-formed wordlist (10_state.md R39). -/
def idle : CoreState where
  cmd := 0
  busy := false
  done := false
  err := false
  fatal := false
  ecode := none
  elen := 0
  mlen := 0
  plen := 0
  wcount := 0
  widx := Vector.replicate 24 WordReg.zero
  mem := []

/-- The same with a command in flight. -/
def busyWith (w : Word) : CoreState := { idle with cmd := w, busy := true }

/-- The CORE that is FATAL. -/
def fatalCore : CoreState := { idle with fatal := true }

/-- A core and a host script. -/
def machine (c : CoreState) (script : List HostStmt) (turns : List Agent) : State :=
  { core := c, script := script, received := [], turns := turns }

theorem idle_resultsZero : ResultsZero idle := ⟨rfl, by decide, fun _ _ => rfl⟩
theorem busy_resultsZero (w : Word) : ResultsZero (busyWith w) := ⟨rfl, idle_resultsZero.widx, fun _ _ => rfl⟩

theorem idle_statusInv : StatusInv idle :=
  ⟨by decide, by decide, by decide, by decide, by decide, fun _ => idle_resultsZero⟩

theorem busy_statusInv (w : Word) : StatusInv (busyWith w) :=
  ⟨by simp [busyWith, idle], by simp [busyWith, idle], by simp [busyWith, idle], by simp [busyWith, idle],
    by simp [busyWith, idle], fun _ => busy_resultsZero w⟩

theorem idle_memoryInv : MemoryInv idle.mem := ⟨rfl, by simp [idle]⟩

theorem idle_resultsInv : ResultsInv cfg idle :=
  ⟨by decide, ⟨fun _ h => absurd h (by simp [idle]), fun _ h => absurd h (by simp [idle])⟩,
    ⟨fun i _ => idle_resultsZero.widx i, fun _ _ _ _ => rfl⟩, fun h => absurd rfl h⟩

/-! ### Decoding (30_encoding.md R90 to R94) -/

theorem test_decode_genmnem :
    decode 0b00000000000000000000000000000001 = some (.genmnem false) ∧
    decode 0b00000000000000000000000100000001 = some (.genmnem true) := by decide

theorem test_decode_genseed :
    decode 0b00000000000000000000000000000010 = some (.genseed false false) ∧
    decode 0b00000000000000000000001000000010 = some (.genseed true false) ∧
    decode 0b00000000000000000000010000000010 = some (.genseed false true) ∧
    decode 0b00000000000000000000011000000010 = some (.genseed true true) := by decide

theorem test_decode_rejects_by_name :
    decodeNamed 0x00000000 = .error .opcode ∧ decodeNamed 0x00000003 = .error .opcode ∧
    decodeNamed 0x00000301 = .error .unusedPresenceBit ∧ decodeNamed 0x00000501 = .error .unusedPresenceBit ∧
    decodeNamed 0x00000102 = .error .unusedPresenceBit ∧ decodeNamed 0x00000801 = .error .reservedBits ∧
    decodeNamed 0x80000001 = .error .reservedBits := by
  refine ⟨?_, ?_, ?_, ?_, ?_, ?_, ?_⟩ <;> rfl

theorem test_decodeTableWord :
    decodeTableWord 32 0x101 = some (.genmnem true) ∧ decodeTableWord 16 0x10002 = some (.genseed false false) ∧
    decodeTableWord 32 0x801 = none := by decide

/-- Words that the opcode table writes out for its two rows. -/
theorem test_encode :
    encode (.genmnem true) = 0x00000101 ∧ encode (.genseed true false) = 0x00000202 ∧
    encode (.genseed false true) = 0x00000402 := by decide

/-! ### Ill-formed terms are refused by the check (20_memory.md R63 to R66, 70_reset_and_hazards.md R252) -/

theorem test_wellFormed_accepts :
    HostStmt.wellFormed cfg (.read 0x1000 4) = true ∧ HostStmt.wellFormed cfg (.write 0x157C 4 0) = true ∧
    HostStmt.wellFormed cfg .poll = true ∧ Instr.wellFormed (.genmnem true) = true := by decide

theorem test_wellFormed_refuses_width :
    HostStmt.wellFormed cfg (.read 0x1040 1) = false ∧ HostStmt.wellFormed cfg (.write 0x1040 8 0) = false := by decide

theorem test_wellFormed_refuses_misaligned : HostStmt.wellFormed cfg (.read 0x1042 4) = false := by decide

theorem test_wellFormed_refuses_reserved :
    HostStmt.wellFormed cfg (.read 0x1018 4) = false ∧ HostStmt.wellFormed cfg (.read 0x103C 4) = false ∧
    HostStmt.wellFormed cfg (.write 0x1120 4 0) = false ∧ HostStmt.wellFormed cfg (.write 0x11FC 4 0) = false ∧
    HostStmt.wellFormed cfg (.read 0x1580 4) = false ∧ HostStmt.wellFormed cfg (.read 0x15FC 4) = false := by decide

theorem test_wellFormed_refuses_outside :
    HostStmt.wellFormed cfg (.read 0x0FFC 4) = false ∧ HostStmt.wellFormed cfg (.read 0x1600 4) = false := by decide

theorem test_wordlist_equal_entries : ¬WordlistWellFormed (fun _ => [0x61]) := fun h => h.distinct 0 1 (by decide) rfl
theorem test_wordlist_empty_entry : ¬WordlistWellFormed (fun i => if i = 5 then [] else pairWord i) := fun h =>
  absurd (h.sized 5).1 (by decide)
theorem test_wordlist_long_entry : ¬WordlistWellFormed (fun i => List.replicate 17 0x61 ++ pairWord i) := fun h =>
  absurd (h.sized 0).2 (by decide)

/-! ### The collaborators: check values of 42_external_primitives.md R184, R187, R188 -/

set_option maxRecDepth 100000 in
theorem test_sha256_abc :
    beWord 256 (sha256 (ascii "abc")).toList = 0xba7816bf8f01cfea414140de5dae2223b00361a396177a9cb410ff61f20015ad := by
  decide +kernel

set_option maxRecDepth 100000 in
theorem test_sha256_empty :
    beWord 256 (sha256 []).toList = 0xe3b0c44298fc1c149afbf4c8996fb92427ae41e4649b934ca495991b7852b855 := by
  decide +kernel

set_option maxRecDepth 100000 in
theorem test_sha512_abc :
    beWord 512 (sha512 (ascii "abc")) =
      0xddaf35a193617abacc417349ae20413112e6fa4e89a97ea20a9eeee64b55d39a2192992a274fc1a836ba3c23a3feebbd454d4423643ce80e2a9ac94fa54ca49f := by
  decide +kernel

set_option maxRecDepth 100000 in
theorem test_hmac_hi_there :
    beWord 512 (hmacSha512 (List.replicate 20 0x0b) (ascii "Hi There")) =
      0x87aa7cdea5ef619d4ff0b4241a1d6cb02379f4e2ce4ec2787ad0b30545e17cdedaa833b7d6b8a702038b274eaea3f4e4be9d914eeb61f1702e696c203a126854 := by
  decide +kernel

set_option maxRecDepth 100000 in
theorem test_pbkdf2_two_iterations :
    beWord 512 (pbkdf2HmacSha512 (ascii "password") (ascii "salt") 2 64).toList =
      0xe1d9c16aa681708a45f5c7c4e215ceb66e011a2e9f0040713f18aefdb866d53cf76cab2868a39b9f7840edce4fef5a82be67335c77a6068e04112754f27ccf4e := by
  decide +kernel

/-! ### The encoder (95_test_vectors.md section 2) -/

/-- The indices of an encoding. -/
def indicesOf (e : ByteString) : List Nat := (mapIndices cfg (bitString cfg e)).map fun w => w.1.toNat

set_option maxRecDepth 100000 in
/-- V1. -/
theorem test_vector_V1 : indicesOf (List.replicate 16 0) = [0, 0, 0, 0, 0, 0, 0, 0, 0, 0, 0, 3] := by decide +kernel

set_option maxRecDepth 100000 in
/-- V3: bytes 0 to 15 in order. -/
theorem test_vector_V3 :
    indicesOf ((List.range 16).map fun k => BitVec.ofNat 8 k) =
      [0, 64, 1030, 64, 643, 28, 257, 266, 88, 771, 540, 251] := by decide +kernel

set_option maxRecDepth 100000 in
/-- V6: 28 bytes, a checksum of seven bits. -/
theorem test_vector_V6 :
    indicesOf ((List.range 28).map fun k => BitVec.ofNat 8 k) =
      [0, 64, 1030, 64, 643, 28, 257, 266, 88, 771, 540, 241, 8, 1096, 610, 1045, 176, 1478, 50, 417, 1518] := by
  decide +kernel

set_option maxRecDepth 100000 in
/-- V9 (and U-3): 32 bytes, a checksum of zero. -/
theorem test_vector_V9 :
    indicesOf (beBytes 0x68a79eaca2324873eacc50cb9c6eca8cc68ea5d936f98787c60c7ebc74e6ce7c#256) =
      [837, 487, 1369, 547, 292, 463, 1369, 1104, 1628, 1819, 1429, 204, 839, 663, 806, 1785, 1084, 497, 1048, 2027] ++
      [1594, 923, 463, 1024] := by decide +kernel

/-- E1 to E18: of these lengths the five legal ones are accepted. -/
theorem test_validate_lengths :
    ([0, 4, 12, 15, 16, 17, 18, 19, 20, 24, 28, 31, 32, 33, 36, 64, 255].filter fun n =>
      validate (some (List.replicate n 0)) matches .ok _) = [16, 20, 24, 28, 32] := by decide +kernel

set_option maxRecDepth 100000 in
/-- X1 with the words: under any table with the entries DTHER fixes, and the required digest. -/
theorem test_reference_mnemonic (w : WordIndex → ByteString) (h : DtherEntries w) :
    (mapIndices { cfg with wordlist := w } (bitString { cfg with wordlist := w } (List.replicate 16 0))).map Prod.snd =
      List.replicate 11 (ascii "abandon") ++ [ascii "about"] := by
  have hb : bitString { cfg with wordlist := w } (List.replicate 16 0) = bitString cfg (List.replicate 16 0) := rfl
  have hi : (mapIndices cfg (bitString cfg (List.replicate 16 0))).map Prod.fst = List.replicate 11 0 ++ [3] := by
    decide +kernel
  have hw : ∀ b : BitString, (mapIndices { cfg with wordlist := w } b).map Prod.snd =
      ((mapIndices cfg b).map Prod.fst).map w := by
    intro b; simp [mapIndices, romRead]
  rw [hb, hw, hi]
  simp only [List.map_append, List.map_replicate, List.map_cons, List.map_nil]
  rw [show w 0 = _ from h.entry0, show w 3 = _ from h.entry3]

/-- R168: the text of X2 is 93 bytes. -/
theorem test_joinWords_length :
    (HostScript.joinWords (List.replicate 11 (ascii "abandon") ++ [ascii "about"])).length = 93 := by decide +kernel

/-! ### One step of each command -/

/-- Sixteen zero bytes of entropy, `GENMNEM` in flight. -/
def encoding : State := machine { busyWith 0x101 with elen := 16 } [] []

set_option maxRecDepth 100000 in
/-- P1: twelve words, the last of index 3, and nothing after it. -/
theorem test_genmnem_step :
    (match stepWith cfg encoding with
      | .next t => (t.core.status, t.core.wcount, t.core.widx[11].word, t.core.widx[12].word)
      | _ => (0, 0, 0, 0)) = (2, 12, 0x00020003, 0) := by decide +kernel

/-- P2, line 7: a length of 15. -/
theorem test_genmnem_error :
    (match step (machine { busyWith 0x101 with elen := 15 } [] []) with
      | .next t => (t.core.status, t.core.wcount)
      | _ => (0, 0)) = (0x14, 0) := by decide +kernel

/-- Section 4.3: over-long lengths, the absent mnemonic, and a blank one. -/
theorem test_genseed_errors :
    ([(257, 0, 0x202), (257, 0, 0x002), (0, 300, 0x402), (0, 0, 0x202)].map fun (m, p, w) =>
      match step (machine { busyWith w with mlen := m, plen := p } [] []) with
      | .next t => t.core.status
      | _ => 0) = [0x44, 0x24, 0x44, 0x24] := by decide +kernel

/-- A seed in `SEED`, in order, with the test configuration's key derivation. -/
theorem test_genseed_step :
    (match stepWith cfg (machine { busyWith 0x202 with mlen := 1, mem := [(0x200, 0x61)] } [] []) with
      | .next t => (t.core.status, t.core.word .seed 0, t.core.word .seed 15, t.core.mem.read 0x0C0)
      | _ => (0, 0, 0, 0)) = (2, 0x5a5a5a5a, 0x5a5a5a5a, 0) := by decide +kernel

/-- An illegal word completes with `0x00000044` (section 4.1). -/
theorem test_illegal_step :
    (match step (machine (busyWith 0x801) [] []) with
      | .next t => (t.core.status, t.core.cmd)
      | _ => (0, 0)) = (0x44, 0x801) := by decide +kernel

/-! ### Registers and host accesses (sections 4.3 and 5) -/

theorem test_length_registers :
    ((idle.writeWord .mlen 0x3FF).readWord .mlen, (idle.writeWord .elen 0x1FF).readWord .elen,
      (idle.writeWord .status 0xFFFFFFFF).readWord .status) = (0x1FF, 0xFF, 0) := by decide +kernel

/-- P2, line 1: byte 0 is the most significant lane. -/
theorem test_ebuf_lanes :
    ((idle.writeWord (.ebuf 0) 0x00010203).bytes .ebuf 5) = [0, 1, 2, 3, 0] := by decide +kernel

/-- The canonical form: a zero byte is not listed. -/
theorem test_memory_canonical :
    (idle.writeWord (.ebuf 0) 0x00010203).mem = [(0x41, 1), (0x42, 2), (0x43, 3)] ∧
    ((idle.writeWord (.ebuf 0) 0x00010203).writeWord (.ebuf 0) 0).mem = [] := by decide +kernel

/-- P4, lines 4 to 6: writes while busy are lost. -/
theorem test_busy_writes_lost :
    (busyWith 0x101).writeWord .elen 0x14 = busyWith 0x101 ∧ (busyWith 0x101).writeWord .cmd 2 = busyWith 0x101 ∧
    (busyWith 0x101).writeWord (.ebuf 0) 1 = busyWith 0x101 := by decide +kernel

/-- P6: a FATAL core accepts no command and stores operands. -/
theorem test_fatal :
    (fatalCore.writeWord .cmd 0x101).status = 8 ∧ (fatalCore.writeWord .cmd 0x101).cmd = 0 ∧
    (fatalCore.writeWord .elen 0x10).elen = 16 := by decide +kernel

theorem test_fatal_reset : (CoreState.reset fatalCfg).fatal = true := by
  have : wordlistVerdict fatalCfg.wordlist = false := by
    rw [← Bool.not_eq_true, wordlistVerdict_iff]; exact test_wordlist_equal_entries
  simp [this]

/-- `generateMnemonics` as a script (R104, P1): the writes, the command and the poll. -/
theorem test_mnemonic_script :
    HostScript.mnemonicIssue cfg (some [1, 2, 3, 4, 5]) =
      [.write 0x1040 4 0x01020304, .write 0x1044 4 0x05000000, .write 0x1008 4 5, .write 0x1000 4 0x101, .poll] := by
  decide +kernel

set_option maxRecDepth 100000 in
/-- The whole macro `generateMnemonics` of V1 (R104, P1), with the host polling once before the core moves. -/
theorem test_mnemonic_macro :
    (match (HostScript.mnemonicMacro cfg (some (List.replicate 16 0))).run cfg 200 (machine idle [] [.host, .core]) with
      | .returned words s => (words.map fun w => w.1.toNat, words.map fun w => w.2.length, s.core.status)
      | _ => ([], [], 0)) = ([0, 0, 0, 0, 0, 0, 0, 0, 0, 0, 0, 3], List.replicate 12 2, 2) := by decide +kernel

/-- The macro fails with `s.ECODE` (R104): an entropy of five bytes, an absent one, and an absent mnemonic. -/
theorem test_macro_failures :
    (([some [1, 2, 3, 4, 5], none].map fun e =>
      match (HostScript.mnemonicMacro cfg e).run cfg 20 (machine idle [] []) with
      | .failed code s => (code, s.core.wcount)
      | _ => (0, 0)) = [(1, 0), (1, 0)]) ∧
    (match (HostScript.seedMacro cfg none (some [0x20])).run cfg 20 (machine idle [] []) with
      | .failed code _ => code
      | _ => 0) = 2 := by decide +kernel

/-- A host write and the core's completion of it, in either order of the third step (20_memory.md R73). -/
theorem test_run_poll :
    (match runWith cfg 4 (machine idle [.write 0x1000 4 0x001, .poll] [.host, .core]) with
      | .next t => (t.received, t.core.status)
      | _ => ([], 0)) = ([0x14], 0x14) := by decide +kernel

/-! ### Well-formed UTF-8 (log 12): two, three and four byte forms, an overlong form, a surrogate -/

theorem test_utf8 :
    wellFormedUtf8 [0x61, 0xC3, 0xA9, 0xE2, 0x82, 0xAC, 0xF0, 0x9F, 0x98, 0x80] = true ∧
    wellFormedUtf8 [0xC0, 0x80] = false ∧ wellFormedUtf8 [0xED, 0xA0, 0x80] = false ∧
    wellFormedUtf8 [0xE2, 0x82] = false := by decide

/-- The characters of a text, and a text that is cut short. -/
theorem test_utf8Chars :
    utf8Chars [0x20, 0xE3, 0x80, 0x80, 0x61] = some [[0x20], [0xE3, 0x80, 0x80], [0x61]] ∧
    utf8Chars [0x20, 0xE3, 0x80] = none := by decide

/-- The default whitespace characters and U+3000, which is three bytes long (92_eei_decisions.md D17). -/
def wideSpace (c : ByteString) : Bool := isAsciiSpaceChar c || c == [0xE3, 0x80, 0x80]

/-- A configuration whose blank test knows them. -/
def wideCfg : Config :=
  { cfg with isBlank := fun m => match utf8Chars m with | some chars => chars.all wideSpace | none => false }

/-- A whitespace set may hold characters of several bytes (41_seed_deriver.md R162). -/
theorem wideCfg_blankLaws : BlankLaws wideCfg.isBlank wideSpace :=
  ⟨rfl, fun m chars h => by simp only [wideCfg, h]⟩

/-! ### Witnesses: states and operands that meet the hypotheses of each obligation, clause by clause -/

/-- No word lies at an offset the map does not define. -/
theorem not_admitted {addr : Nat} (h : Target.ofOffset (addr - 0x1000) = none) :
    ¬(4 = 4 ∧ addr % 4 = 0 ∧ ∃ tg : Target, addr = cfg.base + tg.offset) := by
  rintro ⟨-, -, tg, ht⟩
  rw [show addr - 0x1000 = tg.offset by rw [ht]; exact Nat.add_sub_cancel_left _ _, Target.ofOffset_offset] at h
  cases h

theorem witness_decodeAndEncodeAgree : decode 0x00000602 = some (.genseed true true) := by decide

theorem witness_illegalWordsFailAtCompletion :
    (decode 0x00000801 = none ∧ idle.busy = false ∧ idle.fatal = false) ∧
    ((machine (busyWith 0x80000001) [] []).nextMove = .core ∧ decode (busyWith 0x80000001).cmd = none) := by decide

theorem witness_stepRunsTheDecodedCommand :
    ((machine (busyWith 0x602) [] []).nextMove = .core ∧ decode (busyWith 0x602).cmd = some (.genseed true true)) ∧
    decodeTableWord 32 0x00000101 = some (.genmnem true) := by decide

theorem witness_completionIsEnabledExactlyWhileBusy :
    (machine (busyWith 1) [.poll] []).nextMove = .core ∧
    ((busyWith 1).busy = true ∧ (machine (busyWith 1) [.poll] []).script.head? ≠ some .reset) ∧
    (machine (busyWith 1) [.poll] []).script = .poll :: [] ∧
    (machine (busyWith 1) [.reset, .poll] [.core]).script = .reset :: [.poll] := by decide

theorem witness_admittedScriptsAreNeverStopped :
    (∃ r, stepWith cfg (machine idle [.read 0x1018 4] []) = .refused r) ∧
    (machine idle [.read 0x1000 4, .write 0x157C 4 0, .poll, .reset] []).scriptAdmitted cfg = true := ⟨⟨_, rfl⟩, by decide⟩

theorem witness_operationInFlightCompletes :
    (busyWith 0x101).busy = true ∧
    (machine (busyWith 0x101) [.poll, .read 0x1004 4] [.host, .host]).scriptAdmitted cfg = true ∧
    (machine (busyWith 0x101) [.poll, .read 0x1004 4] [.host, .host]).scriptResetFree = true := by decide

theorem witness_onlyCompletionOrResetEndsAnOperation :
    (busyWith 1).busy = true ∧ (∃ t, stepWith cfg (machine (busyWith 1) [] []) = .next t) ∧
    ∃ t, stepWith cfg (machine (busyWith 1) [.poll] [.host]) = .next t := ⟨rfl, ⟨_, rfl⟩, ⟨_, rfl⟩⟩

theorem witness_unadmittedAccessIsRefused :
    (∀ addr ∈ [0x1018, 0x103C, 0x1120, 0x11FC, 0x1580, 0x15FC, 0x1600],
      ¬(4 = 4 ∧ addr % 4 = 0 ∧ ∃ tg : Target, addr = cfg.base + tg.offset) ∧
      (machine idle [.read addr 4] []).nextMove = .host (.read addr 4) ∧
      (machine idle [.write addr 4 7] []).nextMove = .host (.write addr 4 7)) ∧
    (¬(1 = 4 ∧ 0x1040 % 4 = 0 ∧ ∃ tg : Target, 0x1040 = cfg.base + tg.offset) ∧
      (machine idle [.read 0x1040 1] []).nextMove = .host (.read 0x1040 1)) := by
  refine ⟨fun addr h => ⟨?_, rfl, rfl⟩, by simp, rfl⟩
  simp only [List.mem_cons, List.not_mem_nil, or_false] at h
  rcases h with rfl | rfl | rfl | rfl | rfl | rfl | rfl <;> exact not_admitted (by decide)

theorem witness_addressMapHasNoAliases :
    Target.offset (.wtext 23 3) = Target.offset (.wtext 23 3) ∧
    ∀ off ∈ [0x000, 0x014, 0x040, 0x11C, 0x200, 0x57C], off % 4 = 0 ∧ off < 0x600 ∧ ¬(0x018 ≤ off ∧ off < 0x040) ∧
      ¬(0x120 ≤ off ∧ off < 0x200) ∧ ¬(0x580 ≤ off) := by decide

theorem witness_hostReadReturnsTheWord :
    (machine (busyWith 1) [.read (cfg.base + Target.offset (.wtext 23 3)) 4] [.host]).nextMove =
      .host (.read (cfg.base + Target.offset (.wtext 23 3)) 4) ∧
    (machine fatalCore [.read (cfg.base + Target.offset .cmd) 4] []).nextMove =
      .host (.read (cfg.base + Target.offset .cmd) 4) := by decide

theorem witness_statusReadsOneOfSevenValues :
    (StatusInv idle ∧ idle.ecode ≠ some .indexOutOfRange) ∧
    (StatusInv { idle with err := true, ecode := some .commandError } ∧ some CoreError.commandError ≠ some .indexOutOfRange) ∧
    StatusInv fatalCore :=
  ⟨⟨idle_statusInv, by decide⟩,
    ⟨⟨by decide, by decide, by decide, by decide, by decide, fun _ => ⟨rfl, idle_resultsZero.widx, fun _ _ => rfl⟩⟩, by decide⟩,
    ⟨by decide, by decide, by decide, by decide, by decide, fun _ => ⟨rfl, idle_resultsZero.widx, fun _ _ => rfl⟩⟩⟩

theorem witness_operandWriteReadsBack :
    idle.busy = false ∧ idle.mem.wf = true ∧
    ∀ tg ∈ [Target.elen, .mlen, .plen, .ebuf 0, .ebuf 15, .mbuf 63, .pbuf 0, .pbuf 63], tg.isOperand = true ∧
      (machine idle [.write (cfg.base + tg.offset) 4 9] []).nextMove = .host (.write (cfg.base + tg.offset) 4 9) := by
  decide

theorem witness_operandWriteWhileBusyIsIgnored :
    (busyWith 1).busy = true ∧ (Target.isOperand (.ebuf 15) = true ∨ Target.ebuf 15 = .cmd) ∧
    (machine (busyWith 1) [.write (cfg.base + Target.offset (.ebuf 15)) 4 9] [.host]).nextMove =
      .host (.write (cfg.base + Target.offset (.ebuf 15)) 4 9) ∧
    (machine (busyWith 1) [.write (cfg.base + Target.offset .cmd) 4 9] [.host]).nextMove =
      .host (.write (cfg.base + Target.offset .cmd) 4 9) := by decide

theorem witness_readOnlyWriteIsIgnored :
    (∀ tg ∈ [Target.status, .wcount, .seed 15, .widx 23, .wtext 23 3], tg.readOnly = true ∧
      (machine idle [.write (cfg.base + tg.offset) 4 9] []).nextMove = .host (.write (cfg.base + tg.offset) 4 9)) ∧
    (0x1FF : Word).extractLsb' 0 8 = (0x0FF : Word).extractLsb' 0 8 ∧
    (0x3FF : Word).extractLsb' 0 9 = (0x1FF : Word).extractLsb' 0 9 ∧ idle.busy = false := by decide

theorem witness_issueFollowsItsRule :
    (∀ c ∈ [busyWith 1, fatalCore, idle], (machine c [.write (cfg.base + 0x000) 4 0x801] [.host]).nextMove =
      .host (.write (cfg.base + 0x000) 4 0x801)) ∧
    (busyWith 1).busy = true ∧ fatalCore.fatal = true ∧ (idle.busy = false ∧ idle.fatal = false ∧ decode 0x801 = none) := by
  decide

theorem witness_pollWaitsForBusyClear :
    ((machine (busyWith 1) [.poll] [.host]).nextMove = .host .poll ∧ (busyWith 1).busy = true) ∧
    ((machine idle [.poll] []).nextMove = .host .poll ∧ idle.busy = false) := by decide

theorem witness_resetStepSetsEveryRegister :
    (machine (busyWith 1) [.reset, .poll] [.core]).nextMove = .host .reset ∧
    (machine fatalCore [.reset] []).nextMove = .host .reset := by decide

theorem witness_fatalCoreAcceptsNothing :
    ((∃ t, stepWith fatalCfg (machine fatalCore [.write 0x1000 4 0x101] []) = .next t) ∧
      (fatalCore.fatal = true ↔ ¬WordlistWellFormed fatalCfg.wordlist) ∧
      (fatalCore.fatal = true → fatalCore.untouched = true ∧ fatalCore.cmd = 0 ∧ ResultsZero fatalCore)) ∧
    ((∃ t, stepWith cfg (machine idle [.write 0x1000 4 0x101] []) = .next t) ∧
      (idle.fatal = true ↔ ¬WordlistWellFormed cfg.wordlist) ∧
      (idle.fatal = true → idle.untouched = true ∧ idle.cmd = 0 ∧ ResultsZero idle)) :=
  ⟨⟨⟨_, rfl⟩, ⟨fun _ => test_wordlist_equal_entries, fun _ => rfl⟩,
      fun _ => ⟨rfl, rfl, rfl, idle_resultsZero.widx, fun _ _ => rfl⟩⟩,
    ⟨⟨_, rfl⟩, ⟨fun h => absurd h (by decide), fun h => absurd pairWord_wellFormed h⟩, fun _ => ⟨rfl, rfl, idle_resultsZero⟩⟩⟩

theorem witness_stepKeepsStatusInvariant :
    StatusInv (busyWith 0x101) ∧ ∃ t, stepWith cfg (machine (busyWith 0x101) [] []) = .next t :=
  ⟨busy_statusInv _, _, rfl⟩

theorem witness_untouchedUntilFirstAcceptedCommand :
    (∃ t, stepWith cfg (machine idle [.write 0x1000 4 0x101] []) = .next t ∧ idle.untouched = true ∧
      t.core.untouched = false ∧ idle.cmd = 0) ∧
    (∃ t, stepWith cfg (machine (busyWith 1) [.reset] []) = .next t ∧ (busyWith 1).untouched = false ∧
      t.core.untouched = true) := ⟨⟨_, rfl, rfl, rfl, rfl⟩, ⟨_, rfl, rfl, rfl⟩⟩

theorem witness_stepKeepsMemoryInvariant :
    MemoryInv idle.mem ∧ ∃ t, stepWith cfg (machine idle [.write 0x1040 4 0x01020304] []) = .next t :=
  ⟨idle_memoryInv, _, rfl⟩

theorem witness_stepKeepsResultsInvariant :
    WordlistWellFormed cfg.wordlist ∧ StatusInv idle ∧ MemoryInv idle.mem ∧ ResultsInv cfg idle ∧
    ∃ t, stepWith cfg (machine idle [.write 0x1000 4 0x101] []) = .next t :=
  ⟨pairWord_wellFormed, idle_statusInv, idle_memoryInv, idle_resultsInv, _, rfl⟩

theorem witness_indexErrorIsNeverRaised :
    idle.ecode ≠ some .indexOutOfRange ∧ ∃ t, stepWith cfg (machine (busyWith 0x101) [] []) = .next t :=
  ⟨by decide, _, rfl⟩

theorem witness_coreNeverWritesOperands :
    (machine (busyWith 0x101) [] []).nextMove = .core ∧ ∃ t, stepWith cfg (machine (busyWith 0x101) [] []) = .next t :=
  ⟨by decide, _, rfl⟩

theorem witness_hostChangesResultsOnlyByCommandOrReset :
    (∃ t, stepWith cfg (machine fatalCore [.write 0x1000 4 1] []) = .next t) ∧
    (machine fatalCore [.write 0x1000 4 1] []).nextMove ≠ .core ∧
    (machine fatalCore [.write 0x1000 4 1] []).nextMove ≠ .host .reset ∧
    ∀ v, (machine fatalCore [.write 0x1000 4 1] []).nextMove = .host (.write cfg.base 4 v) → fatalCore.accepts = false :=
  ⟨⟨_, rfl⟩, by decide, by decide, fun _ _ => rfl⟩

/-- The last two clauses of the same: a step after which an operand word reads otherwise. -/
theorem witness_hostChangesAtMostOneWord :
    (∀ v, (machine idle [.write 0x1300 4 7] []).nextMove ≠ .host (.write cfg.base 4 v)) ∧
    (machine idle [.write 0x1300 4 7] []).nextMove ≠ .core ∧
    (machine idle [.write 0x1300 4 7] []).nextMove ≠ .host .reset ∧
    ∃ t, stepWith cfg (machine idle [.write 0x1300 4 7] []) = .next t ∧
      t.core.readWord (.pbuf 0) ≠ idle.readWord (.pbuf 0) := by
  refine ⟨fun v h => ?_, by decide, by decide, _, rfl, by decide⟩
  have : Move.host (.write 0x1300 4 7) = Move.host (.write 0x1000 4 v) := h
  simp at this

theorem witness_genmnemCompletesWithTheWords :
    ∀ n ∈ [16, 20, 24, 28, 32],
      let c : CoreState := { busyWith 0x101 with elen := BitVec.ofNat 8 n }
      c.elen.toNat ∈ validLengths ∧ ResultsZero c ∧ c.mem.wf = true := by
  intro n hn
  simp only [List.mem_cons, List.not_mem_nil, or_false] at hn
  rcases hn with rfl | rfl | rfl | rfl | rfl <;>
    exact ⟨by decide, ⟨rfl, idle_resultsZero.widx, fun _ _ => rfl⟩, rfl⟩

theorem witness_genmnemUnderWellFormedWordlist :
    WordlistWellFormed cfg.wordlist ∧ encoding.core.elen.toNat ∈ validLengths ∧ StatusInv encoding.core ∧
    encoding.core.busy = true ∧ encoding.core.mem.wf = true :=
  ⟨pairWord_wellFormed, by decide,
    ⟨by decide, by decide, by decide, by decide, by decide, fun _ => ⟨rfl, idle_resultsZero.widx, fun _ _ => rfl⟩⟩, rfl, rfl⟩

theorem witness_genmnemRejectsIllegalEntropy :
    (false = false ∨ idle.elen.toNat ∉ [16, 20, 24, 28, 32]) ∧
    ∀ n ∈ [0, 15, 17, 31, 33, 36, 255],
      ({ idle with elen := BitVec.ofNat 8 n } : CoreState).elen.toNat ∉ [16, 20, 24, 28, 32] := by decide

theorem witness_genmnemFrame :
    (∃ t, exec (.genmnem true) encoding = .next t) ∧
    genmnem platform false encoding.core = .err .invalidEntropy ∧
    (∃ indices, genmnem platform true encoding.core = .okMnemonic indices ∧ indices.length ≤ (23 : Fin 24).val ∧
      ∀ (i : Fin 24) (idx : WordIndex) (k : Nat), indices[i.val]? = some idx →
        k < min Config.wslotBytes (romRead platform idx).length → 0x040 ≠ Buffer.offset (.wtext i) + k) := by
  refine ⟨⟨_, rfl⟩, rfl, ?_⟩
  rcases genmnem_cases platform true encoding.core with ⟨-, -, h⟩ | ⟨h | h, -⟩
  · refine ⟨_, h, ?_, fun i _ k _ _ => by simp only [Buffer.offset]; omega⟩
    rw [(genmnem_length h).1]; decide
  · cases h
  · exact absurd h (by decide)

theorem witness_genmnemReadsOnlyItsOperand :
    let c : CoreState := { encoding.core with mem := [(0x050, 0x77)] }
    (true = true → encoding.core.elen = c.elen) ∧
    (true = true → encoding.core.elen.toNat ≤ 32 →
      ∀ k, k < encoding.core.elen.toNat → encoding.core.byte .ebuf k = c.byte .ebuf k) ∧
    SameStatus encoding.core c ∧ SameResults encoding.core c ∧ encoding.core.mem.wf = true ∧ c.mem.wf = true :=
  ⟨fun _ => rfl, fun _ _ => by decide, ⟨rfl, rfl, rfl, rfl, rfl⟩,
    ⟨rfl, fun _ => rfl, fun a ha => by
      show (0 : Byte) = if 0x050 = a then 0x77 else 0
      rw [if_neg]; rcases ha with ha | ha <;> omega⟩, rfl, by decide⟩

theorem witness_encoderLengths :
    (∀ n ∈ [16, 20, 24, 28, 32], (List.replicate n (0 : Byte)).length ∈ validLengths) ∧
    (∀ n ∈ [0, 15, 17, 33], (List.replicate n (0 : Byte)).length ∉ validLengths) ∧
    (0 < 3 * (List.replicate 16 (0 : Byte)).length / 4 ∧ 11 < 3 * (List.replicate 16 (0 : Byte)).length / 4) := by decide

theorem witness_checksumIsLeadingDigestBits :
    (List.replicate 16 (0 : Byte)).length ∈ validLengths ∧
    ∀ k, k < (List.replicate 16 (0 : Byte)).length / 4 →
      (cfg.sha256 (List.replicate 16 0))[0].getLsbD (7 - k) =
        (({ cfg with sha256 := fun e => (sha256 e).set 1 0 } : Config).sha256 (List.replicate 16 0))[0].getLsbD (7 - k) :=
  ⟨by decide, fun k _ => by
    show (sha256 (List.replicate 16 0))[0].getLsbD _ = ((sha256 (List.replicate 16 0)).set 1 0)[0].getLsbD _
    rw [Vector.getElem_set_ne _ _ (by decide)]⟩

theorem witness_bitStringPositions :
    0 < 8 * (List.replicate 16 (0 : Byte)).length ∧ 127 < 8 * (List.replicate 16 (0 : Byte)).length ∧ 3 < 4 := by decide

theorem witness_encoderIsInjective :
    ∃ ws, generateMnemonics cfg (some (List.replicate 16 0)) = .ok ws ∧ ws.map Prod.fst = ws.map Prod.fst ∧
      WordlistWellFormed cfg.wordlist ∧ ws.map Prod.snd = ws.map Prod.snd := ⟨_, rfl, rfl, pairWord_wellFormed, rfl⟩

theorem witness_genseedCompletesWithTheSeed :
    let c : CoreState := { busyWith 0x602 with mlen := 256, plen := 256, mem := [(0x2FF, 0x61)] }
    c.mlen.toNat ≤ 256 ∧ (true = true → c.plen.toNat ≤ 256) ∧
    (∃ k, k < c.mlen.toNat ∧ c.byte .mbuf k ∉ [0x09, 0x0A, 0x0B, 0x0C, 0x0D, 0x20]) ∧ c.mem.wf = true :=
  ⟨by decide, by decide, ⟨255, by decide, by decide⟩, by decide⟩

theorem witness_genseedRejectsEmptyMnemonic :
    let c : CoreState := { busyWith 0x602 with mlen := 1, plen := 256, mem := [(0x200, 0x20)] }
    ((true = true → c.mlen.toNat ≤ 256) ∧ (true = true → c.plen.toNat ≤ 256) ∧
      ∀ k, k < c.mlen.toNat → c.byte .mbuf k ∈ [0x09, 0x0A, 0x0B, 0x0C, 0x0D, 0x20]) ∧
    (∀ k, k < idle.mlen.toNat → idle.byte .mbuf k ∈ [0x09, 0x0A, 0x0B, 0x0C, 0x0D, 0x20]) := by decide

theorem witness_errorPriorityFollowsItsOrder :
    decode 0x00000000 = none ∧ decode 0x00000101 = some (.genmnem true) ∧ decode 0x00000001 = some (.genmnem false) ∧
    encoding.core.elen.toNat ∈ validLengths ∧ idle.elen.toNat ∉ validLengths ∧
    decode 0x00000602 = some (.genseed true true) ∧
    (true = true ∧ 256 < ({ idle with mlen := 257 } : CoreState).mlen.toNat) ∧
    ¬((true = true ∧ 256 < idle.mlen.toNat) ∨ (true = true ∧ 256 < idle.plen.toNat)) ∧
    cfg.isBlank (idle.bytes .mbuf idle.mlen.toNat) = true ∧
    (let c : CoreState := { idle with mlen := 1, mem := [(0x200, 0x61)] }
     cfg.isBlank (c.bytes .mbuf c.mlen.toNat) = false) := by decide

theorem witness_failingOperationReportsInStatusAlone :
    (machine (busyWith 0x801) [] []).nextMove = .core ∧ StatusInv (busyWith 0x801) ∧
    execute cfg (busyWith 0x801).cmd (busyWith 0x801) = .err .commandError := ⟨by decide, busy_statusInv _, by decide⟩

theorem witness_genseedRejectsOverlongText :
    (true = true ∧ 256 < ({ idle with mlen := 257 } : CoreState).mlen.toNat) ∧
    (true = true ∧ 256 < ({ idle with plen := 511 } : CoreState).plen.toNat) := by decide

theorem witness_genseedFrame :
    let c : CoreState := { busyWith 0x202 with mlen := 1, mem := [(0x200, 0x61)] }
    (∃ t, exec (.genseed true false) (machine c [] []) = .next t) ∧
    genseed platform true false idle = .err .emptyMnemonic ∧
    (∃ seed, genseed platform true false c = .okSeed seed) ∧ ∀ k, k < 64 → 0x200 ≠ Buffer.offset .seed + k := by
  refine ⟨⟨_, rfl⟩, rfl, ?_, fun k hk => by simp only [Buffer.offset]; omega⟩
  rcases genseed_cases platform true false { busyWith 0x202 with mlen := 1, mem := [(0x200, 0x61)] } with
    ⟨h, -⟩ | ⟨-, h | h, -⟩ | ⟨-, -, -, h⟩
  · exact absurd h (by decide)
  · cases h
  · exact absurd (show isBlankDefault _ = true from h) (by decide)
  · exact ⟨_, h⟩

theorem witness_genseedReadsOnlyItsOperands :
    let c : CoreState := { busyWith 0x602 with mlen := 1, plen := 1, mem := [(0x200, 0x61), (0x300, 0x62)] }
    let d : CoreState := { c with mem := [(0x200, 0x61), (0x201, 0x77), (0x300, 0x62), (0x301, 0x77)] }
    (true = true → c.mlen = d.mlen ∧ ∀ k, k < c.mlen.toNat → c.byte .mbuf k = d.byte .mbuf k) ∧
    (true = true → c.plen = d.plen ∧ ∀ k, k < c.plen.toNat → c.byte .pbuf k = d.byte .pbuf k) ∧
    SameStatus c d ∧ SameResults c d ∧ c.mem.wf = true ∧ d.mem.wf = true :=
  ⟨by decide, by decide, ⟨rfl, rfl, rfl, rfl, rfl⟩,
    ⟨rfl, fun _ => rfl, fun a ha => by
      simp only [Memory.read]
      rcases ha with ha | ha <;> simp only [show ¬(0x200 = a) by omega, show ¬(0x201 = a) by omega,
        show ¬(0x300 = a) by omega, show ¬(0x301 = a) by omega, if_false]⟩, by decide, by decide⟩

theorem witness_saltNormalisationCommutes :
    (NfkdLaws cfg.nfkdUtf8 ∧ wellFormedUtf8 [0xC3, 0xA9] = true) ∧
    ∀ b ∈ ([0x54, 0x7F] : ByteString), b.toNat < 0x80 :=
  ⟨⟨⟨fun _ h => h, fun _ _ => rfl, fun _ _ => rfl, fun _ _ => rfl⟩, by decide⟩, by decide⟩

theorem witness_blankMnemonicIsAllWhitespaceCharacters :
    let c : CoreState := { busyWith 0x202 with mlen := 4, mem := [(0x200, 0x20), (0x201, 0xE3), (0x202, 0x80), (0x203, 0x80)] }
    let d : CoreState := { c with mem := [(0x200, 0x20), (0x201, 0xE3), (0x202, 0x80), (0x203, 0x81)] }
    BlankLaws wideCfg.isBlank wideSpace ∧ c.mlen.toNat ≤ 256 ∧ (true = true → c.plen.toNat ≤ 256) ∧
    (utf8Chars (c.bytes .mbuf c.mlen.toNat) = some [[0x20], [0xE3, 0x80, 0x80]] ∧
      ∀ x ∈ [[0x20], [0xE3, 0x80, 0x80]], wideSpace x = true) ∧
    (utf8Chars (d.bytes .mbuf d.mlen.toNat) = some [[0x20], [0xE3, 0x80, 0x81]] ∧
      ∃ x ∈ [[0x20], [0xE3, 0x80, 0x81]], wideSpace x = false) :=
  ⟨wideCfg_blankLaws, by decide, by decide, ⟨by decide, by decide⟩, by decide, by decide⟩

theorem witness_reissuedCommandRepeatsItsResult :
    (busyWith 0x101).busy = true ∧ StatusInv (busyWith 0x101) ∧ MemoryInv (busyWith 0x101).mem :=
  ⟨rfl, busy_statusInv _, idle_memoryInv⟩

theorem witness_instancesAreIndependent :
    let us : List Machine.Unit :=
      [{ baseWord := 0, state := machine (busyWith 1) [] [] }, { baseWord := 0x180, state := machine idle [] [] }]
    (∃ us', stepUnits cfg 0 us = .next us') ∧ 1 ≠ 0 ∧ us[0]? = some { baseWord := 0, state := machine (busyWith 1) [] [] } :=
  ⟨⟨_, rfl⟩, by decide, rfl⟩

theorem witness_packedWordsCarryTheirBytes :
    (3 < 4 ∧ idle.busy = false ∧ idle.mem.wf = true) ∧
    (∀ j, (Target.ebuf j).isOperand = true ∧ (Target.ebuf j).offset = Buffer.offset .ebuf + 4 * j.val) ∧
    (∀ j, (Target.mbuf j).isOperand = true ∧ (Target.mbuf j).offset = Buffer.offset .mbuf + 4 * j.val) ∧
    (∀ j, (Target.pbuf j).isOperand = true ∧ (Target.pbuf j).offset = Buffer.offset .pbuf + 4 * j.val) ∧
    (WordlistWellFormed cfg.wordlist ∧ idle.fatal = false ∧ (List.replicate 64 (0x61 : Byte)).length ≤ 64) ∧
    (List.replicate 64 (0x61 : Byte)).length ≤ 4 * 16 ∧ (List.replicate 255 (0x61 : Byte)).length ≤ 4 * 64 ∧
    (machine idle (HostScript.mnemonicIssue cfg (some (List.replicate 64 0x61))) []).script =
      HostScript.wrBytes cfg 16 Target.ebuf (List.replicate 64 0x61) ++
        [HostScript.wr cfg .elen 64, HostScript.wr cfg .cmd 0x101, .poll] :=
  ⟨by decide, fun _ => ⟨rfl, rfl⟩, fun _ => ⟨rfl, rfl⟩, fun _ => ⟨rfl, rfl⟩, ⟨pairWord_wellFormed, rfl, by simp⟩, by simp,
    by rw [List.length_replicate]; omega,
    by decide +kernel⟩

end Sys2Proof.Tests
end

section
/-! The platform's machine is the configurable machine at `platform` (00_scope.md section 3, R9): statements over every
configuration carry over to `exec` and `step` by these two equations. -/

namespace Sys2Proof.Machine

/-- Each platform arm runs the command under `platform`. -/
theorem exec_eq_execWith_platform (i : Instr) (s : State) : exec i s = execWith platform i s := by
  cases i with
  | genmnem ep => rfl
  | genseed mp pp => rfl

/-- Both steps are `stepOf` at `platform`; they differ only in the commands they are given. -/
theorem step_eq_stepWith_platform (s : State) : step s = stepWith platform s := by
  have hexec : exec = execWith platform := funext₂ exec_eq_execWith_platform
  rw [step, stepWith, hexec]

/-- Settles O6, by the arm of each command and the step's dependence on the commands alone. -/
theorem stepIsThePlatformMachine : Obligations.StepIsThePlatformMachine :=
  ⟨exec_eq_execWith_platform, step_eq_stepWith_platform⟩

end Sys2Proof.Machine
end

section
/-! Which steps keep the invariants of 10_state.md R26 and R32 to R35: equal results and status carry them over, and each
of the five things a step can do to the CORE keeps them. -/

namespace Sys2Proof.Machine

/-! ### Offsets of the result buffers, and equal results -/

/-- The bytes of `WTEXT[i]` are result bytes. -/
theorem resultOffset_wtext (i : Fin 24) {k : Nat} (hk : k < 16) : resultOffset (Buffer.offset (.wtext i) + k) := by
  rw [wtext_offset]; omega

/-- The bytes of `SEED` are result bytes. -/
theorem resultOffset_seed {k : Nat} (hk : k < 64) : resultOffset (Buffer.offset .seed + k) := by
  rw [Buffer.offset]; omega

theorem SameResults.refl (c : CoreState) : SameResults c c := ⟨rfl, fun _ => rfl, fun _ _ => rfl⟩

theorem SameStatus.refl (c : CoreState) : SameStatus c c := ⟨rfl, rfl, rfl, rfl, rfl⟩

theorem ResultsZero.of_sameResults {c d : CoreState} (hz : ResultsZero c) (h : SameResults d c) : ResultsZero d where
  wcount := h.wcount.trans hz.wcount
  widx i := (h.widx i).trans (hz.widx i)
  bytes a ha := (h.bytes a ha).trans (hz.bytes a ha)

theorem StatusInv.of_same {c d : CoreState} (h : StatusInv c) (hs : SameStatus d c) (hr : SameResults d c) :
    StatusInv d where
  busyDone := by rw [hs.busy, hs.done]; exact h.busyDone
  busyErr := by rw [hs.busy, hs.err]; exact h.busyErr
  doneErr := by rw [hs.done, hs.err]; exact h.doneErr
  ecode := by rw [hs.ecode, hs.err]; exact h.ecode
  fatal := by rw [hs.fatal, hs.busy, hs.done, hs.err, hs.ecode]; exact h.fatal
  results hd := (h.results (hs.done ▸ hd)).of_sameResults hr

theorem ResultsInv.of_sameResults {cfg : Config} {c d : CoreState} (h : ResultsInv cfg c) (hr : SameResults d c) :
    ResultsInv cfg d where
  count := by rw [hr.wcount]; exact h.count
  below :=
    { wlen := fun i hi => by rw [hr.wcount] at hi; rw [hr.widx]; exact h.below.wlen i hi
      wtext := fun i hi k hk => by
        rw [hr.wcount] at hi
        rw [hr.widx, CoreState.byte, hr.bytes _ (resultOffset_wtext i hk)]
        exact h.below.wtext i hi k hk }
  above :=
    { widx := fun i hi => by rw [hr.wcount] at hi; rw [hr.widx]; exact h.above.widx i hi
      wtext := fun i hi k hk => by
        rw [hr.wcount] at hi
        rw [CoreState.byte, hr.bytes _ (resultOffset_wtext i hk)]
        exact h.above.wtext i hi k hk }
  seed hw k hk := by
    rw [hr.wcount] at hw
    rw [CoreState.byte, hr.bytes _ (resultOffset_seed hk)]
    exact h.seed hw k hk

/-! ### Operand writes -/

/-- A host write to an operand word is an operand write. -/
theorem CoreState.writeWord_of_isOperand {t : Target} (ho : t.isOperand = true) (v : Word) (c : CoreState) :
    c.writeWord t v = c.writeOperand t v := by
  cases t with
  | cmd | status | wcount | seed _ | widx _ | wtext _ _ => cases ho
  | elen | mlen | plen | ebuf _ | mbuf _ | pbuf _ => rfl

/-- An operand write leaves results, status and `CMD` alone and keeps the memory invariant (10_state.md R22). -/
theorem CoreState.writeOperand_frame {t : Target} (ho : t.isOperand = true) (v : Word) (c : CoreState) :
    SameResults (c.writeOperand t v) c ∧ SameStatus (c.writeOperand t v) c ∧ (c.writeOperand t v).cmd = c.cmd ∧
    (MemoryInv c.mem → MemoryInv (c.writeOperand t v).mem) := by
  rcases CoreState.writeWord_cases t v c with hc | ⟨rfl, -⟩ | ⟨-, -, -, heq, hread, hmem⟩
  · rw [← CoreState.writeWord_of_isOperand ho, hc]
    exact ⟨.refl c, .refl c, rfl, id⟩
  · cases ho
  · rw [heq]
    exact ⟨⟨rfl, fun _ => rfl, hread⟩, ⟨rfl, rfl, rfl, rfl, rfl⟩, rfl, hmem⟩

/-! ### The status invariant -/

/-- While an operation is in flight no other status bit is set and every result is zero (10_state.md R26). -/
theorem StatusInv.of_busy {c : CoreState} (h : StatusInv c) (hb : c.busy = true) :
    c.done = false ∧ c.err = false ∧ c.fatal = false ∧ c.ecode = none ∧ ResultsZero c := by
  have hd : c.done = false := Bool.eq_false_iff.2 fun hd => h.busyDone ⟨hb, hd⟩
  have he : c.err = false := Bool.eq_false_iff.2 fun he => h.busyErr ⟨hb, he⟩
  have hf : c.fatal = false := Bool.eq_false_iff.2 fun hf => by simp [(h.fatal hf).1] at hb
  have hc : c.ecode = none := not_not.1 fun hc => by simp [h.ecode.1 hc] at he
  exact ⟨hd, he, hf, hc, h.results hd⟩

theorem CoreState.reset_resultsZero (cfg : Config) : ResultsZero (CoreState.reset cfg) where
  wcount := rfl
  widx i := by simp
  bytes _ _ := rfl

theorem CoreState.reset_statusInv (cfg : Config) : StatusInv (CoreState.reset cfg) where
  busyDone := by simp
  busyErr := by simp
  doneErr := by simp
  ecode := by simp
  fatal _ := ⟨rfl, rfl, rfl, rfl⟩
  results _ := CoreState.reset_resultsZero cfg

theorem CoreState.issue_statusInv (v : Word) {c : CoreState} (hf : c.fatal = false) : StatusInv (c.issue v) where
  busyDone := by simp
  busyErr := by simp
  doneErr := by simp
  ecode := by simp
  fatal h := by simp [hf] at h
  results _ := CoreState.issue_resultsZero v c

theorem CoreState.complete_statusInv (cfg : Config) (r : OpResult) {c : CoreState} (h : StatusInv c)
    (hb : c.busy = true) : StatusInv (c.complete cfg r) := by
  obtain ⟨hd, he, hf, hc, hz⟩ := h.of_busy hb
  obtain ⟨hb', -, hf', -⟩ := CoreState.complete_fixed cfg r c
  have houtcome : ¬((c.complete cfg r).done = true ∧ (c.complete cfg r).err = true) ∧
      ((c.complete cfg r).ecode ≠ none ↔ (c.complete cfg r).err = true) ∧
      ((c.complete cfg r).done = false → ResultsZero (c.complete cfg r)) := by
    cases r with
    | err e =>
      exact ⟨by simp [CoreState.complete, hd], by simp [CoreState.complete],
        fun _ => hz.of_sameResults ⟨rfl, fun _ => rfl, fun _ _ => rfl⟩⟩
    | okMnemonic l =>
      obtain ⟨hd', he', hc', -⟩ := CoreState.reportMnemonic_flags cfg l c
      exact ⟨by simp [CoreState.complete, he', he], by simp [CoreState.complete, he', hc', he, hc],
        fun h => by simp [CoreState.complete, hd'] at h⟩
    | okSeed d =>
      exact ⟨by simp [CoreState.complete, he], by simp [CoreState.complete, he, hc],
        fun h => by simp [CoreState.complete] at h⟩
  obtain ⟨hdoneErr, hecode, hresults⟩ := houtcome
  exact ⟨by simp [hb'], by simp [hb'], hdoneErr, hecode, fun h => by simp [hf', hf] at h, hresults⟩

/-- Settles O27, by what a step can do to the CORE: nothing, a completion, an issue, an operand write or a reset. -/
theorem stepKeepsStatusInvariant : Obligations.StepKeepsStatusInvariant := by
  intro cfg s t h hstep
  rcases stepWith_core_cases hstep with ⟨-, -, ht⟩ | ⟨-, hb, ht⟩ | ⟨_, _, v, -, -, -, hf, ht⟩ |
    ⟨_, _, v, tg, -, -, -, ho, ht⟩ | ⟨-, ht⟩ <;> rw [ht]
  · exact h
  · exact CoreState.complete_statusInv cfg _ h hb
  · exact CoreState.issue_statusInv v hf
  · obtain ⟨hres, hst, -⟩ := CoreState.writeOperand_frame ho v s.core
    exact h.of_same hst hres
  · exact CoreState.reset_statusInv cfg

/-! ### The memory invariant -/

theorem CoreState.reset_memoryInv (cfg : Config) : MemoryInv (CoreState.reset cfg).mem :=
  ⟨rfl, fun _ hx => by simp at hx⟩

/-- Settles O29: each of the five things a step can do to the CORE keeps the memory invariant. -/
theorem stepKeepsMemoryInvariant : Obligations.StepKeepsMemoryInvariant := by
  intro cfg s t h hstep
  rcases stepWith_core_cases hstep with ⟨-, -, ht⟩ | ⟨-, -, ht⟩ | ⟨_, _, v, -, -, -, -, ht⟩ |
    ⟨_, _, v, tg, -, -, -, ho, ht⟩ | ⟨-, ht⟩ <;> rw [ht]
  · exact h
  · exact CoreState.complete_memoryInv cfg _ h
  · exact CoreState.issue_memoryInv v h
  · obtain ⟨-, -, -, hmem⟩ := CoreState.writeOperand_frame ho v s.core
    exact hmem h
  · exact CoreState.reset_memoryInv cfg

/-! ### The shape of results -/

/-- Where every result is zero, no register holds a word. -/
theorem ResultsZero.noWordsFrom {c : CoreState} (hz : ResultsZero c) (n : Nat) : NoWordsFrom n c where
  widx i _ := hz.widx i
  wtext i _ _ hk := hz.bytes _ (resultOffset_wtext i hk)

/-- With `WCOUNT = 0` and no words the shape holds, whatever `SEED` is. -/
theorem ResultsInv.of_noWords {cfg : Config} {c : CoreState} (hw : c.wcount = 0) (h : NoWordsFrom 0 c) :
    ResultsInv cfg c where
  count := by simp [hw]
  below := ⟨fun i hi => by simp [hw] at hi, fun i hi => by simp [hw] at hi⟩
  above := by rw [hw]; exact h
  seed hne := absurd hw hne

theorem ResultsZero.resultsInv {cfg : Config} {c : CoreState} (hz : ResultsZero c) : ResultsInv cfg c :=
  .of_noWords hz.wcount (hz.noWordsFrom 0)

/-- A command yields words only for an entropy of a valid length (40_mnemonic_encoder.md R141). -/
theorem execute_okMnemonic_validLength {cfg : Config} {w : Word} {c : CoreState} {l : List WordIndex}
    (h : execute cfg w c = .okMnemonic l) : c.elen.toNat ∈ validLengths := by
  unfold execute at h
  split at h
  · cases h
  · rename_i ep _
    rcases genmnem_cases cfg ep c with ⟨-, hv, -⟩ | ⟨-, hg⟩
    · exact hv
    · rw [hg] at h; cases h
  · rename_i mp pp _
    rcases genseed_cases cfg mp pp c with ⟨-, hg⟩ | ⟨-, -, hg⟩ | ⟨-, -, -, hg⟩ <;> rw [hg] at h <;> cases h

/-- The number of words of a result is one of five (10_state.md R32). -/
theorem execute_okMnemonic_count {cfg : Config} {w : Word} {c : CoreState} {l : List WordIndex}
    (h : execute cfg w c = .okMnemonic l) : l.length ∈ [12, 15, 18, 21, 24] := by
  have hv := execute_okMnemonic_validLength h
  have hl := (execute_length h).1
  simp only [validLengths, List.mem_cons, List.not_mem_nil, or_false] at hv ⊢
  omega

/-- Words placed over zero results from a wordlist with words of at most 16 bytes, and no others (10_state.md R33, R34). -/
theorem CoreState.reportMnemonic_words {cfg : Config} (hwl : WordlistWellFormed cfg.wordlist) (l : List WordIndex)
    {c : CoreState} (hz : ResultsZero c) (hm : c.mem.wf = true) :
    WordsBelow cfg l.length (c.reportMnemonic cfg l) ∧ NoWordsFrom l.length (c.reportMnemonic cfg l) := by
  have hidx (i : Fin 24) (hi : i.val < l.length) : (c.reportMnemonic cfg l).widx[i] =
      { idx := l[i.val], wlen := BitVec.ofNat 5 (cfg.wordlist l[i.val]).length } :=
    CoreState.placeWords_widx_in cfg _ (Nat.zero_le _) (List.getElem?_eq_getElem hi)
  refine ⟨⟨fun i hi => ?_, fun i hi k hk => ?_⟩, ⟨fun i hi => ?_, fun i hi k hk => ?_⟩⟩
  · have hlen := (hwl.sized l[i.val]).2
    simp only [Config.wslotBytes] at hlen
    rw [hidx i hi, BitVec.toNat_ofNat, Nat.mod_eq_of_lt (by omega)]
  · rw [hidx i hi]
    refine (CoreState.placeWords_wtext_in cfg (c := { c.flagsDone with wcount := BitVec.ofNat 5 l.length }) hm
      (Nat.zero_le _) i.isLt (List.getElem?_eq_getElem hi) hk).trans ?_
    split
    · rfl
    · rename_i hge
      exact (hz.bytes _ (resultOffset_wtext i hk)).trans (List.getD_eq_default _ _ (Nat.le_of_not_lt hge)).symm
  · exact (CoreState.placeWords_widx_out cfg _ (.inr (by omega))).trans (hz.widx i)
  · exact (CoreState.placeWords_wtext_out cfg _ (.inr (by omega)) hk).trans (hz.bytes _ (resultOffset_wtext i hk))

/-- A completion over zero results keeps the shape of the results. -/
theorem CoreState.complete_resultsInv {cfg : Config} (hwl : WordlistWellFormed cfg.wordlist) {w : Word} {c : CoreState}
    (hz : ResultsZero c) (hm : c.mem.wf = true) : ResultsInv cfg (c.complete cfg (execute cfg w c)) := by
  cases hr : execute cfg w c with
  | err e => exact hz.resultsInv.of_sameResults ⟨rfl, fun _ => rfl, fun _ _ => rfl⟩
  | okMnemonic l =>
    have hn := execute_okMnemonic_count hr
    obtain ⟨hbelow, habove⟩ := CoreState.reportMnemonic_words hwl l hz hm
    have hw : (c.reportMnemonic cfg l).wcount.toNat = l.length := by
      simp only [List.mem_cons, List.not_mem_nil, or_false] at hn
      rw [(CoreState.reportMnemonic_flags cfg l c).2.2.2, BitVec.toNat_ofNat, Nat.mod_eq_of_lt (by omega)]
    rw [CoreState.complete]
    exact
      { count := by rw [hw]; exact List.mem_cons_of_mem 0 hn
        below := by rw [hw]; exact hbelow
        above := by rw [hw]; exact habove
        seed := fun _ k hk => (CoreState.placeWords_read_outside cfg 0 l _
          (.inl (by rw [Buffer.offset]; omega))).trans (hz.bytes _ (resultOffset_seed hk)) }
  | okSeed d =>
    have hnone := hz.noWordsFrom 0
    refine .of_noWords hz.wcount ⟨hnone.widx, fun i hi k hk => ?_⟩
    have hout : (c.reportSeed d).mem.read (Buffer.offset (.wtext i) + k) = c.mem.read (Buffer.offset (.wtext i) + k) := by
      rw [CoreState.reportSeed_mem]
      refine Memory.read_writeBytes_other _ (.inr ?_)
      rw [Vector.length_toList, wtext_offset]; omega
    exact hout.trans (hnone.wtext i hi k hk)

/-- Settles O30: a completion finds zero results by the status invariant; an issue and a reset leave zero results. -/
theorem stepKeepsResultsInvariant : Obligations.StepKeepsResultsInvariant := by
  intro cfg s t hwl hst hmem h hstep
  rcases stepWith_core_cases hstep with ⟨-, -, ht⟩ | ⟨-, hb, ht⟩ | ⟨_, _, v, -, -, -, -, ht⟩ |
    ⟨_, _, v, tg, -, -, -, ho, ht⟩ | ⟨-, ht⟩ <;> rw [ht]
  · exact h
  · obtain ⟨-, -, -, -, hz⟩ := hst.of_busy hb
    exact CoreState.complete_resultsInv hwl hz hmem.wf
  · exact (CoreState.issue_resultsZero v s.core).resultsInv
  · exact h.of_sameResults (CoreState.writeOperand_frame ho v s.core).1
  · exact (CoreState.reset_resultsZero cfg).resultsInv

end Sys2Proof.Machine
end

section
/-! What one read of a word returns, field by field and lane by lane (10_state.md R21, R24, R25, R33; 20_memory.md R63). -/

namespace Sys2Proof.Machine

/-! ### The fields of a register -/

/-- The bits of `STATUS` (10_state.md R25). -/
theorem CoreState.status_flags (c : CoreState) :
    c.status.getLsbD 0 = c.busy ∧ c.status.getLsbD 1 = c.done ∧ c.status.getLsbD 2 = c.err ∧
    c.status.getLsbD 3 = c.fatal := by
  unfold CoreState.status
  simp only [BitVec.getLsbD_append]
  simp [flag]

/-- The fields of `STATUS` above its flags (10_state.md R25). -/
theorem CoreState.status_fields (c : CoreState) :
    c.status.extractLsb' 4 4 = ecodeBits c.ecode ∧ c.status.extractLsb' 8 24 = 0 := by
  unfold CoreState.status
  constructor
  · simp (disch := omega) only [BitVec.extractLsb'_append_eq_of_le, Nat.reduceSub, BitVec.extractLsb'_append_eq_right]
  · simp (disch := omega) only [BitVec.extractLsb'_append_eq_of_le, Nat.reduceSub, BitVec.extractLsb'_eq_self]
    rfl

/-- The fields of a `WIDX` register as read (10_state.md R33). -/
theorem WordReg.word_fields (r : WordReg) :
    r.word.extractLsb' 0 11 = r.idx ∧ r.word.extractLsb' 11 5 = 0 ∧ r.word.extractLsb' 16 5 = r.wlen ∧
    r.word.extractLsb' 21 11 = 0 := by
  unfold WordReg.word
  refine ⟨?_, ?_, ?_, ?_⟩
  · exact BitVec.extractLsb'_append_eq_right
  · simp (disch := omega) only [BitVec.extractLsb'_append_eq_of_le, Nat.reduceSub, BitVec.extractLsb'_append_eq_right]
    rfl
  · simp (disch := omega) only [BitVec.extractLsb'_append_eq_of_le, Nat.reduceSub, BitVec.extractLsb'_append_eq_right]
  · simp (disch := omega) only [BitVec.extractLsb'_append_eq_of_le, Nat.reduceSub, BitVec.extractLsb'_eq_self]
    rfl

/-- A register of `w` bits read as a wider word: its bits, and `k` zeros above them (20_memory.md R63). -/
theorem setWidth_fields {w k v : Nat} (x : BitVec w) (h : w + k = v) :
    (x.setWidth v).extractLsb' 0 w = x ∧ (x.setWidth v).extractLsb' w k = 0 := by
  constructor
  · rw [BitVec.extractLsb'_setWidth_of_le (by omega), BitVec.extractLsb'_eq_self]
  · ext i hi
    simp

/-- Settles O15, by the bits and the fields of `STATUS`. -/
theorem statusWordHasItsFields : Obligations.StatusWordHasItsFields := by
  intro c
  obtain ⟨hbusy, hdone, herr, hfatal⟩ := c.status_flags
  obtain ⟨hcode, hzero⟩ := c.status_fields
  refine ⟨hbusy, hdone, herr, hfatal, hcode.trans ?_, hzero⟩
  cases c.ecode with
  | none => rfl
  | some e => cases e <;> rfl

/-- Settles O17: `CMD` as it stands, and the fields of each register of fewer than 32 bits. -/
theorem registerWordsHaveTheirFields : Obligations.RegisterWordsHaveTheirFields := by
  intro c
  obtain ⟨he, he0⟩ := setWidth_fields (k := 24) (v := 32) c.elen rfl
  obtain ⟨hm, hm0⟩ := setWidth_fields (k := 23) (v := 32) c.mlen rfl
  obtain ⟨hp, hp0⟩ := setWidth_fields (k := 23) (v := 32) c.plen rfl
  obtain ⟨hw, hw0⟩ := setWidth_fields (k := 27) (v := 32) c.wcount rfl
  exact ⟨rfl, fun i => WordReg.word_fields c.widx[i], he, he0, hm, hm0, hp, hp0, hw, hw0⟩

/-- Settles O16: with `FATAL` no other bit is set; else at most one of `BUSY`, `DONE`, `ERR` is, and `ERR` comes with a
code. -/
theorem statusReadsOneOfSevenValues : Obligations.StatusReadsOneOfSevenValues := by
  intro c h hcode
  obtain ⟨hbd, hbe, hde, hec, hfa, -⟩ := h
  unfold CoreState.status
  cases hf : c.fatal with
  | true =>
    obtain ⟨hb, hd, he, hc⟩ := hfa hf
    rw [hb, hd, he, hc]; decide
  | false =>
    cases he : c.err with
    | true =>
      have hb : c.busy = false := Bool.eq_false_iff.2 fun hb => hbe ⟨hb, he⟩
      have hd : c.done = false := Bool.eq_false_iff.2 fun hd => hde ⟨hd, he⟩
      cases hc : c.ecode with
      | none => exact absurd hc (hec.2 he)
      | some e =>
        rw [hc] at hcode
        rw [hb, hd]
        cases e with
        | indexOutOfRange => exact absurd rfl hcode
        | invalidEntropy | emptyMnemonic | commandError => decide
    | false =>
      have hc : c.ecode = none := not_not.1 fun hc => by simp [hec.1 hc] at he
      rw [hc]
      cases hb : c.busy with
      | true =>
        have hd : c.done = false := Bool.eq_false_iff.2 fun hd => hbd ⟨hb, hd⟩
        rw [hd]; decide
      | false => cases c.done <;> decide

/-! ### The byte lanes of a buffer -/

/-- The four lanes of a packed word, the first byte's the most significant (10_state.md R21). -/
theorem packWord_lanes (b0 b1 b2 b3 : Byte) :
    (packWord b0 b1 b2 b3).extractLsb' 24 8 = b0 ∧ (packWord b0 b1 b2 b3).extractLsb' 16 8 = b1 ∧
    (packWord b0 b1 b2 b3).extractLsb' 8 8 = b2 ∧ (packWord b0 b1 b2 b3).extractLsb' 0 8 = b3 := by
  unfold packWord
  refine ⟨?_, ?_, ?_, ?_⟩
  · simp (disch := omega) only [BitVec.extractLsb'_append_eq_of_le, Nat.reduceSub, BitVec.extractLsb'_eq_self]
  · simp (disch := omega) only [BitVec.extractLsb'_append_eq_of_le, Nat.reduceSub, BitVec.extractLsb'_append_eq_right]
  · simp (disch := omega) only [BitVec.extractLsb'_append_eq_of_le, Nat.reduceSub, BitVec.extractLsb'_append_eq_right]
  · exact BitVec.extractLsb'_append_eq_right

/-- Lane `t` of word `j` of a buffer is byte `4×j + t` (10_state.md R21). -/
theorem CoreState.word_lane (c : CoreState) (b : Buffer) (j : Nat) {t : Nat} (ht : t < 4) :
    (c.word b j).extractLsb' (24 - 8 * t) 8 = c.byte b (4 * j + t) := by
  obtain ⟨h0, h1, h2, h3⟩ := packWord_lanes (c.byte b (4 * j)) (c.byte b (4 * j + 1)) (c.byte b (4 * j + 2))
    (c.byte b (4 * j + 3))
  match t, ht with
  | 0, _ => exact h0
  | 1, _ => exact h1
  | 2, _ => exact h2
  | 3, _ => exact h3

/-- Byte `k` of a buffer is lane `k mod 4` of word `k div 4` (10_state.md R21). -/
theorem CoreState.word_lane_of_byte (c : CoreState) (b : Buffer) (k : Nat) :
    (c.word b (k / 4)).extractLsb' (24 - 8 * (k % 4)) 8 = c.byte b k := by
  rw [c.word_lane b (k / 4) (Nat.mod_lt k (by omega)), Nat.div_add_mod]

/-- Settles O18: the lane of each byte, and from it the bit of each stream position. -/
theorem bufferLanesAreBigEndian : Obligations.BufferLanesAreBigEndian := by
  intro c b
  refine ⟨c.word_lane_of_byte b, fun p => ?_, fun _ => ⟨rfl, rfl⟩, fun _ => ⟨rfl, rfl⟩, fun _ _ => rfl⟩
  have hlane := c.word_lane_of_byte b (p / 8)
  rw [Nat.div_div_eq_div_mul] at hlane
  rw [← hlane, BitVec.getLsbD_extractLsb']
  have hbit : 31 - p % 32 = 24 - 8 * (p / 8 % 4) + (7 - p % 8) := by omega
  rw [hbit, decide_eq_true (by omega), Bool.true_and]

end Sys2Proof.Machine
end

section
/-! What each agent's step leaves alone: the core's, a reset's and the host's (10_state.md R22, R26, R39; 20_memory.md
R64). -/

namespace Sys2Proof.Machine

/-! ### The step of each move -/

/-- An admitted access lies at the offset of the word it names (20_memory.md R63 to R66). -/
theorem addr_of_admittedWord {cfg : Config} {addr n : Nat} {t : Target} (h : admittedWord cfg addr n = some t) :
    n = 4 ∧ addr = cfg.base + t.offset := by
  unfold admittedWord at h
  split at h
  · rename_i hadm
    have hoff := (Target.offset_of_ofOffset h).1
    exact ⟨hadm.1, by omega⟩
  · cases h

/-- The core's step completes the operation in flight and takes its turn (30_encoding.md R101). -/
theorem stepWith_of_nextMove_core (cfg : Config) {s : State} (hm : s.nextMove = .core) :
    stepWith cfg s = .next (s.takeTurn.complete cfg (execute cfg s.core.cmd s.core)) := by
  rw [stepWith, stepOf, hm]
  exact (coreStep_execWith cfg s.takeTurn).trans (by rw [State.takeTurn_core])

/-- The step of a reset resets the CORE alone (70_reset_and_hazards.md R250). -/
theorem stepWith_of_nextMove_reset (cfg : Config) {s : State} (hm : s.nextMove = .host .reset) :
    stepWith cfg s = .next (s.takeTurn.hostResets cfg) := by
  rw [stepWith, stepOf, hm]; rfl

/-! ### Reset -/

/-- After reset `FATAL` is clear exactly under a well-formed wordlist (70_reset_and_hazards.md R253). -/
theorem CoreState.reset_fatal_eq_false_iff (cfg : Config) :
    (CoreState.reset cfg).fatal = false ↔ WordlistWellFormed cfg.wordlist := by
  rw [CoreState.reset_fatal, Bool.not_eq_false', wordlistVerdict_iff]

/-- Settles O24: the state after a reset's step is the reset state, field by field. -/
theorem resetStepSetsEveryRegister : Obligations.ResetStepSetsEveryRegister := by
  intro cfg s hm
  obtain ⟨-, hwidx, hmem⟩ := CoreState.reset_resultsZero cfg
  exact ⟨s.takeTurn.hostResets cfg, stepWith_of_nextMove_reset cfg hm, by simp, by simp, rfl, rfl, rfl, rfl, rfl,
    CoreState.reset_fatal_eq_false_iff cfg, rfl, rfl, rfl, rfl, hwidx, fun _ => rfl, rfl⟩

/-- Settles O25: the reset state has no bit of `STATUS` but `FATAL` set, no bytes, and zero results. -/
theorem resetStateIsSound : Obligations.ResetStateIsSound := fun cfg =>
  ⟨CoreState.reset_statusInv cfg, CoreState.reset_memoryInv cfg, (CoreState.reset_resultsZero cfg).resultsInv, rfl⟩

/-! ### The core's step -/

/-- Settles O32, by the frame of a completion. -/
theorem coreNeverWritesOperands : Obligations.CoreNeverWritesOperands := by
  intro cfg s t hm hstep
  rw [stepWith_of_nextMove_core cfg hm] at hstep
  cases hstep
  simp only [State.complete_core, State.takeTurn_core, State.complete_script, State.takeTurn_script,
    State.complete_received, State.takeTurn_received, and_true]
  obtain ⟨-, hcmd, hfatal, -⟩ := CoreState.complete_fixed cfg (execute cfg s.core.cmd s.core) s.core
  exact ⟨hcmd, CoreState.complete_sameOperands cfg _ s.core, hfatal⟩

/-! ### Before the first accepted command -/

theorem CoreState.untouched_iff (c : CoreState) :
    c.untouched = true ↔ c.busy = false ∧ c.done = false ∧ c.err = false := by
  simp [CoreState.untouched, and_assoc]

/-- An operation in flight is of an accepted command (10_state.md R26). -/
theorem CoreState.untouched_eq_false_of_busy {c : CoreState} (hb : c.busy = true) : c.untouched = false := by
  simp [CoreState.untouched, hb]

/-- A completion sets `DONE` or `ERR` (30_encoding.md R101). -/
theorem CoreState.complete_untouched (cfg : Config) (r : OpResult) (c : CoreState) :
    (c.complete cfg r).untouched = false := by
  cases r with
  | err e => simp [CoreState.complete, CoreState.untouched]
  | okMnemonic l => simp [CoreState.complete, CoreState.untouched, (CoreState.reportMnemonic_flags cfg l c).1]
  | okSeed d => simp [CoreState.complete, CoreState.untouched]

theorem SameStatus.untouched_eq {c d : CoreState} (h : SameStatus c d) : c.untouched = d.untouched := by
  rw [CoreState.untouched, CoreState.untouched, h.busy, h.done, h.err]

/-- Settles O28, by what a step can do to the CORE. -/
theorem untouchedUntilFirstAcceptedCommand : Obligations.UntouchedUntilFirstAcceptedCommand := by
  intro cfg s t hstep
  rcases stepWith_core_cases hstep with ⟨-, -, ht⟩ | ⟨-, hb, ht⟩ | ⟨a, n, v, hm, ha, -, hf, ht⟩ |
    ⟨_, _, v, tg, -, -, -, ho, ht⟩ | ⟨hm, ht⟩
  · rw [ht]
    exact ⟨fun h h' => by simp [h] at h', fun h h' => by simp [h] at h', id⟩
  · have hs := CoreState.untouched_eq_false_of_busy hb
    have htf : t.core.untouched = false := by rw [ht]; exact CoreState.complete_untouched cfg _ s.core
    exact ⟨fun h => by simp [hs] at h, fun _ h => by simp [htf] at h, fun _ h => by simp [htf] at h⟩
  · obtain ⟨rfl, rfl⟩ := addr_of_admittedWord ha
    have htb : t.core.busy = true := by rw [ht]; rfl
    have htf := CoreState.untouched_eq_false_of_busy htb
    exact ⟨fun _ _ => ⟨v, hm, hf, by rw [ht]; rfl, htb⟩, fun _ h => by simp [htf] at h, fun _ h => by simp [htf] at h⟩
  · obtain ⟨-, hst, hcmd, -⟩ := CoreState.writeOperand_frame ho v s.core
    rw [ht, hcmd, hst.untouched_eq]
    exact ⟨fun h h' => by simp [h] at h', fun h h' => by simp [h] at h', id⟩
  · rw [ht]
    exact ⟨fun _ h => by simp [CoreState.untouched] at h, fun _ _ => hm, fun _ _ => rfl⟩

/-! ### The words a host write changes -/

/-- Two words of the map do not overlap (20_memory.md R66). -/
theorem Target.offset_disjoint {a b : Target} (h : a ≠ b) : a.offset + 4 ≤ b.offset ∨ b.offset + 4 ≤ a.offset := by
  have ha := (Target.offset_of_ofOffset (Target.ofOffset_offset a)).2
  have hb := (Target.offset_of_ofOffset (Target.ofOffset_offset b)).2
  have hne : a.offset ≠ b.offset := fun heq =>
    h (Option.some.inj (by rw [← Target.ofOffset_offset a, heq, Target.ofOffset_offset]))
  omega

/-- A word of a buffer depends on its four bytes of the memory alone. -/
theorem CoreState.word_withMem (c : CoreState) {m : Memory} {b : Buffer} {j : Nat}
    (h : ∀ k, k < 4 → m.read (b.offset + 4 * j + k) = c.mem.read (b.offset + 4 * j + k)) :
    ({ c with mem := m } : CoreState).word b j = c.word b j := by
  have hbyte : ∀ k, k < 4 → ({ c with mem := m } : CoreState).byte b (4 * j + k) = c.byte b (4 * j + k) := by
    intro k hk
    have := h k hk
    rwa [Nat.add_assoc] at this
  rw [CoreState.word, CoreState.word, hbyte 1 (by omega), hbyte 2 (by omega), hbyte 3 (by omega)]
  exact congrArg (packWord · _ _ _) (hbyte 0 (by omega))

/-- A word of the map depends on the memory through the four bytes at its offset alone. -/
theorem CoreState.readWord_withMem (c : CoreState) {m : Memory} (t : Target)
    (h : ∀ k, k < 4 → m.read (t.offset + k) = c.mem.read (t.offset + k)) :
    ({ c with mem := m } : CoreState).readWord t = c.readWord t := by
  cases t with
  | cmd | status | elen | mlen | plen | wcount | widx _ => rfl
  | ebuf _ | seed _ | mbuf _ | pbuf _ | wtext _ _ => exact CoreState.word_withMem c h

/-- A store to one word of the map leaves every other word as it reads. -/
theorem CoreState.readWord_storeWord_other (c : CoreState) (v : Word) {t other : Target} (h : other ≠ t) :
    ({ c with mem := c.mem.writeWord t.offset v } : CoreState).readWord other = c.readWord other := by
  refine CoreState.readWord_withMem c other fun k hk => Memory.read_writeWord_other v ?_
  have := Target.offset_disjoint h
  omega

/-- An operand write leaves every other word of the map as it reads. -/
theorem CoreState.readWord_writeOperand_other (c : CoreState) (v : Word) {t other : Target} (h : other ≠ t) :
    (c.writeOperand t v).readWord other = c.readWord other := by
  unfold CoreState.writeOperand
  split
  · rfl
  · cases t with
    | cmd | status | wcount | seed _ | widx _ | wtext _ _ => rfl
    | elen => cases other with
      | elen => exact absurd rfl h
      | _ => rfl
    | mlen => cases other with
      | mlen => exact absurd rfl h
      | _ => rfl
    | plen => cases other with
      | plen => exact absurd rfl h
      | _ => rfl
    | ebuf _ | mbuf _ | pbuf _ => exact CoreState.readWord_storeWord_other c v h

/-- Settles O33: with the core, a reset and an accepted command excluded, a step leaves the CORE as it was or writes one
operand word. -/
theorem hostChangesResultsOnlyByCommandOrReset : Obligations.HostChangesResultsOnlyByCommandOrReset := by
  intro cfg s t hstep hcore hreset hcmd
  rcases stepWith_core_cases hstep with ⟨-, -, ht⟩ | ⟨hm, -⟩ | ⟨a, n, v, hm, ha, hb, hf, -⟩ |
    ⟨a, n, v, tg, hm, ha, hb, ho, ht⟩ | ⟨hm, -⟩
  · rw [ht]
    exact ⟨.refl _, .refl _, rfl, ⟨.cmd, fun _ _ => rfl⟩, fun _ h => absurd rfl h⟩
  · exact absurd hm hcore
  · obtain ⟨rfl, rfl⟩ := addr_of_admittedWord ha
    have := hcmd v hm
    simp [CoreState.accepts, hb, hf] at this
  · obtain ⟨rfl, rfl⟩ := addr_of_admittedWord ha
    obtain ⟨hres, hst, hcmd', -⟩ := CoreState.writeOperand_frame ho v s.core
    have hother : ∀ other, other ≠ tg → t.core.readWord other = s.core.readWord other := fun other hne => by
      rw [ht]; exact CoreState.readWord_writeOperand_other s.core v hne
    refine ⟨ht ▸ hres, ht ▸ hst, ht ▸ hcmd', ⟨tg, hother⟩, fun tg' hne => ?_⟩
    obtain rfl : tg' = tg := not_not.1 fun h => hne (hother tg' h)
    exact ⟨ho, hb, v, hm⟩
  · exact absurd hm hreset

/-! ### GENMNEM reads its operand alone -/

/-- A read after a store, at any offset. -/
theorem Memory.read_write {m : Memory} (h : m.wf = true) (a x : Nat) (v : Byte) :
    (m.write a v).read x = if x = a then v else m.read x := by
  split
  · subst_vars; exact Memory.read_write_same h
  · exact Memory.read_write_other v ‹_›

/-- The same bytes stored in two memories that agree at an offset leave them agreeing there. -/
theorem Memory.read_writeBytes_congr {m n : Memory} (hm : m.wf = true) (hn : n.wf = true) (a : Nat) (bs : ByteString)
    {x : Nat} (h : m.read x = n.read x) : (m.writeBytes a bs).read x = (n.writeBytes a bs).read x := by
  induction bs generalizing m n a with
  | nil => exact h
  | cons b bs ih =>
    refine ih (Memory.wf_write a b hm) (Memory.wf_write a b hn) (a + 1) ?_
    rw [Memory.read_write hm, Memory.read_write hn, h]

theorem CoreState.placeWord_sameResults (cfg : Config) (i : Nat) (idx : WordIndex) {c d : CoreState}
    (h : SameResults c d) (hc : c.mem.wf = true) (hd : d.mem.wf = true) :
    SameResults (c.placeWord cfg i idx) (d.placeWord cfg i idx) where
  wcount := by
    obtain ⟨_, _, hc'⟩ := CoreState.placeWord_fields cfg i idx c
    obtain ⟨_, _, hd'⟩ := CoreState.placeWord_fields cfg i idx d
    rw [hc', hd']; exact h.wcount
  widx k := by rw [CoreState.placeWord_widx, CoreState.placeWord_widx, h.widx]
  bytes a ha := by
    unfold CoreState.placeWord
    split
    · exact Memory.read_writeBytes_congr hc hd _ _ (h.bytes a ha)
    · exact h.bytes a ha

theorem CoreState.placeWords_sameResults (cfg : Config) (i : Nat) (l : List WordIndex) {c d : CoreState}
    (h : SameResults c d) (hc : c.mem.wf = true) (hd : d.mem.wf = true) :
    SameResults (CoreState.placeWords cfg i l c) (CoreState.placeWords cfg i l d) := by
  induction l generalizing i c d with
  | nil => exact h
  | cons idx l ih =>
    exact ih (i + 1) (CoreState.placeWord_sameResults cfg i idx h hc hd) (CoreState.placeWord_wf cfg i idx hc)
      (CoreState.placeWord_wf cfg i idx hd)

/-- The results after a completion depend on the results before it alone. -/
theorem CoreState.complete_sameResults (cfg : Config) (r : OpResult) {c d : CoreState} (h : SameResults c d)
    (hc : c.mem.wf = true) (hd : d.mem.wf = true) : SameResults (c.complete cfg r) (d.complete cfg r) := by
  cases r with
  | err e => exact ⟨h.wcount, h.widx, h.bytes⟩
  | okMnemonic l => exact CoreState.placeWords_sameResults cfg 0 l ⟨rfl, h.widx, h.bytes⟩ hc hd
  | okSeed seed =>
    exact ⟨h.wcount, h.widx, fun a ha => Memory.read_writeBytes_congr hc hd _ _ (h.bytes a ha)⟩

/-- The status after a completion depends on the status before it alone. -/
theorem CoreState.complete_sameStatus (cfg : Config) (r : OpResult) {c d : CoreState} (h : SameStatus c d) :
    SameStatus (c.complete cfg r) (d.complete cfg r) := by
  cases r with
  | err e => exact ⟨rfl, h.done, rfl, h.fatal, rfl⟩
  | okMnemonic l =>
    obtain ⟨hbc, -, hfc, -⟩ := CoreState.complete_fixed cfg (.okMnemonic l) c
    obtain ⟨hbd, -, hfd, -⟩ := CoreState.complete_fixed cfg (.okMnemonic l) d
    obtain ⟨hdc, hec, hcc, -⟩ := CoreState.reportMnemonic_flags cfg l c
    obtain ⟨hdd, hed, hcd, -⟩ := CoreState.reportMnemonic_flags cfg l d
    exact ⟨hbc.trans hbd.symm, hdc.trans hdd.symm, hec.trans (h.err.trans hed.symm),
      hfc.trans (h.fatal.trans hfd.symm), hcc.trans (h.ecode.trans hcd.symm)⟩
  | okSeed seed => exact ⟨rfl, rfl, h.err, h.fatal, h.ecode⟩

/-- The entropy operand is `ELEN` and the bytes it counts, and no byte where it is absent or too long (30_encoding.md
R95). -/
theorem entropyOperand_congr (cfg : Config) {ep : Bool} {c d : CoreState} (hlen : ep = true → c.elen = d.elen)
    (hbytes : ep = true → c.elen.toNat ≤ 32 → ∀ k, k < c.elen.toNat → c.byte .ebuf k = d.byte .ebuf k) :
    entropyOperand cfg ep c = entropyOperand cfg ep d := by
  cases ep with
  | false => rfl
  | true =>
    unfold entropyOperand
    rw [← hlen rfl]
    by_cases h32 : c.elen.toNat ≤ Config.entropyMaxBytes
    · have : c.bytes .ebuf c.elen.toNat = d.bytes .ebuf c.elen.toNat :=
        List.map_congr_left fun k hk => hbytes rfl h32 k (List.mem_range.1 hk)
      rw [this]
    · simp only [if_neg h32]

/-- Settles O38: equal operands give one result, and its completion keeps equal status and results equal. -/
theorem genmnemReadsOnlyItsOperand : Obligations.GenmnemReadsOnlyItsOperand := by
  intro cfg ep s s' hlen hbytes hst hres hwf hwf'
  have hop : genmnem cfg ep s'.core = genmnem cfg ep s.core := by
    rw [genmnem, genmnem, entropyOperand_congr cfg hlen hbytes]
  refine ⟨_, _, execWith_genmnem cfg ep s, execWith_genmnem cfg ep s', ?_⟩
  rw [hop]
  exact ⟨CoreState.complete_sameStatus cfg _ hst, CoreState.complete_sameResults cfg _ hres hwf hwf'⟩

end Sys2Proof.Machine
end

section
/-! The host's accesses (20_memory.md R63 to R68): which are admitted, the step of each, and what a write stores. -/

namespace Sys2Proof.Machine

/-! ### The address map and admission -/

/-- A word of the map lies at a multiple of 4 (20_memory.md R66). -/
theorem Target.offset_mod_four (t : Target) : t.offset % 4 = 0 :=
  (Target.offset_of_ofOffset (Target.ofOffset_offset t)).2

theorem Target.offset_injective : Function.Injective Target.offset := fun a b h => by
  by_contra hne
  have := Target.offset_disjoint hne
  omega

/-- Every word of the map lies in the block and outside the reserved ranges (20_memory.md R66). -/
theorem Target.offset_not_reserved (t : Target) :
    t.offset < 0x600 ∧ ¬(0x018 ≤ t.offset ∧ t.offset < 0x040) ∧ ¬(0x120 ≤ t.offset ∧ t.offset < 0x200) ∧
    ¬(0x580 ≤ t.offset) := by
  cases t with
  | cmd | status | elen | mlen | plen | wcount => decide
  | ebuf j | seed j | widx j | mbuf j | pbuf j | wtext i j => simp only [Target.offset]; omega

/-- An aligned offset in one of the defined ranges is that of a word (20_memory.md R66). -/
theorem Target.exists_offset {off : Nat} (h4 : off % 4 = 0)
    (h : off < 0x018 ∨ (0x040 ≤ off ∧ off < 0x120) ∨ (0x200 ≤ off ∧ off < 0x580)) : ∃ t : Target, t.offset = off := by
  rcases h with hreg | ⟨hlo, hhi⟩ | ⟨hlo, hhi⟩
  · obtain rfl | rfl | rfl | rfl | rfl | rfl : off = 0x000 ∨ off = 0x004 ∨ off = 0x008 ∨ off = 0x00C ∨ off = 0x010 ∨
      off = 0x014 := by omega
    exacts [⟨.cmd, rfl⟩, ⟨.status, rfl⟩, ⟨.elen, rfl⟩, ⟨.mlen, rfl⟩, ⟨.plen, rfl⟩, ⟨.wcount, rfl⟩]
  · rcases Nat.lt_or_ge off 0x080 with hebuf | hseed
    · exact ⟨.ebuf ⟨(off - 0x040) / 4, by omega⟩, by simp only [Target.offset]; omega⟩
    · rcases Nat.lt_or_ge off 0x0C0 with hseed' | hwidx
      · exact ⟨.seed ⟨(off - 0x080) / 4, by omega⟩, by simp only [Target.offset]; omega⟩
      · exact ⟨.widx ⟨(off - 0x0C0) / 4, by omega⟩, by simp only [Target.offset]; omega⟩
  · rcases Nat.lt_or_ge off 0x300 with hmbuf | hpbuf
    · exact ⟨.mbuf ⟨(off - 0x200) / 4, by omega⟩, by simp only [Target.offset]; omega⟩
    · rcases Nat.lt_or_ge off 0x400 with hpbuf' | hwtext
      · exact ⟨.pbuf ⟨(off - 0x300) / 4, by omega⟩, by simp only [Target.offset]; omega⟩
      · exact ⟨.wtext ⟨(off - 0x400) / 16, by omega⟩ ⟨(off - 0x400) % 16 / 4, by omega⟩, by
          simp only [Target.offset]; omega⟩

/-- Settles O13: the offsets as the map gives them, read both ways. -/
theorem addressMapHasNoAliases : Obligations.AddressMapHasNoAliases :=
  ⟨⟨rfl, rfl, rfl, rfl, rfl, rfl, fun _ => ⟨rfl, rfl⟩, fun _ => rfl, fun _ => ⟨rfl, rfl⟩, fun _ _ => rfl⟩,
    fun _ _ h => Target.offset_injective h,
    fun a => ⟨a.offset_mod_four, a.offset_not_reserved⟩,
    fun off h4 _ hlow hmid hhigh => Target.exists_offset h4 (by omega)⟩

/-- Settles O11: an admitted access lies at its word, and the access at a word is admitted as it. -/
theorem accessIsAdmittedExactlyAtDefinedWords : Obligations.AccessIsAdmittedExactlyAtDefinedWords := by
  intro cfg addr n tg
  constructor
  · intro h
    obtain ⟨hn, haddr⟩ := addr_of_admittedWord h
    have hoff := tg.offset_mod_four
    exact ⟨hn, by rw [haddr, Config.base]; omega, haddr⟩
  · rintro ⟨rfl, -, rfl⟩
    exact admittedWord_offset cfg tg

theorem admittedWord_eq_none_iff {cfg : Config} {addr n : Nat} :
    admittedWord cfg addr n = none ↔ ¬(n = 4 ∧ addr % 4 = 0 ∧ ∃ tg : Target, addr = cfg.base + tg.offset) := by
  rw [Option.eq_none_iff_forall_ne_some, ← not_exists, not_iff_not]
  simp only [accessIsAdmittedExactlyAtDefinedWords cfg addr n, exists_and_left]

/-! ### The step of a host statement -/

/-- When the host moves, the step performs its statement after the turn is taken. -/
theorem stepWith_of_nextMove_host (cfg : Config) {s : State} {st : HostStmt} (hm : s.nextMove = .host st) :
    stepWith cfg s = hostStep cfg st s.takeTurn := by
  rw [stepWith, stepOf, hm]

/-- The step of a read at a word (20_memory.md R63). -/
theorem stepWith_of_nextMove_read {cfg : Config} {s : State} {tg : Target}
    (hm : s.nextMove = .host (.read (cfg.base + tg.offset) 4)) :
    stepWith cfg s = .next (s.takeTurn.hostReceives (s.core.readWord tg)) := by
  rw [stepWith_of_nextMove_host cfg hm, hostStep, admittedWord_offset, State.takeTurn_core]

/-- The step of a write at a word (20_memory.md R64). -/
theorem stepWith_of_nextMove_write {cfg : Config} {s : State} {tg : Target} {v : Word}
    (hm : s.nextMove = .host (.write (cfg.base + tg.offset) 4 v)) :
    stepWith cfg s = .next { s.takeTurn with script := s.script.tail, core := s.core.writeWord tg v } := by
  rw [stepWith_of_nextMove_host cfg hm, hostStep, admittedWord_offset]
  simp only [State.hostWrites, State.takeTurn_script, State.takeTurn_core]

/-- Where the CORE ignores a write, its step removes the statement alone. -/
theorem stepWith_of_write_ignored {cfg : Config} {s : State} {tg : Target} {v : Word}
    (hm : s.nextMove = .host (.write (cfg.base + tg.offset) 4 v)) (hw : s.core.writeWord tg v = s.core) :
    stepWith cfg s = .next { s.takeTurn with script := s.script.tail } := by
  rw [stepWith_of_nextMove_write hm, hw, ← State.takeTurn_core s]

/-- A host statement is performed and leaves a suffix of the script, or it is refused for an access that is not admitted
(20_memory.md R65). -/
theorem hostStep_next_or_refused (cfg : Config) (st : HostStmt) (s : State) :
    (∃ t, hostStep cfg st s = .next t ∧ t.script <:+ s.script) ∨
    (∃ addr n, hostStep cfg st s = .refused (.accessNotAdmitted addr n) ∧ admittedWord cfg addr n = none ∧
      st.wellFormed cfg = false) := by
  cases st with
  | read addr n =>
    cases ha : admittedWord cfg addr n with
    | some tg => exact .inl ⟨_, by rw [hostStep, ha], List.tail_suffix _⟩
    | none => exact .inr ⟨addr, n, by rw [hostStep, ha], ha, by rw [HostStmt.wellFormed, ha]; rfl⟩
  | write addr n v =>
    cases ha : admittedWord cfg addr n with
    | some tg => exact .inl ⟨_, by rw [hostStep, ha], List.tail_suffix _⟩
    | none => exact .inr ⟨addr, n, by rw [hostStep, ha], ha, by rw [HostStmt.wellFormed, ha]; rfl⟩
  | poll =>
    cases hb : s.core.busy with
    | true => exact .inl ⟨s, by rw [hostStep, if_pos hb], List.suffix_rfl⟩
    | false => exact .inl ⟨_, by rw [hostStep, if_neg (by simp [hb])], List.tail_suffix _⟩
  | reset => exact .inl ⟨_, rfl, List.tail_suffix _⟩

/-- A step has a next state whose script is a suffix of the script, or it is refused for an access of the script that is
not admitted. -/
theorem stepWith_next_or_refused (cfg : Config) (s : State) :
    (∃ t, stepWith cfg s = .next t ∧ t.script <:+ s.script) ∨
    (∃ addr n, stepWith cfg s = .refused (.accessNotAdmitted addr n) ∧ admittedWord cfg addr n = none ∧
      s.scriptAdmitted cfg = false) := by
  cases hm : s.nextMove with
  | idle => exact .inl ⟨s, by rw [stepWith, stepOf, hm], List.suffix_rfl⟩
  | core =>
    exact .inl ⟨_, stepWith_of_nextMove_core cfg hm, by rw [State.complete_script, State.takeTurn_script]⟩
  | host st =>
    rw [stepWith_of_nextMove_host cfg hm]
    rcases hostStep_next_or_refused cfg st s.takeTurn with ⟨t, ht, hsuf⟩ | ⟨addr, n, hr, ha, hst⟩
    · exact .inl ⟨t, ht, s.takeTurn_script ▸ hsuf⟩
    · refine .inr ⟨addr, n, hr, ha, ?_⟩
      rw [State.scriptAdmitted, State.script_of_nextMove hm, List.all_cons, hst, Bool.false_and]

theorem State.scriptAdmitted_of_suffix {cfg : Config} {s t : State} (hsuf : t.script <:+ s.script)
    (h : s.scriptAdmitted cfg = true) : t.scriptAdmitted cfg = true :=
  List.all_eq_true.2 fun st hst => List.all_eq_true.1 h st (hsuf.mem hst)

/-- Settles O8, by the two outcomes of a step. -/
theorem admittedScriptsAreNeverStopped : Obligations.AdmittedScriptsAreNeverStopped := by
  refine ⟨fun _ _ f => (nomatch f), fun cfg s r hr => ?_, fun cfg s hadm => ?_⟩
  · rcases stepWith_next_or_refused cfg s with ⟨t, ht, -⟩ | ⟨addr, n, href, ha, -⟩
    · rw [ht] at hr; cases hr
    · rw [href] at hr; cases hr
      exact ⟨addr, n, rfl, ha⟩
  · rcases stepWith_next_or_refused cfg s with ⟨t, ht, hsuf⟩ | ⟨_, _, -, -, hnot⟩
    · exact ⟨t, ht, State.scriptAdmitted_of_suffix hsuf hadm⟩
    · rw [hadm] at hnot; cases hnot

/-- Settles O12: a read or write whose access names no word is refused. -/
theorem unadmittedAccessIsRefused : Obligations.UnadmittedAccessIsRefused := by
  intro cfg s addr n h
  have ha : admittedWord cfg addr n = none := admittedWord_eq_none_iff.2 h
  exact ⟨fun hm => by rw [stepWith_of_nextMove_host cfg hm, hostStep, ha],
    fun v hm => by rw [stepWith_of_nextMove_host cfg hm, hostStep, ha]⟩

/-- Settles O14, by the step of a read. -/
theorem hostReadReturnsTheWord : Obligations.HostReadReturnsTheWord := by
  intro cfg s tg hm
  rw [stepWith_of_nextMove_read hm, State.hostReceives, State.takeTurn_script, State.takeTurn_received]

/-! ### What a write stores -/

/-- While an operation is in flight every write is ignored (20_memory.md R67, R68; 30_encoding.md R100). -/
theorem CoreState.writeWord_of_busy {c : CoreState} (hb : c.busy = true) (t : Target) (v : Word) :
    c.writeWord t v = c := by
  rcases CoreState.writeWord_cases t v c with hc | ⟨-, hb', -⟩ | ⟨hb', -⟩
  · exact hc
  · rw [hb] at hb'; cases hb'
  · rw [hb] at hb'; cases hb'

/-- A write to a read-only word is ignored (20_memory.md R68). -/
theorem CoreState.writeWord_of_readOnly {t : Target} (hr : t.readOnly = true) (v : Word) (c : CoreState) :
    c.writeWord t v = c := by
  cases t with
  | cmd | elen | mlen | plen | ebuf _ | mbuf _ | pbuf _ => cases hr
  | status | wcount | seed _ | widx _ | wtext _ _ => rfl

/-- A write to `ELEN` stores its low 8 bits (10_state.md R27). -/
theorem CoreState.writeWord_elen (v : Word) (c : CoreState) :
    c.writeWord .elen v = if c.busy then c else { c with elen := v.extractLsb' 0 8 } := by
  rw [← BitVec.setWidth_eq_extractLsb' (by omega)]; rfl

/-- A write to `MLEN` stores its low 9 bits (10_state.md R28). -/
theorem CoreState.writeWord_mlen (v : Word) (c : CoreState) :
    c.writeWord .mlen v = if c.busy then c else { c with mlen := v.extractLsb' 0 9 } := by
  rw [← BitVec.setWidth_eq_extractLsb' (by omega)]; rfl

/-- A write to `PLEN` stores its low 9 bits (10_state.md R29). -/
theorem CoreState.writeWord_plen (v : Word) (c : CoreState) :
    c.writeWord .plen v = if c.busy then c else { c with plen := v.extractLsb' 0 9 } := by
  rw [← BitVec.setWidth_eq_extractLsb' (by omega)]; rfl

/-- Settles O20: while busy the CORE ignores the write. -/
theorem operandWriteWhileBusyIsIgnored : Obligations.OperandWriteWhileBusyIsIgnored :=
  fun _ _ tg v hb _ hm => stepWith_of_write_ignored hm (CoreState.writeWord_of_busy hb tg v)

/-- Settles O21: a read-only word ignores the write, and a length register stores its low bits. -/
theorem readOnlyWriteIsIgnored : Obligations.ReadOnlyWriteIsIgnored := by
  refine ⟨fun _ s tg v hr hm => stepWith_of_write_ignored hm (CoreState.writeWord_of_readOnly hr v s.core),
    fun c v v' h => ?_, fun c v v' h => ⟨?_, ?_⟩, fun c v hb => ⟨?_, ?_, ?_⟩⟩
  · rw [CoreState.writeWord_elen, CoreState.writeWord_elen, h]
  · rw [CoreState.writeWord_mlen, CoreState.writeWord_mlen, h]
  · rw [CoreState.writeWord_plen, CoreState.writeWord_plen, h]
  · rw [CoreState.writeWord_elen, if_neg (by simp [hb])]
  · rw [CoreState.writeWord_mlen, if_neg (by simp [hb])]
  · rw [CoreState.writeWord_plen, if_neg (by simp [hb])]

/-! ### An operand word reads back -/

/-- A word's low `w` bits, the others zero, are the word under a mask of `w` ones. -/
theorem extractLsb'_setWidth_eq_and {k : Nat} (w : Nat) (x : BitVec k) :
    (x.extractLsb' 0 w).setWidth k = x &&& (BitVec.allOnes w).setWidth k := by
  ext i hi
  simp [hi, Bool.and_comm]

/-- The four lanes of a word packed again are the word (10_state.md R21). -/
theorem packWord_wordByte (v : Word) : packWord (wordByte v 0) (wordByte v 1) (wordByte v 2) (wordByte v 3) = v := by
  simp only [packWord, wordByte, Nat.reduceMul, Nat.reduceSub]
  rw [BitVec.extractLsb'_append_extractLsb'_eq_extractLsb' (show 24 = 16 + 8 from rfl),
    BitVec.extractLsb'_append_extractLsb'_eq_extractLsb' (show 16 = 8 + 8 from rfl),
    BitVec.extractLsb'_append_extractLsb'_eq_extractLsb' (show 8 = 0 + 8 from rfl), BitVec.extractLsb'_eq_self]

/-- A word stored at the offset of a buffer's word reads back (10_state.md R21). -/
theorem CoreState.word_writeWord_same (c : CoreState) (h : c.mem.wf = true) (b : Buffer) (j : Nat) {off : Nat}
    (hoff : off = b.offset + 4 * j) (v : Word) : ({ c with mem := c.mem.writeWord off v } : CoreState).word b j = v := by
  have hlane : ∀ k, k < 4 → ({ c with mem := c.mem.writeWord off v } : CoreState).byte b (4 * j + k) = wordByte v k := by
    intro k hk
    rw [CoreState.byte, ← Nat.add_assoc, ← hoff]
    exact Memory.read_writeWord_same v h hk
  have hlane0 := hlane 0 (by omega)
  rw [Nat.add_zero] at hlane0
  rw [CoreState.word, hlane0, hlane 1 (by omega), hlane 2 (by omega), hlane 3 (by omega), packWord_wordByte]

/-- A store to an operand word of a buffer reads back. -/
theorem CoreState.readWord_storeWord_same (c : CoreState) (h : c.mem.wf = true) {t : Target} (ho : t.isOperand = true)
    (hbuf : 0x040 ≤ t.offset) (v : Word) :
    ({ c with mem := c.mem.writeWord t.offset v } : CoreState).readWord t = v := by
  cases t with
  | cmd | status | wcount | seed _ | widx _ | wtext _ _ => cases ho
  | elen | mlen | plen => exact absurd hbuf (by decide)
  | ebuf j => exact CoreState.word_writeWord_same c h .ebuf j.val rfl v
  | mbuf j => exact CoreState.word_writeWord_same c h .mbuf j.val rfl v
  | pbuf j => exact CoreState.word_writeWord_same c h .pbuf j.val rfl v

/-- Settles O19: the step of a write, the word stored and read back, and every other word as it was. -/
theorem operandWriteReadsBack : Obligations.OperandWriteReadsBack := by
  refine ⟨fun _ _ _ _ _ _ hm => stepWith_of_nextMove_write hm, fun c tg v hb hwf ho => ⟨?_, fun other hne => ?_⟩⟩
  · cases tg with
    | cmd | status | wcount | seed _ | widx _ | wtext _ _ => cases ho
    | elen =>
      rw [CoreState.writeWord_elen, if_neg (by simp [hb])]
      exact extractLsb'_setWidth_eq_and 8 v
    | mlen =>
      rw [CoreState.writeWord_mlen, if_neg (by simp [hb])]
      exact extractLsb'_setWidth_eq_and 9 v
    | plen =>
      rw [CoreState.writeWord_plen, if_neg (by simp [hb])]
      exact extractLsb'_setWidth_eq_and 9 v
    | ebuf j | mbuf j | pbuf j =>
      rw [CoreState.writeWord_bytes ho (by simp only [Target.offset]; omega) v hb]
      exact CoreState.readWord_storeWord_same c hwf ho (by simp only [Target.offset]; omega) v
  · rw [CoreState.writeWord_of_isOperand ho]
    exact CoreState.readWord_writeOperand_other c v hne

end Sys2Proof.Machine
end

section
/-! The decoder and the encoder are inverse, and the command words are the rows of the opcode table (30_encoding.md R90
to R94). -/

namespace Sys2Proof

theorem decode_encode (i : Instr) : decode (encode i) = some i := by
  cases i with
  | genmnem ep => exact (decode_genmnem_iff _ ep).2 (encode_genmnem_fields ep)
  | genseed mp pp => exact (decode_genseed_iff _ mp pp).2 (encode_genseed_fields mp pp)

/-- A word that decodes has the fields of the command's encoding, and a word is its fields. -/
theorem encode_of_decode {w : Word} {i : Instr} (h : decode w = some i) : encode i = w := by
  cases i with
  | genmnem ep =>
    obtain ⟨hrsv, hopc, hmp, hpp, hep⟩ := (decode_genmnem_iff w ep).1 h
    obtain ⟨hrsv', hopc', hmp', hpp', hep'⟩ := encode_genmnem_fields ep
    exact CommandWord.ext (hopc'.trans hopc.symm) (hep'.trans hep.symm) (hmp'.trans hmp.symm) (hpp'.trans hpp.symm)
      (hrsv'.trans hrsv.symm)
  | genseed mp pp =>
    obtain ⟨hrsv, hopc, hep, hmp, hpp⟩ := (decode_genseed_iff w mp pp).1 h
    obtain ⟨hrsv', hopc', hep', hmp', hpp'⟩ := encode_genseed_fields mp pp
    exact CommandWord.ext (hopc'.trans hopc.symm) (hep'.trans hep.symm) (hmp'.trans hmp.symm) (hpp'.trans hpp.symm)
      (hrsv'.trans hrsv.symm)

theorem decode_eq_some_iff (w : Word) (i : Instr) : decode w = some i ↔ w = encode i :=
  ⟨fun h => (encode_of_decode h).symm, fun h => h ▸ decode_encode i⟩

/-- Settles O2: each command's encoding has the fields the decoder asks for, and these fields are the whole word. -/
theorem decodeAndEncodeAgree : Obligations.DecodeAndEncodeAgree :=
  ⟨decode_encode, fun _ _ => encode_of_decode⟩

/-- Settles O1: six words are encodings, and eight decode to nothing. -/
theorem writtenCommandWordsDecode : Obligations.WrittenCommandWordsDecode :=
  ⟨decode_encode (.genmnem false), decode_encode (.genmnem true), decode_encode (.genseed false false),
    decode_encode (.genseed true false), decode_encode (.genseed false true), decode_encode (.genseed true true),
    by decide⟩

/-! ### The rows of the opcode table -/

/-- A word is its bits under a mask and its bits outside it. -/
theorem and_or_and_not (w m : Word) : (w &&& m) ||| (w &&& ~~~m) = w := by
  rw [← BitVec.and_or_distrib_left, BitVec.or_not_self, BitVec.and_allOnes]

/-- One bit of a word is its flag put back in place. -/
theorem and_one_shiftLeft (w : Word) (k : Nat) : w &&& (1#32 <<< k) = bitAt (w.getLsbD k) k := by
  rw [← BitVec.twoPow_eq, BitVec.and_twoPow, bitAt]; rfl

/-- A word selects the row of `GENMNEM` exactly when it is an encoding of it with the word's own `EP` (30_encoding.md
R91). -/
theorem eq_encode_genmnem_iff (w : Word) (ep : Bool) :
    w = encode (.genmnem ep) ↔ w &&& 0xFFFFFEFF = 0x00000001 ∧ ep = w.getLsbD 8 := by
  constructor
  · rintro rfl
    cases ep <;> decide
  · rintro ⟨hm, rfl⟩
    calc w = (w &&& (0xFFFFFEFF : Word)) ||| (w &&& (1#32 <<< 8 : Word)) := (and_or_and_not w 0xFFFFFEFF).symm
      _ = encode (.genmnem (w.getLsbD 8)) := by rw [hm, and_one_shiftLeft]; rfl

/-- A word selects the row of `GENSEED` exactly when it is an encoding of it with the word's own `MP` and `PP`
(30_encoding.md R91). -/
theorem eq_encode_genseed_iff (w : Word) (mp pp : Bool) :
    w = encode (.genseed mp pp) ↔ w &&& 0xFFFFF9FF = 0x00000002 ∧ mp = w.getLsbD 9 ∧ pp = w.getLsbD 10 := by
  constructor
  · rintro rfl
    cases mp <;> cases pp <;> decide
  · rintro ⟨hm, rfl, rfl⟩
    calc w = (w &&& (0xFFFFF9FF : Word)) ||| (w &&& (1#32 <<< 9 ||| 1#32 <<< 10 : Word)) :=
        (and_or_and_not w 0xFFFFF9FF).symm
      _ = encode (.genseed (w.getLsbD 9) (w.getLsbD 10)) := by
        rw [hm, BitVec.and_or_distrib_left, and_one_shiftLeft, and_one_shiftLeft, ← BitVec.or_assoc]; rfl

/-- Six words decode (30_encoding.md R91). -/
theorem decode_isSome_iff (w : Word) : (decode w).isSome = true ↔
    w ∈ [0x00000001, 0x00000101, 0x00000002, 0x00000202, 0x00000402, 0x00000602] := by
  constructor
  · intro h
    obtain ⟨i, hi⟩ := Option.isSome_iff_exists.1 h
    rw [← encode_of_decode hi]
    cases i with
    | genmnem ep => cases ep <;> decide
    | genseed mp pp => cases mp <;> cases pp <;> decide
  · intro h
    simp only [List.mem_cons, List.not_mem_nil, or_false] at h
    rcases h with rfl | rfl | rfl | rfl | rfl | rfl <;> decide

/-- Settles O3: a word decodes exactly to what it encodes, and the row's mask and match leave the row's flags free. -/
theorem wordsSelectTheirRow : Obligations.WordsSelectTheirRow :=
  ⟨fun w ep => (decode_eq_some_iff w _).trans (eq_encode_genmnem_iff w ep),
    fun w mp pp => (decode_eq_some_iff w _).trans (eq_encode_genseed_iff w mp pp), decode_isSome_iff⟩

/-! ### Illegal words -/

/-- A word decodes to nothing exactly when neither row has its fields. -/
theorem decode_eq_none_iff_fields (w : Word) : decode w = none ↔
    ¬(CommandWord.rsv w = 0 ∧ CommandWord.opc w = 0x01 ∧ CommandWord.mp w = false ∧ CommandWord.pp w = false) ∧
    ¬(CommandWord.rsv w = 0 ∧ CommandWord.opc w = 0x02 ∧ CommandWord.ep w = false) := by
  rw [Option.eq_none_iff_forall_ne_some]
  constructor
  · refine fun h => ⟨fun ⟨hrsv, hopc, hmp, hpp⟩ => ?_, fun ⟨hrsv, hopc, hep⟩ => ?_⟩
    · exact h _ ((decode_genmnem_iff w _).2 ⟨hrsv, hopc, hmp, hpp, rfl⟩)
    · exact h _ ((decode_genseed_iff w _ _).2 ⟨hrsv, hopc, hep, rfl, rfl⟩)
  · rintro ⟨hgenmnem, hgenseed⟩ i hi
    cases i with
    | genmnem ep =>
      obtain ⟨hrsv, hopc, hmp, hpp, -⟩ := (decode_genmnem_iff w ep).1 hi
      exact hgenmnem ⟨hrsv, hopc, hmp, hpp⟩
    | genseed mp pp =>
      obtain ⟨hrsv, hopc, hep, -, -⟩ := (decode_genseed_iff w mp pp).1 hi
      exact hgenseed ⟨hrsv, hopc, hep⟩

/-- The causes of an illegal command (30_encoding.md R94). -/
theorem decode_eq_none_iff (w : Word) : decode w = none ↔
    CommandWord.rsv w ≠ 0 ∨ (CommandWord.opc w ≠ 0x01 ∧ CommandWord.opc w ≠ 0x02) ∨
    (CommandWord.opc w = 0x01 ∧ (CommandWord.mp w = true ∨ CommandWord.pp w = true)) ∨
    (CommandWord.opc w = 0x02 ∧ CommandWord.ep w = true) := by
  rw [decode_eq_none_iff_fields]
  by_cases h1 : CommandWord.opc w = 1#8
  · simp [h1, imp_iff_not_or]
  · by_cases h2 : CommandWord.opc w = 2#8
    · simp [h2, imp_iff_not_or]
    · simp [h1, h2]

end Sys2Proof

namespace Sys2Proof.Machine

theorem execute_of_decode_eq_none (cfg : Config) {w : Word} (h : decode w = none) (c : CoreState) :
    execute cfg w c = .err .commandError := by
  rw [execute, h]

/-- A CORE that is neither busy nor FATAL accepts every word (30_encoding.md R100). -/
theorem CoreState.writeWord_cmd_accepted {c : CoreState} (hb : c.busy = false) (hf : c.fatal = false) (v : Word) :
    c.writeWord .cmd v = c.issue v := by
  simp [CoreState.writeWord, CoreState.accepts, hb, hf]

/-- A busy or FATAL CORE accepts no word (30_encoding.md R100). -/
theorem CoreState.writeWord_cmd_ignored {c : CoreState} (h : c.busy = true ∨ c.fatal = true) (v : Word) :
    c.writeWord .cmd v = c := by
  rcases h with h | h <;> simp [CoreState.writeWord, CoreState.accepts, h]

/-- Settles O4: neither row's fields, an issue without decoding, and the completion of a word that does not decode. -/
theorem illegalWordsFailAtCompletion : Obligations.IllegalWordsFailAtCompletion := by
  refine ⟨decode_eq_none_iff, fun w c _ hb hf => ?_, fun s hm hd => ?_⟩
  · rw [CoreState.writeWord_cmd_accepted hb hf]
    exact ⟨rfl, rfl⟩
  · rw [step_eq_stepWith_platform, stepWith_of_nextMove_core platform hm, execute_of_decode_eq_none platform hd,
      State.complete, State.takeTurn_core]
    rfl

/-! ### The step of the decoded command -/

theorem decode_of_decodeTableWord {nbits w : Nat} {i : Instr} (h : decodeTableWord nbits w = some i) :
    decode (BitVec.ofNat 32 (w % 2 ^ nbits)) = some i := by
  simp only [decodeTableWord] at h
  split at h
  · exact h
  · cases h

/-- With no host statement left the core completes the operation in flight. -/
theorem State.nextMove_of_busy_nil {s : State} (hb : s.core.busy = true) (hs : s.script = []) : s.nextMove = .core := by
  rw [State.nextMove, hs]
  simp [hb]

/-- With no host statement left no choice is taken. -/
theorem State.takeTurn_of_script_nil {s : State} (hs : s.script = []) : s.takeTurn = s := by
  rw [State.takeTurn, State.contended, hs]
  rfl

/-- The core's step runs the decoded command (30_encoding.md R101). -/
theorem step_of_nextMove_core {s : State} {i : Instr} (hm : s.nextMove = .core) (hd : decode s.core.cmd = some i) :
    step s = exec i s.takeTurn := by
  have hd' : decode s.takeTurn.core.cmd = some i := by rw [State.takeTurn_core, hd]
  rw [step, stepOf, hm]
  simp only [coreStep, hd']

/-- Settles O5: the step decodes `CMD`; a placed command is in flight with a silent host, so the core moves and no turn
is taken. -/
theorem stepRunsTheDecodedCommand : Obligations.StepRunsTheDecodedCommand := by
  refine ⟨fun s i => step_of_nextMove_core, fun s nbits w i hd => ?_⟩
  have hscript : (s.withFetchWord nbits w).script = [] := rfl
  have hmove := State.nextMove_of_busy_nil (s := s.withFetchWord nbits w) rfl hscript
  rw [step_of_nextMove_core hmove (decode_of_decodeTableWord hd), State.takeTurn_of_script_nil hscript]

end Sys2Proof.Machine
end

section
/-! Who moves while an operation is in flight, and how the operation ends (30_encoding.md R100, R101, R103;
70_reset_and_hazards.md R250, R251). -/

namespace Sys2Proof.Machine

/-! ### Who moves -/

/-- With an operation in flight and a statement other than a reset, the next choice decides, and the core moves where
none is left (log 2). -/
theorem State.nextMove_of_busy_cons {s : State} {st : HostStmt} {rest : List HostStmt} (hb : s.core.busy = true)
    (hs : s.script = st :: rest) (hr : st ≠ .reset) :
    s.nextMove = if s.turns.head? = some .host then .host st else .core := by
  obtain ⟨c, script, received, turns⟩ := s
  obtain rfl : script = st :: rest := hs
  have hb' : c.busy = true := hb
  cases st with
  | reset => exact absurd rfl hr
  | read _ _ | write _ _ _ | poll =>
    cases turns with
    | nil => simp [State.nextMove, hb']
    | cons a turns => cases a <;> simp [State.nextMove, hb']

/-- With an operation in flight a statement of the host that is no reset moves on a choice alone (log 2, log 4). -/
theorem State.turns_of_nextMove_host {s : State} {st : HostStmt} (hb : s.core.busy = true) (hm : s.nextMove = .host st)
    (hr : st ≠ .reset) : s.turns = .host :: s.takeTurn.turns := by
  have hs := State.script_of_nextMove hm
  have hc : s.contended = true := by
    rw [State.contended, hs]
    cases st with
    | reset => exact absurd rfl hr
    | read _ _ | write _ _ _ | poll => exact hb
  rw [State.nextMove_of_busy_cons hb hs hr] at hm
  rw [State.takeTurn_turns, if_pos hc]
  split at hm
  · exact (List.cons_head?_tail ‹_›).symm
  · cases hm

/-- Settles O7: with no choice left the core moves, with the host's choice the host does, and the core's step is the
completion. -/
theorem completionIsEnabledExactlyWhileBusy : Obligations.CompletionIsEnabledExactlyWhileBusy := by
  refine ⟨fun _ => State.busy_of_nextMove, fun s hb hr => ⟨[], ?_⟩, fun s st rest hs => ⟨[.host], ?_⟩,
    fun _ _ => State.nextMove_reset, fun cfg s hm => ?_⟩
  · cases hs : s.script with
    | nil => exact State.nextMove_of_busy_nil hb rfl
    | cons st rest =>
      have hne : st ≠ .reset := fun h => hr (by rw [hs, h]; rfl)
      exact State.nextMove_of_busy_cons (s := { s with script := st :: rest, turns := [] }) hb rfl hne
  · cases hb : s.core.busy with
    | false => exact State.nextMove_of_not_busy hb hs
    | true =>
      by_cases hr : st = .reset
      · subst hr
        exact State.nextMove_reset hs
      · exact State.nextMove_of_busy_cons (s := { s with turns := [.host] }) hb hs hr
  · rw [stepWith_of_nextMove_core cfg hm, State.complete, State.takeTurn_core]

/-! ### How an operation ends -/

/-- Settles O10: of the five things a step can do to a busy CORE, a completion and a reset clear `BUSY`. -/
theorem onlyCompletionOrResetEndsAnOperation : Obligations.OnlyCompletionOrResetEndsAnOperation := by
  intro cfg s t hstep hb
  rcases stepWith_core_cases hstep with ⟨hcore, hreset, ht⟩ | ⟨hm, -, ht⟩ | ⟨_, _, _, -, -, hb', -⟩ |
    ⟨_, _, _, _, -, -, hb', -⟩ | ⟨hm, ht⟩
  · simp [ht, hb, hcore, hreset]
  · simp [ht, hm, (CoreState.complete_fixed cfg (execute cfg s.core.cmd s.core) s.core).1]
  · rw [hb] at hb'; cases hb'
  · rw [hb] at hb'; cases hb'
  · simp [ht, hm]

/-- A host statement leaves the choices alone. -/
theorem hostStep_turns {cfg : Config} {st : HostStmt} {s t : State} (h : hostStep cfg st s = .next t) :
    t.turns = s.turns := by
  unfold hostStep at h
  cases st with
  | read addr n =>
    cases ha : admittedWord cfg addr n with
    | none => simp [ha] at h
    | some tg => simp only [ha, Host.Outcome.next.injEq] at h; rw [← h]; rfl
  | write addr n v =>
    cases ha : admittedWord cfg addr n with
    | none => simp [ha] at h
    | some tg => simp only [ha, Host.Outcome.next.injEq] at h; rw [← h]; rfl
  | poll => simp only at h; split at h <;> cases h <;> rfl
  | reset => cases h; rfl

/-- A statement of the host that is no reset, while an operation is in flight, leaves the CORE as it was (20_memory.md
R67, R68; 30_encoding.md R100). -/
theorem core_of_host_step_while_busy {cfg : Config} {s t : State} {st : HostStmt} (hb : s.core.busy = true)
    (hm : s.nextMove = .host st) (hr : st ≠ .reset) (hstep : stepWith cfg s = .next t) : t.core = s.core := by
  rcases stepWith_core_cases hstep with ⟨-, -, ht⟩ | ⟨hm', -⟩ | ⟨_, _, _, -, -, hb', -⟩ |
    ⟨_, _, _, _, -, -, hb', -⟩ | ⟨hm', -⟩
  · exact ht
  · rw [hm] at hm'; cases hm'
  · rw [hb] at hb'; cases hb'
  · rw [hb] at hb'; cases hb'
  · rw [hm] at hm'; cases hm'; exact absurd rfl hr

theorem State.scriptResetFree_of_suffix {s t : State} (hsuf : t.script <:+ s.script) (h : s.scriptResetFree = true) :
    t.scriptResetFree = true :=
  List.all_eq_true.2 fun st hst => List.all_eq_true.1 h st (hsuf.mem hst)

/-- A move of the host from a script without resets is no reset. -/
theorem State.ne_reset_of_nextMove_host {s : State} {st : HostStmt} (hm : s.nextMove = .host st)
    (h : s.scriptResetFree = true) : st ≠ .reset := by
  have hmem : st ∈ s.script := by rw [State.script_of_nextMove hm]; exact List.mem_cons_self
  simpa using List.all_eq_true.1 h st hmem

/-- A step of an admitted host without resets, while an operation is in flight: one choice is used, and the CORE, the
admission and the absence of resets stay. -/
theorem stepWith_of_nextMove_host_while_busy {cfg : Config} {s : State} {st : HostStmt} (hb : s.core.busy = true)
    (hm : s.nextMove = .host st) (hadm : s.scriptAdmitted cfg = true) (hfree : s.scriptResetFree = true) :
    ∃ t, stepWith cfg s = .next t ∧ t.core = s.core ∧ s.turns = .host :: t.turns ∧ t.scriptAdmitted cfg = true ∧
      t.scriptResetFree = true := by
  have hr := State.ne_reset_of_nextMove_host hm hfree
  rcases stepWith_next_or_refused cfg s with ⟨t, ht, hsuf⟩ | ⟨_, _, -, -, hnot⟩
  · have hturns : t.turns = s.takeTurn.turns := hostStep_turns ((stepWith_of_nextMove_host cfg hm).symm.trans ht)
    exact ⟨t, ht, core_of_host_step_while_busy hb hm hr ht, by rw [hturns]; exact State.turns_of_nextMove_host hb hm hr,
      State.scriptAdmitted_of_suffix hsuf hadm, State.scriptResetFree_of_suffix hsuf hfree⟩
  · rw [hadm] at hnot; cases hnot

/-- Settles O9, by induction on the number of choices left: the core completes, or the host uses up a choice and leaves
the CORE alone. -/
theorem operationInFlightCompletes : Obligations.OperationInFlightCompletes := by
  intro cfg s hb hadm hfree
  induction hn : s.turns.length using Nat.strong_induction_on generalizing s with
  | _ n ih =>
    cases hm : s.nextMove with
    | idle => rw [(State.nextMove_idle hm).1] at hb; cases hb
    | core =>
      exact ⟨1, _, by omega, by omega, by rw [runWith, stepWith_of_nextMove_core cfg hm]; rfl,
        (CoreState.complete_fixed cfg _ _).1, by simp⟩
    | host st =>
      obtain ⟨t, hstep, hcore, hcons, hadm', hfree'⟩ := stepWith_of_nextMove_host_while_busy hb hm hadm hfree
      rw [hcons, List.length_cons] at hn
      obtain ⟨k, u, h1, hk, hrun, hub, huc⟩ := ih t.turns.length (by omega) t (hcore ▸ hb) hadm' hfree' rfl
      exact ⟨k + 1, u, by omega, by omega, by rw [runWith, hstep]; exact hrun, hub, hcore ▸ huc⟩

/-! ### Issue and poll -/

/-- Settles O22: a busy or FATAL CORE ignores the write, any other issues the word, whatever it is. -/
theorem issueFollowsItsRule : Obligations.IssueFollowsItsRule := by
  intro cfg s v hm
  refine ⟨_, stepWith_of_nextMove_write (tg := .cmd) hm, rfl, s.takeTurn_received,
    fun h => CoreState.writeWord_cmd_ignored h v, fun hb hf => ?_⟩
  simp only [CoreState.writeWord_cmd_accepted hb hf]
  exact ⟨rfl, rfl, rfl, rfl, rfl, hf, CoreState.issue_resultsZero v s.core, CoreState.issue_sameOperands v s.core,
    fun hd => execute_of_decode_eq_none cfg hd _⟩

/-- Settles O23, by the two cases of a poll. -/
theorem pollWaitsForBusyClear : Obligations.PollWaitsForBusyClear := by
  intro cfg s hm
  rw [stepWith_of_nextMove_host cfg hm, hostStep, State.takeTurn_core]
  refine ⟨fun hb => if_pos hb, fun hb => ?_⟩
  rw [if_neg (by simp [hb]), State.hostReceives, State.takeTurn_script, State.takeTurn_received]
  rfl

end Sys2Proof.Machine
end

section
/-! The encoder's bits, position by position (30_encoding.md R97 to R99), and the words of a `GENMNEM` with a legal
length (40_mnemonic_encoder.md R141). -/

namespace Sys2Proof.Machine

/-! ### The checksum -/

theorem csBits_of_valid {e : ByteString} (h : e.length ∈ validLengths) : csBits e = e.length / 4 :=
  (groups_of_valid h).2

/-- A checksum has from 4 to 8 bits (00_scope.md R10). -/
theorem csBits_le_of_valid {e : ByteString} (h : e.length ∈ validLengths) : csBits e ≤ 8 := by
  rw [csBits_of_valid h]
  simp only [validLengths, List.mem_cons, List.not_mem_nil, or_false] at h
  omega

/-- The checksum is the digest's first byte without its low `8 − CS` bits (30_encoding.md R99). -/
theorem checksum_eq_div (cfg : Config) (e : ByteString) :
    (checksum cfg e).1 = (cfg.sha256 e)[0].toNat / 2 ^ (8 - csBits e) := by
  rw [checksum, BitVec.toNat_ushiftRight, Nat.shiftRight_eq_div_pow]

theorem checksum_eq_leadingChecksum (cfg : Config) {e : ByteString} (h : e.length ∈ validLengths) :
    checksum cfg e = (leadingChecksum cfg e, e.length / 4) := by
  rw [← csBits_of_valid h]
  refine Prod.ext ?_ rfl
  rw [checksum_eq_div, leadingChecksum, csBits_of_valid h]

theorem checksum_lt (cfg : Config) {e : ByteString} (h : e.length ∈ validLengths) :
    (checksum cfg e).1 < 2 ^ csBits e := by
  have hle := csBits_le_of_valid h
  rw [checksum_eq_div]
  apply Nat.div_lt_of_lt_mul
  rw [← Nat.pow_add, show 8 - csBits e + csBits e = 8 by omega]
  exact BitVec.isLt _

/-- Two bytes with the same top `n` bits are equal without their other bits. -/
theorem ushiftRight_eq_of_top_bits {b d : Byte} {n : Nat} (hn : n ≤ 8)
    (h : ∀ k, k < n → b.getLsbD (7 - k) = d.getLsbD (7 - k)) : b >>> (8 - n) = d >>> (8 - n) := by
  apply BitVec.eq_of_getLsbD_eq
  intro i _
  rw [BitVec.getLsbD_ushiftRight, BitVec.getLsbD_ushiftRight]
  by_cases hi : i < n
  · have := h (n - 1 - i) (by omega)
    rwa [show 7 - (n - 1 - i) = 8 - n + i by omega] at this
  · rw [BitVec.getLsbD_of_ge _ _ (by omega), BitVec.getLsbD_of_ge _ _ (by omega)]

/-- Settles O40: the checksum is a shift of the digest's first byte, which keeps its top bits alone. -/
theorem checksumIsLeadingDigestBits : Obligations.ChecksumIsLeadingDigestBits := by
  refine ⟨fun cfg e h => ⟨rfl, checksum_eq_div cfg e, checksum_lt cfg h⟩, fun cfg cfg' e h hbits => ?_⟩
  rw [← csBits_of_valid h] at hbits
  rw [checksum, checksum, ushiftRight_eq_of_top_bits (csBits_le_of_valid h) hbits]

/-! ### The BitString -/

theorem testBit_eq_decide_shiftRight (v k : Nat) : v.testBit k = decide ((v >>> k) % 2 = 1) := by
  rw [Nat.testBit_eq_decide_div_mod_eq, Nat.shiftRight_eq_div_pow]

theorem bitsMSB_getElem? {n k : Nat} (v : Nat) (h : k < n) : (bitsMSB v n)[k]? = some (v.testBit (n - 1 - k)) := by
  rw [List.getElem?_eq_getElem (by simpa using h), bitsMSB_getElem]

/-- Position `p` of the bits of a byte string is bit `7 − p mod 8` of byte `p div 8` (30_encoding.md R97). -/
theorem flatMap_bits_getElem? {e : ByteString} {p : Nat} (hp : p < 8 * e.length) :
    (e.flatMap fun b => bitsMSB b.toNat 8)[p]? = some ((e.getD (p / 8) 0).toNat.testBit (7 - p % 8)) := by
  induction e generalizing p with
  | nil => simp at hp
  | cons b e ih =>
    rw [List.flatMap_cons]
    rw [List.length_cons] at hp
    by_cases h8 : p < 8
    · rw [List.getElem?_append_left (by simpa using h8), bitsMSB_getElem? _ h8, Nat.div_eq_of_lt h8,
        Nat.mod_eq_of_lt h8]
      rfl
    · obtain ⟨q, rfl⟩ : ∃ q, p = q + 8 := ⟨p - 8, by omega⟩
      rw [List.getElem?_append_right (by simp), bitsMSB_length, Nat.add_sub_cancel, ih (by omega),
        Nat.add_div_right q (by omega), Nat.add_mod_right]
      rfl

/-- The entropy's positions of the BitString (30_encoding.md R97). -/
theorem concatenate_getElem?_entropy {e : ByteString} {p : Nat} (c cs : Nat) (hp : p < 8 * e.length) :
    (concatenate e c cs)[p]? = some ((e.getD (p / 8) 0).toNat.testBit (7 - p % 8)) := by
  rw [concatenate, List.getElem?_append_left (by rwa [flatMap_bits_length]), flatMap_bits_getElem? hp]

/-- The checksum's positions of the BitString (30_encoding.md R97). -/
theorem concatenate_getElem?_checksum (e : ByteString) (c : Nat) {cs k : Nat} (hk : k < cs) :
    (concatenate e c cs)[8 * e.length + k]? = some (c.testBit (cs - 1 - k)) := by
  rw [concatenate, List.getElem?_append_right (by rw [flatMap_bits_length]; omega), flatMap_bits_length,
    Nat.add_sub_cancel_left, bitsMSB_getElem? c hk]

/-- Settles O41, by the two ranges of positions. -/
theorem bitStringPositions : Obligations.BitStringPositions := by
  refine fun e c cs => ⟨concatenate_length e c cs, fun p hp => ?_, fun k hk => ?_⟩
  · rw [concatenate_getElem?_entropy c cs hp, testBit_eq_decide_shiftRight]
  · rw [concatenate_getElem?_checksum e c hk, testBit_eq_decide_shiftRight]

/-! ### The word indices -/

/-- A position of the BitString by the rules written out (30_encoding.md R97). -/
theorem concatenate_getElem? {e : ByteString} {c cs p : Nat} (hp : p < 8 * e.length + cs) :
    (concatenate e c cs)[p]? = some (positionBit e c cs p) := by
  unfold positionBit
  split
  · rename_i hlt
    exact concatenate_getElem?_entropy c cs hlt
  · obtain ⟨k, rfl⟩ : ∃ k, p = 8 * e.length + k := ⟨p - 8 * e.length, by omega⟩
    rw [Nat.add_sub_cancel_left]
    exact concatenate_getElem?_checksum e c (by omega)

/-- `valMSB` as the sum of 00_scope.md R12. -/
theorem valMSB_eq_sum (b : BitString) :
    valMSB b = ∑ k ∈ Finset.range b.length, (b.getD k false).toNat * 2 ^ (b.length - 1 - k) := by
  induction b with
  | nil => rfl
  | cons x b ih =>
    rw [valMSB, List.length_cons, Finset.sum_range_succ', ih, Nat.add_comm]
    congr 1
    refine Finset.sum_congr rfl fun k _ => ?_
    rw [List.getD_cons_succ, show b.length + 1 - 1 - (k + 1) = b.length - 1 - k by omega]

/-- The index of a whole group is the sum of its eleven bits (30_encoding.md R98). -/
theorem groupIndex_toNat {b : BitString} {j : Nat} (h : 11 * j + 11 ≤ b.length) :
    (groupIndex b j).toNat = ∑ k ∈ Finset.range 11, (b.getD (11 * j + k) false).toNat * 2 ^ (10 - k) := by
  have hlen : ((b.drop (Config.groupBits * j)).take Config.groupBits).length = 11 := by
    rw [List.length_take, List.length_drop, Config.groupBits]; omega
  have hlt := valMSB_lt ((b.drop (Config.groupBits * j)).take Config.groupBits)
  rw [hlen] at hlt
  rw [groupIndex, BitVec.toNat_ofNat, Nat.mod_eq_of_lt hlt, valMSB_eq_sum, hlen]
  refine Finset.sum_congr rfl fun k hk => ?_
  have hk' : k < Config.groupBits := Finset.mem_range.1 hk
  rw [List.getD_eq_getElem?_getD, List.getD_eq_getElem?_getD, List.getElem?_take_of_lt hk', List.getElem?_drop]
  rfl

/-- The index of each word of a valid entropy is the positional sum (30_encoding.md R97 to R99). -/
theorem groupIndex_bitString_toNat (cfg : Config) {e : ByteString} (h : e.length ∈ validLengths) {j : Nat}
    (hj : j < 3 * e.length / 4) : (groupIndex (bitString cfg e) j).toNat = positionIndex cfg e j := by
  have hgroup : 11 * j + 11 ≤ 8 * e.length + e.length / 4 := by
    simp only [validLengths, List.mem_cons, List.not_mem_nil, or_false] at h
    omega
  rw [bitString, checksum_eq_leadingChecksum cfg h, groupIndex_toNat (by rw [concatenate_length]; exact hgroup)]
  refine Finset.sum_congr rfl fun k hk => ?_
  have hk' := Finset.mem_range.1 hk
  rw [List.getD_eq_getElem?_getD, concatenate_getElem? (by omega)]
  rfl

/-- Settles O42. -/
theorem wordIndexIsPositionalSum : Obligations.WordIndexIsPositionalSum :=
  fun cfg _ h _ => groupIndex_bitString_toNat cfg h

/-! ### The words of a `GENMNEM` -/

/-- The indices of a valid entropy in group order (40_mnemonic_encoder.md R131). -/
theorem mapIndices_bitString_getElem? (cfg : Config) {e : ByteString} (h : e.length ∈ validLengths) {j : Nat}
    (hj : j < 3 * e.length / 4) :
    ((mapIndices cfg (bitString cfg e)).map Prod.fst)[j]? = some (groupIndex (bitString cfg e) j) := by
  rw [mapIndices, bitString_length, (groups_of_valid h).1, List.map_map, List.getElem?_map, List.getElem?_range hj]
  rfl

/-- `WIDX` where a result has a word (30_encoding.md R101). -/
theorem CoreState.reportMnemonic_widx (cfg : Config) {l : List WordIndex} (c : CoreState) {i : Fin 24} {idx : WordIndex}
    (hi : l[i.val]? = some idx) : (c.reportMnemonic cfg l).widx[i] =
      { idx := idx, wlen := BitVec.ofNat 5 (cfg.wordlist idx).length } :=
  CoreState.placeWords_widx_in cfg _ (Nat.zero_le _) hi

/-- `WTEXT` where a result has a word, over zero results: its first 16 bytes and zeros (30_encoding.md R101). -/
theorem CoreState.reportMnemonic_wtext (cfg : Config) {l : List WordIndex} {c : CoreState} (hz : ResultsZero c)
    (hm : c.mem.wf = true) {i : Fin 24} {idx : WordIndex} (hi : l[i.val]? = some idx) {k : Nat} (hk : k < 16) :
    (c.reportMnemonic cfg l).byte (.wtext i) k = (cfg.wordlist idx).getD k 0 := by
  refine (CoreState.placeWords_wtext_in cfg (c := { c.flagsDone with wcount := BitVec.ofNat 5 l.length }) hm
    (Nat.zero_le _) i.isLt hi hk).trans ?_
  split
  · rfl
  · rename_i hge
    exact (hz.bytes _ (resultOffset_wtext i hk)).trans (List.getD_eq_default _ _ (Nat.le_of_not_lt hge)).symm

/-- Over zero results a result leaves no word beyond its own (30_encoding.md R101). -/
theorem CoreState.reportMnemonic_noWordsFrom (cfg : Config) (l : List WordIndex) {c : CoreState} (hz : ResultsZero c) :
    NoWordsFrom l.length (c.reportMnemonic cfg l) where
  widx i hi := (CoreState.placeWords_widx_out cfg _ (.inr (by omega))).trans (hz.widx i)
  wtext i hi _ hk :=
    (CoreState.placeWords_wtext_out cfg _ (.inr (by omega)) hk).trans (hz.bytes _ (resultOffset_wtext i hk))

/-- A result of words leaves `SEED` alone (30_encoding.md R101). -/
theorem CoreState.reportMnemonic_seed (cfg : Config) (l : List WordIndex) (c : CoreState) {k : Nat} (hk : k < 64) :
    (c.reportMnemonic cfg l).byte .seed k = c.byte .seed k :=
  CoreState.placeWords_read_outside cfg 0 l _ (.inl (by rw [Buffer.offset]; omega))

/-- A `GENMNEM` with an entropy of a legal length yields the index of each of its groups
(40_mnemonic_encoder.md R141). -/
theorem genmnem_of_valid (cfg : Config) {c : CoreState} (hv : c.elen.toNat ∈ validLengths) :
    ∃ l : List WordIndex, genmnem cfg true c = .okMnemonic l ∧ l.length = 3 * c.elen.toNat / 4 ∧
      ∀ j, j < 3 * c.elen.toNat / 4 → l[j]? = some (groupIndex (bitString cfg (c.bytes .ebuf c.elen.toNat)) j) := by
  have he : (c.bytes .ebuf c.elen.toNat).length = c.elen.toNat := CoreState.bytes_length c .ebuf c.elen.toNat
  rcases genmnem_cases cfg true c with ⟨-, -, hg⟩ | ⟨hbad, -⟩
  · refine ⟨_, hg, (genmnem_length hg).1, fun j hj => ?_⟩
    rw [← he] at hv hj
    exact mapIndices_bitString_getElem? cfg hv hj
  · rcases hbad with hep | hbad
    · cases hep
    · exact absurd hv hbad

/-- Settles O34: the words placed are those of the groups, and each group's index is the positional sum. -/
theorem genmnemCompletesWithTheWords : Obligations.GenmnemCompletesWithTheWords := by
  intro s hv hz hwf
  obtain ⟨l, hg, hl, hidx⟩ := genmnem_of_valid platform hv
  have hnone := CoreState.reportMnemonic_noWordsFrom platform l hz
  obtain ⟨hdone, herr, hecode, hwcount⟩ := CoreState.reportMnemonic_flags platform l s.core
  refine ⟨s.complete platform (.okMnemonic l), by rw [exec_platform, execWith_genmnem, hg],
    (CoreState.complete_fixed platform _ s.core).1, hdone, herr, hecode, ?_, fun i hi => ?_, hl ▸ hnone, fun k hk => ?_⟩
  · refine (congrArg BitVec.toNat hwcount).trans ?_
    have hle := (genmnem_length hg).2
    rw [BitVec.toNat_ofNat, Nat.mod_eq_of_lt (by omega), hl]
  · have hw := CoreState.reportMnemonic_widx platform s.core (hidx i.val hi)
    rw [State.complete_core, CoreState.complete, hw]
    refine ⟨?_, rfl, fun k hk => CoreState.reportMnemonic_wtext platform hz hwf (hidx i.val hi) hk⟩
    have he := CoreState.bytes_length s.core .ebuf s.core.elen.toNat
    exact groupIndex_bitString_toNat platform (he.symm ▸ hv) (he.symm ▸ hi)
  · exact (CoreState.reportMnemonic_seed platform l s.core hk).trans (hz.bytes _ (resultOffset_seed hk))

end Sys2Proof.Machine
end

section
/-! `GENSEED`: a text longer than its buffer, and which operands the command reads (30_encoding.md R96,
41_seed_deriver.md R166). -/

namespace Sys2Proof.Machine

theorem overCapacity_iff (mp pp : Bool) (c : CoreState) :
    overCapacity mp pp c = true ↔ (mp = true ∧ 256 < c.mlen.toNat) ∨ (pp = true ∧ 256 < c.plen.toNat) := by
  rw [overCapacity, Bool.or_eq_true, Bool.and_eq_true, Bool.and_eq_true, decide_eq_true_iff, decide_eq_true_iff]
  rfl

/-- The capacity test comes first (60_exceptions.md R222). -/
theorem genseed_of_overCapacity (cfg : Config) {mp pp : Bool} {c : CoreState} (h : overCapacity mp pp c = true) :
    genseed cfg mp pp c = .err .commandError := by
  rw [genseed, if_pos h]

/-- Settles O50, by the capacity test. -/
theorem genseedRejectsOverlongText : Obligations.GenseedRejectsOverlongText := by
  intro mp pp s h
  rw [exec_platform, execWith_genseed, genseed_of_overCapacity platform ((overCapacity_iff mp pp s.core).2 h)]
  rfl

/-- A command's text operand is its length and the bytes it counts (30_encoding.md R96). -/
theorem CoreState.bytes_congr {c d : CoreState} {b : Buffer} {n : Nat} (h : ∀ k, k < n → c.byte b k = d.byte b k) :
    c.bytes b n = d.bytes b n :=
  List.map_congr_left fun k hk => h k (List.mem_range.1 hk)

/-- `GENSEED` reads the lengths and the first bytes of its present operands (41_seed_deriver.md R166). -/
theorem genseed_congr (cfg : Config) {mp pp : Bool} {c d : CoreState}
    (hm : mp = true → c.mlen = d.mlen ∧ ∀ k, k < c.mlen.toNat → c.byte .mbuf k = d.byte .mbuf k)
    (hp : pp = true → c.plen = d.plen ∧ ∀ k, k < c.plen.toNat → c.byte .pbuf k = d.byte .pbuf k) :
    genseed cfg mp pp c = genseed cfg mp pp d := by
  have hmnemonic : mnemonicOperand mp c = mnemonicOperand mp d := by
    cases mp with
    | false => rfl
    | true => rw [mnemonicOperand, mnemonicOperand, ← (hm rfl).1, CoreState.bytes_congr (hm rfl).2]
  have hpassphrase : passphraseOperand pp c = passphraseOperand pp d := by
    cases pp with
    | false => rfl
    | true => rw [passphraseOperand, passphraseOperand, ← (hp rfl).1, CoreState.bytes_congr (hp rfl).2]
  have hcapacity : overCapacity mp pp c = overCapacity mp pp d := by
    rw [Bool.eq_iff_iff, overCapacity_iff, overCapacity_iff]
    refine or_congr (and_congr_right fun h => ?_) (and_congr_right fun h => ?_)
    · rw [(hm h).1]
    · rw [(hp h).1]
  rw [genseed, genseed, hmnemonic, hpassphrase, hcapacity]

/-- Settles O52: equal operands give one result, and its completion keeps equal status and results equal. -/
theorem genseedReadsOnlyItsOperands : Obligations.GenseedReadsOnlyItsOperands := by
  intro cfg mp pp s s' hm hp hst hres hwf hwf'
  refine ⟨_, _, execWith_genseed cfg mp pp s, execWith_genseed cfg mp pp s', ?_⟩
  rw [genseed_congr cfg hm hp]
  exact ⟨CoreState.complete_sameStatus cfg _ hst, CoreState.complete_sameResults cfg _ hres hwf hwf'⟩

end Sys2Proof.Machine
end

section
/-! The writes of the host's programs (30_encoding.md R104): a packed word, the words of a byte string, and a
text with its length, each from its first statement to the state it leaves. -/

namespace Sys2Proof.Machine

/-! ### A packed word -/

/-- A byte appended below a word. -/
theorem toNat_append_byte {n : Nat} (x : BitVec n) (b : Byte) : (x ++ b).toNat = x.toNat * 2 ^ 8 + b.toNat := by
  rw [BitVec.toNat_append, ← Nat.shiftLeft_add_eq_or_of_lt b.isLt, Nat.shiftLeft_eq]

/-- A packed word is the sum of its four bytes (30_encoding.md R104). -/
theorem HostScript.pack_toNat (e : ByteString) (j : Nat) :
    (HostScript.pack e j).toNat = ∑ t ∈ Finset.range 4, (e.getD (4 * j + t) 0).toNat * 2 ^ (24 - 8 * t) := by
  simp only [HostScript.pack, packWord, toNat_append_byte, Finset.sum_range_succ, Finset.sum_range_zero, Nat.add_zero]
  ring

/-- A packed word written to `EBUF` puts its bytes into their places (10_state.md R21). -/
theorem CoreState.byte_writeWord_pack {c : CoreState} (hb : c.busy = false) (hw : c.mem.wf = true) (e : ByteString)
    (j : Fin 16) {t : Nat} (ht : t < 4) :
    (c.writeWord (.ebuf j) (HostScript.pack e j.val)).byte .ebuf (4 * j.val + t) = e.getD (4 * j.val + t) 0 := by
  have hbuf : 0x040 ≤ Target.offset (.ebuf j) := by simp only [Target.offset]; omega
  have hoff : Buffer.offset .ebuf + (4 * j.val + t) = Target.offset (.ebuf j) + t := by
    simp only [Buffer.offset, Target.offset]; omega
  rw [CoreState.writeWord_bytes rfl hbuf _ hb, CoreState.byte, hoff]
  exact (Memory.read_writeWord_same _ hw ht).trans (HostScript.wordByte_pack e j.val ht)

/-! ### A list of writes -/

/-- The CORE after a list of host writes, in order. -/
def CoreState.writeWords (ws : List (Target × Word)) (c : CoreState) : CoreState :=
  ws.foldl (fun c p => c.writeWord p.1 p.2) c

theorem CoreState.writeWords_append (ws us : List (Target × Word)) (c : CoreState) :
    c.writeWords (ws ++ us) = (c.writeWords ws).writeWords us :=
  List.foldl_append

/-- The statements of a list of writes. -/
def HostScript.wrAll (cfg : Config) (ws : List (Target × Word)) : List HostStmt :=
  ws.map fun p => HostScript.wr cfg p.1 p.2

theorem HostScript.wrAll_append (cfg : Config) (ws us : List (Target × Word)) :
    HostScript.wrAll cfg (ws ++ us) = HostScript.wrAll cfg ws ++ HostScript.wrAll cfg us :=
  List.map_append

/-- A script that begins with writes of operands, with nothing in flight: one step for each, and the CORE written in
order. -/
theorem runWith_wrAll {cfg : Config} {ws : List (Target × Word)} (hws : ∀ p ∈ ws, p.1 ≠ .cmd) {s : State}
    {rest : List HostStmt} (hb : s.core.busy = false) (hs : s.script = HostScript.wrAll cfg ws ++ rest) :
    runWith cfg ws.length s = .next { s with script := rest, core := s.core.writeWords ws } := by
  induction ws generalizing s with
  | nil =>
    have hs' : s.script = rest := hs
    rw [← hs']
    rfl
  | cons p ws ih =>
    obtain ⟨hp, hws⟩ := List.forall_mem_cons.1 hws
    have hs' : s.script = HostScript.wr cfg p.1 p.2 :: (HostScript.wrAll cfg ws ++ rest) := hs
    have hm := State.nextMove_of_not_busy hb hs'
    rw [List.length_cons, runWith, stepWith_of_nextMove_write hm, State.takeTurn_of_not_busy hb]
    exact ih hws ((CoreState.writeWord_flags hp p.2 s.core).1.trans hb) (by rw [hs']; rfl)

/-- A program that begins with writes of operands, with nothing in flight: one step for each, and the CORE written in
order. -/
theorem HostProgram.run_wrAll {α : Type} {cfg : Config} {ws : List (Target × Word)} (hws : ∀ p ∈ ws, p.1 ≠ .cmd)
    {s : State} (hb : s.core.busy = false) (rest : HostProgram α) :
    ∃ t, t.core = s.core.writeWords ws ∧ ∀ k, HostProgram.run cfg (ws.length + k)
      (.performAll (HostScript.wrAll cfg ws) rest) s = HostProgram.run cfg k rest t := by
  obtain ⟨t, hcore, -, hrun⟩ := HostProgram.run_writes ws hws hb rest
  exact ⟨t, hcore, hrun⟩

/-! ### The words of a byte string -/

/-- The packed words of a byte string, each with its place. -/
def HostScript.packedWords {n : Nat} (target : Fin n → Target) (e : ByteString) : List (Target × Word) :=
  ((List.finRange n).take ((e.length + 3) / 4)).map fun j => (target j, HostScript.pack e j.val)

theorem HostScript.wrBytes_eq_wrAll (cfg : Config) (n : Nat) (target : Fin n → Target) (e : ByteString) :
    HostScript.wrBytes cfg n target e = HostScript.wrAll cfg (HostScript.packedWords target e) := by
  rw [HostScript.wrBytes_eq_take, HostScript.wrAll, HostScript.packedWords, List.map_map]
  rfl

theorem HostScript.packedWords_length {n : Nat} (target : Fin n → Target) {e : ByteString} (he : e.length ≤ 4 * n) :
    (HostScript.packedWords target e).length = (e.length + 3) / 4 := by
  rw [HostScript.packedWords, List.length_map, List.length_take, List.length_finRange]
  omega

theorem HostScript.packedWords_ne_cmd {n : Nat} {target : Fin n → Target} (ht : ∀ j, (target j).isOperand = true)
    (e : ByteString) : ∀ p ∈ HostScript.packedWords target e, p.1 ≠ .cmd := by
  intro p hp hcmd
  obtain ⟨j, -, rfl⟩ := List.mem_map.1 hp
  have := ht j
  rw [show target j = .cmd from hcmd] at this
  cases this

/-- Bytes that are those of a string, as many as it has, are the string. -/
theorem CoreState.bytes_eq_of_byte {c : CoreState} {b : Buffer} {e : ByteString}
    (h : ∀ k, k < e.length → c.byte b k = e.getD k 0) : c.bytes b e.length = e := by
  apply List.ext_getElem (CoreState.bytes_length c b e.length)
  intro k hk hk'
  simp only [CoreState.bytes, List.getElem_map, List.getElem_range]
  rw [h k hk', List.getD_eq_getElem _ _ hk']

/-- The words of a byte string written to a buffer: its bytes, zeros to the end of the last word, and nothing else
of the CORE (30_encoding.md R104). -/
theorem CoreState.writeWords_packedWords (b : Buffer) {n : Nat} {target : Fin n → Target}
    (ht : ∀ j, (target j).isOperand = true ∧ (target j).offset = b.offset + 4 * j.val) {e : ByteString}
    (he : e.length ≤ 4 * n) {c : CoreState} (hb : c.busy = false) (hw : c.mem.wf = true) :
    ∃ m : Memory, c.writeWords (HostScript.packedWords target e) = { c with mem := m } ∧ m.wf = true ∧
      ({ c with mem := m } : CoreState).bytes b e.length = e ∧
      (∀ k, e.length ≤ k → k < 4 * ((e.length + 3) / 4) → ({ c with mem := m } : CoreState).byte b k = 0) ∧
      ∀ a, a < b.offset ∨ b.offset + 4 * ((e.length + 3) / 4) ≤ a → m.read a = c.mem.read a := by
  obtain ⟨hframe, hwf, hbyte, hother⟩ := CoreState.foldl_pack b e ht hb hw (m := (e.length + 3) / 4) (by omega)
  rw [hframe] at hbyte
  refine ⟨_, hframe, hwf, CoreState.bytes_eq_of_byte fun k hk => hbyte k (by omega), fun k hk hk' => ?_, hother⟩
  rw [hbyte k hk', List.getD_eq_default _ _ hk]

/-! ### A text and its length -/

/-- The writes of a text: the words of its buffer, then its length (30_encoding.md R104). -/
def HostScript.textWords {n : Nat} (target : Fin n → Target) (len : Target) (t : ByteString) : List (Target × Word) :=
  HostScript.packedWords target t ++ [(len, BitVec.ofNat 32 t.length)]

theorem HostScript.textWords_ne_cmd {n : Nat} {target : Fin n → Target} (ht : ∀ j, (target j).isOperand = true)
    {len : Target} (hlen : len ≠ .cmd) (t : ByteString) : ∀ p ∈ HostScript.textWords target len t, p.1 ≠ .cmd := by
  intro p hp
  rcases List.mem_append.1 hp with hp | hp
  · exact HostScript.packedWords_ne_cmd ht t p hp
  · rw [List.mem_singleton.1 hp]; exact hlen

theorem HostScript.wrAll_textWords (cfg : Config) {n : Nat} (target : Fin n → Target) (len : Target) (t : ByteString) :
    HostScript.wrAll cfg (HostScript.textWords target len t) =
      HostScript.wrBytes cfg n target t ++ [HostScript.wr cfg len (BitVec.ofNat 32 t.length)] := by
  rw [HostScript.wrBytes_eq_wrAll, HostScript.textWords, HostScript.wrAll_append]
  rfl

/-- A length below `2^k` in the low `k` bits of the word that carries it (10_state.md R27 to R29). -/
theorem toNat_extractLsb'_ofNat {k n : Nat} (hk : k ≤ 32) (hn : n < 2 ^ k) :
    ((BitVec.ofNat 32 n).extractLsb' 0 k).toNat = n := by
  have h32 : n < 2 ^ 32 := Nat.lt_of_lt_of_le hn (Nat.pow_le_pow_right (by omega) hk)
  rw [BitVec.extractLsb'_toNat, BitVec.toNat_ofNat, Nat.mod_eq_of_lt h32, Nat.shiftRight_zero, Nat.mod_eq_of_lt hn]

/-- A text written with its length: the buffer begins with it, and the bytes outside the buffer are as before. -/
theorem CoreState.writeWords_textWords (b : Buffer) {n : Nat} {target : Fin n → Target}
    (ht : ∀ j, (target j).isOperand = true ∧ (target j).offset = b.offset + 4 * j.val) (len : Target) {t : ByteString}
    (hn : t.length ≤ 4 * n) {c : CoreState} (hb : c.busy = false) (hw : c.mem.wf = true) :
    ∃ m : Memory, c.writeWords (HostScript.textWords target len t) =
        ({ c with mem := m } : CoreState).writeWord len (BitVec.ofNat 32 t.length) ∧ m.wf = true ∧
      ({ c with mem := m } : CoreState).bytes b t.length = t ∧
      ∀ a, a < b.offset ∨ b.offset + 4 * n ≤ a → m.read a = c.mem.read a := by
  obtain ⟨m, hm, hwf, hbytes, -, hother⟩ := CoreState.writeWords_packedWords b ht hn hb hw
  refine ⟨m, ?_, hwf, hbytes, fun a ha => hother a (by omega)⟩
  rw [HostScript.textWords, CoreState.writeWords_append, hm]
  rfl

/-- What the host's programs ask of the CORE: neither busy nor FATAL, its memory canonical. -/
structure CoreState.Ready (c : CoreState) : Prop where
  busy : c.busy = false
  fatal : c.fatal = false
  wf : c.mem.wf = true

/-- An entropy of at most 64 bytes written with its length is the first `ELEN` bytes of `EBUF` (30_encoding.md R95,
R104). -/
theorem CoreState.writeWords_entropy {e : ByteString} (he : e.length ≤ 64) {c : CoreState} (hc : c.Ready) :
    (c.writeWords (HostScript.textWords Target.ebuf .elen e)).Ready ∧
    (c.writeWords (HostScript.textWords Target.ebuf .elen e)).elen.toNat = e.length ∧
    (c.writeWords (HostScript.textWords Target.ebuf .elen e)).bytes .ebuf e.length = e := by
  obtain ⟨m, hm, hwf, hbytes, -⟩ := CoreState.writeWords_textWords .ebuf (fun j => ⟨rfl, rfl⟩) .elen (n := 16)
    (target := Target.ebuf) he hc.busy hc.wf
  rw [hm, CoreState.writeWord_elen, if_neg (by simp [hc.busy])]
  exact ⟨⟨hc.busy, hc.fatal, hwf⟩, toNat_extractLsb'_ofNat (by omega) (by omega), hbytes⟩

/-- The writes of a text that may be absent (30_encoding.md R104). -/
def HostScript.optionalTextWords (target : Fin 64 → Target) (len : Target) (t : Option ByteString) :
    List (Target × Word) :=
  t.elim [] (HostScript.textWords target len)

theorem HostScript.textWrites_eq_wrAll (cfg : Config) (target : Fin 64 → Target) (len : Target)
    (t : Option ByteString) : HostScript.textWrites cfg target len t =
      HostScript.wrAll cfg (HostScript.optionalTextWords target len t) := by
  cases t with
  | none => rfl
  | some t => exact (HostScript.wrAll_textWords cfg target len t).symm

theorem HostScript.optionalTextWords_ne_cmd {target : Fin 64 → Target} (ht : ∀ j, (target j).isOperand = true)
    {len : Target} (hlen : len ≠ .cmd) (t : Option ByteString) :
    ∀ p ∈ HostScript.optionalTextWords target len t, p.1 ≠ .cmd := by
  cases t with
  | none => exact fun _ hp => absurd hp List.not_mem_nil
  | some t => exact HostScript.textWords_ne_cmd ht hlen t

/-- A mnemonic of at most 256 bytes, or none, written with its length is the mnemonic operand (30_encoding.md R96,
R104). -/
theorem CoreState.writeWords_mnemonic {m : Option ByteString} (hm : ∀ t, m = some t → t.length ≤ 256) {c : CoreState}
    (hc : c.Ready) :
    let d := c.writeWords (HostScript.optionalTextWords Target.mbuf .mlen m)
    d.Ready ∧ mnemonicOperand m.isSome d = m ∧ (m.isSome = true → d.mlen.toNat ≤ 256) := by
  cases m with
  | none => exact ⟨hc, rfl, fun h => nomatch h⟩
  | some t =>
    have ht := hm t rfl
    obtain ⟨mem, hmem, hwf, hbytes, -⟩ := CoreState.writeWords_textWords .mbuf (fun j => ⟨rfl, rfl⟩) .mlen (n := 64)
      (target := Target.mbuf) ht hc.busy hc.wf
    have hlen : ((BitVec.ofNat 32 t.length).extractLsb' 0 9).toNat = t.length :=
      toNat_extractLsb'_ofNat (by omega) (by omega)
    simp only [HostScript.optionalTextWords, Option.elim_some]
    rw [hmem, CoreState.writeWord_mlen, if_neg (by simp [hc.busy])]
    refine ⟨⟨hc.busy, hc.fatal, hwf⟩, congrArg some ?_, fun _ => hlen.trans_le ht⟩
    exact (congrArg (CoreState.bytes _ .mbuf) hlen).trans hbytes

/-- A passphrase of at most 256 bytes, or none, written with its length is the passphrase operand, and the mnemonic
operand is as before (30_encoding.md R96, R104). -/
theorem CoreState.writeWords_passphrase {p : Option ByteString} (hp : ∀ t, p = some t → t.length ≤ 256) {c : CoreState}
    (hc : c.Ready) :
    let d := c.writeWords (HostScript.optionalTextWords Target.pbuf .plen p)
    d.Ready ∧ passphraseOperand p.isSome d = p ∧ (p.isSome = true → d.plen.toNat ≤ 256) ∧ d.mlen = c.mlen ∧
      ∀ k, k < 256 → d.byte .mbuf k = c.byte .mbuf k := by
  cases p with
  | none => exact ⟨hc, rfl, (fun h => nomatch h), rfl, fun _ _ => rfl⟩
  | some t =>
    have ht := hp t rfl
    obtain ⟨mem, hmem, hwf, hbytes, hother⟩ := CoreState.writeWords_textWords .pbuf (fun j => ⟨rfl, rfl⟩) .plen
      (n := 64) (target := Target.pbuf) ht hc.busy hc.wf
    have hlen : ((BitVec.ofNat 32 t.length).extractLsb' 0 9).toNat = t.length :=
      toNat_extractLsb'_ofNat (by omega) (by omega)
    simp only [HostScript.optionalTextWords, Option.elim_some]
    rw [hmem, CoreState.writeWord_plen, if_neg (by simp [hc.busy])]
    refine ⟨⟨hc.busy, hc.fatal, hwf⟩, congrArg some ?_, fun _ => hlen.trans_le ht, rfl, fun k hk => hother _ (.inl ?_)⟩
    · exact (congrArg (CoreState.bytes _ .pbuf) hlen).trans hbytes
    · simp only [Buffer.offset]; omega

/-- The writes of the operands of the program `generateSeed` (30_encoding.md R104). -/
def HostScript.seedWords (m p : Option ByteString) : List (Target × Word) :=
  HostScript.optionalTextWords Target.mbuf .mlen m ++ HostScript.optionalTextWords Target.pbuf .plen p

theorem HostScript.seedWords_ne_cmd (m p : Option ByteString) : ∀ q ∈ HostScript.seedWords m p, q.1 ≠ .cmd :=
  fun q hq => (List.mem_append.1 hq).elim
    (HostScript.optionalTextWords_ne_cmd (fun _ => rfl) (by decide) m q)
    (HostScript.optionalTextWords_ne_cmd (fun _ => rfl) (by decide) p q)

/-- Texts of at most 256 bytes, or none, written with their lengths are the operands of `GENSEED` (30_encoding.md R96,
R104). -/
theorem CoreState.writeWords_seedWords {m p : Option ByteString} (hm : ∀ t, m = some t → t.length ≤ 256)
    (hp : ∀ t, p = some t → t.length ≤ 256) {c : CoreState} (hc : c.Ready) :
    let d := c.writeWords (HostScript.seedWords m p)
    d.Ready ∧ mnemonicOperand m.isSome d = m ∧ passphraseOperand p.isSome d = p ∧
      (m.isSome = true → d.mlen.toNat ≤ 256) ∧ (p.isSome = true → d.plen.toNat ≤ 256) := by
  obtain ⟨hready, hmnemonic, hmlen⟩ := CoreState.writeWords_mnemonic hm hc
  obtain ⟨hready', hpassphrase, hplen, hmlen', hmbuf⟩ := CoreState.writeWords_passphrase hp hready
  rw [← CoreState.writeWords_append] at hready' hpassphrase hplen hmlen' hmbuf
  refine ⟨hready', ?_, hpassphrase, fun h => hmlen' ▸ hmlen h, hplen⟩
  refine Eq.trans ?_ hmnemonic
  cases hsome : m.isSome with
  | false => rfl
  | true =>
    refine congrArg some ((CoreState.bytes_congr fun k hk => hmbuf k ?_).trans ?_)
    · exact Nat.lt_of_lt_of_le hk (hmlen' ▸ hmlen hsome)
    · rw [HostScript.seedWords, hmlen']

end Sys2Proof.Machine
end

section
/-! The host's programs from the command to their end (30_encoding.md R104): they return what the pure functions yield,
or fail with the code of its error, whatever the order of the agents is. -/

namespace Sys2Proof.Machine

variable {α β : Type} {cfg : Config}

/-- The end of a host program for a result: its value as the program returns it, or the code of its error. -/
def HostRun.ofResult (f : β → α) (t : State) : Result β → HostRun α
  | .ok a => .returned (f a) t
  | .err e => .failed e.code t

/-! ### A command and its poll -/

/-- A command that fails: the program fails with the code (30_encoding.md R104). -/
theorem HostProgram.run_command_err {s : State} (hs : s.core.Ready) {w : Word} {e : CoreError}
    (he : execute cfg w (s.core.issue w) = .err e) (rest : HostProgram α) :
    ∃ k t, HostProgram.run cfg k (.perform (HostScript.wr cfg .cmd w) (.pollThen rest)) s = .failed e.code t := by
  obtain ⟨j, t, hcore, hrun⟩ := HostProgram.run_command (cfg := cfg) hs.busy hs.fatal w rest
  rw [he, CoreState.complete] at hcore
  refine ⟨j + 0, t, (hrun 0).trans ?_⟩
  rw [hcore, CoreState.reportError_err, if_pos rfl, HostProgram.run_fail]
  rfl

/-- A command that does not fail: the program goes on from its completion (30_encoding.md R104). -/
theorem HostProgram.run_command_ok {s : State} (hs : s.core.Ready) {w : Word} {r : OpResult}
    (hr : execute cfg w (s.core.issue w) = r) (hok : ((s.core.issue w).complete cfg r).err = false)
    (rest : HostProgram α) :
    ∃ j t, t.core = (s.core.issue w).complete cfg r ∧
      ∀ k, HostProgram.run cfg (j + k) (.perform (HostScript.wr cfg .cmd w) (.pollThen rest)) s =
        HostProgram.run cfg k rest t := by
  obtain ⟨j, t, hcore, hrun⟩ := HostProgram.run_command (cfg := cfg) hs.busy hs.fatal w rest
  rw [hr] at hcore
  refine ⟨j, t, hcore, fun k => (hrun k).trans ?_⟩
  rw [hcore, hok, if_neg Bool.false_ne_true]

/-- Issue keeps the memory canonical (log 11). -/
theorem CoreState.issue_wf (v : Word) {c : CoreState} (h : c.mem.wf = true) : (c.issue v).mem.wf = true :=
  Memory.wf_clear _ _ (Memory.wf_clear _ _ h)

/-! ### The program `generateSeed` -/

theorem execute_encode_genseed (mp pp : Bool) (c : CoreState) :
    execute cfg (encode (.genseed mp pp)) c = genseed cfg mp pp c := by
  rw [execute, decode_encode]

/-- Issue leaves the operands of `GENSEED` alone (30_encoding.md R100). -/
theorem genseed_issue {mp pp : Bool} {c : CoreState} (hm : mp = true → c.mlen.toNat ≤ 256)
    (hp : pp = true → c.plen.toNat ≤ 256) (w : Word) : genseed cfg mp pp (c.issue w) = genseed cfg mp pp c := by
  have hsame := CoreState.issue_sameOperands w c
  refine genseed_congr cfg (fun h => ⟨rfl, fun k hk => hsame.bytes _ (.inr ?_)⟩)
    (fun h => ⟨rfl, fun k hk => hsame.bytes _ (.inr ?_)⟩)
  · have hlen := hm h
    rw [CoreState.issue_mlen] at hk
    simp only [Buffer.offset]; omega
  · have hlen := hp h
    rw [CoreState.issue_plen] at hk
    simp only [Buffer.offset]; omega

/-- After a completion with a seed `SEED` holds it (30_encoding.md R101). -/
theorem CoreState.reportSeed_bytes (d : Vector Byte 64) {c : CoreState} (h : c.mem.wf = true) :
    (c.reportSeed d).bytes .seed 64 = d.toList := by
  apply List.ext_getElem (by simp [CoreState.bytes_length])
  intro k hk _
  rw [CoreState.bytes_length] at hk
  simp only [CoreState.bytes, List.getElem_map, List.getElem_range, Vector.getElem_toList]
  exact CoreState.reportSeed_byte d h hk

/-- The program `generateSeed` from its command on, its operands written (30_encoding.md R104). -/
theorem HostProgram.run_seedCommand {s : State} (hs : s.core.Ready) {mp pp : Bool}
    (hm : mp = true → s.core.mlen.toNat ≤ 256) (hp : pp = true → s.core.plen.toNat ≤ 256) :
    ∃ k t, HostProgram.run cfg k
      (.perform (HostScript.wr cfg .cmd (encode (.genseed mp pp))) (HostScript.seedFinish cfg)) s =
      HostRun.ofResult Vector.toList t
        (generateSeed cfg (mnemonicOperand mp s.core) (passphraseOperand pp s.core)) := by
  have hcap : ¬overCapacity mp pp s.core = true := by
    rw [overCapacity_iff]
    rintro (⟨h, hlt⟩ | ⟨h, hlt⟩)
    · have := hm h; omega
    · have := hp h; omega
  have hexec : execute cfg (encode (.genseed mp pp)) (s.core.issue (encode (.genseed mp pp))) =
      genseed cfg mp pp s.core := by rw [execute_encode_genseed, genseed_issue hm hp]
  rw [genseed, if_neg hcap] at hexec
  cases hr : generateSeed cfg (mnemonicOperand mp s.core) (passphraseOperand pp s.core) with
  | err e =>
    rw [hr] at hexec
    exact HostProgram.run_command_err hs hexec _
  | ok seed =>
    rw [hr] at hexec
    obtain ⟨j, t, hcore, hrun⟩ := HostProgram.run_command_ok hs hexec rfl
      (.receiveAll (HostScript.seedCollect cfg) fun vs => .done (vs.flatMap HostScript.wordBytes))
    obtain ⟨u, hu⟩ := HostProgram.run_seedCollect (cfg := cfg) (s := t) (by rw [hcore]; rfl)
    refine ⟨j + (16 + 0), u, ((hrun (16 + 0)).trans (hu 0)).trans ?_⟩
    rw [hcore, CoreState.complete, CoreState.reportSeed_bytes seed (CoreState.issue_wf _ hs.wf)]
    rfl

theorem HostScript.seedMacro_eq (m p : Option ByteString) :
    HostScript.seedMacro cfg m p = .performAll (HostScript.wrAll cfg (HostScript.seedWords m p))
      (.perform (HostScript.wr cfg .cmd (encode (.genseed m.isSome p.isSome))) (HostScript.seedFinish cfg)) := by
  rw [HostScript.seedMacro, HostScript.seedWrites, HostScript.textWrites_eq_wrAll, HostScript.textWrites_eq_wrAll,
    HostProgram.performAll_append, ← HostScript.wrAll_append]
  rfl

/-- The program `generateSeed` on a CORE that is neither busy nor FATAL (30_encoding.md R104). -/
theorem HostProgram.run_seedMacro {s : State} (hs : s.core.Ready) {m p : Option ByteString}
    (hm : ∀ t, m = some t → t.length ≤ 256) (hp : ∀ t, p = some t → t.length ≤ 256) :
    ∃ k t, HostProgram.run cfg k (HostScript.seedMacro cfg m p) s =
      HostRun.ofResult Vector.toList t (generateSeed cfg m p) := by
  obtain ⟨hready, hmnemonic, hpassphrase, hmlen, hplen⟩ := CoreState.writeWords_seedWords hm hp hs
  rw [HostScript.seedMacro_eq]
  obtain ⟨t, hcore, hrun⟩ := HostProgram.run_wrAll (cfg := cfg) (HostScript.seedWords_ne_cmd m p) hs.busy
    (.perform (HostScript.wr cfg .cmd (encode (.genseed m.isSome p.isSome))) (HostScript.seedFinish cfg))
  rw [← hcore] at hready hmnemonic hpassphrase hmlen hplen
  obtain ⟨k, u, hk⟩ := HostProgram.run_seedCommand (cfg := cfg) hready hmlen hplen
  rw [hmnemonic, hpassphrase] at hk
  exact ⟨_, u, (hrun k).trans hk⟩

/-! ### The program `generateMnemonics` -/

theorem execute_encode_genmnem (ep : Bool) (c : CoreState) :
    execute cfg (encode (.genmnem ep)) c = genmnem cfg ep c := by
  rw [execute, decode_encode]

/-- Issue leaves the operand of `GENMNEM` alone (30_encoding.md R100). -/
theorem entropyOperand_issue (ep : Bool) (w : Word) (c : CoreState) :
    entropyOperand cfg ep (c.issue w) = entropyOperand cfg ep c := by
  refine entropyOperand_congr cfg (fun _ => rfl) fun _ h32 k hk =>
    (CoreState.issue_sameOperands w c).bytes _ (.inl ?_)
  simp only [Buffer.offset]; omega

/-- An entropy of an illegal length gives no words (40_mnemonic_encoder.md R121, R140). -/
theorem generateMnemonics_of_invalid {o : Option ByteString} (h : ∀ e, o = some e → e.length ∉ validLengths) :
    generateMnemonics cfg o = .err .invalidEntropy := by
  rcases validate_cases o with ⟨e, ho, hv, -⟩ | ⟨-, hbad⟩
  · exact absurd hv (h e ho)
  · rw [generateMnemonics, hbad]

/-- An entropy in `EBUF` with its length in `ELEN` gives what the entropy itself gives: one longer than 32 bytes, whose
bytes the CORE does not read, is rejected for its length (30_encoding.md R95). -/
theorem generateMnemonics_entropyOperand {e : ByteString} {c : CoreState} (hlen : c.elen.toNat = e.length)
    (hbytes : c.bytes .ebuf e.length = e) :
    generateMnemonics cfg (entropyOperand cfg true c) = generateMnemonics cfg (some e) := by
  by_cases h32 : c.elen.toNat ≤ Config.entropyMaxBytes
  · have hop : entropyOperand cfg true c = some e := by
      rw [entropyOperand, if_neg (by simp), if_pos h32, hlen, hbytes]
    rw [hop]
  · have hlong : e.length ∉ validLengths := by
      simp only [Config.entropyMaxBytes] at h32
      simp only [validLengths, List.mem_cons, List.not_mem_nil, or_false]
      omega
    rw [generateMnemonics_of_invalid fun e' he' => by rwa [entropyOperand_length he', hlen],
      generateMnemonics_of_invalid fun e' he' => by rwa [← Option.some.inj he']]

/-- The words of a list, from what stands at each of its positions. -/
theorem map_filter_finRange {n : Nat} {l : List α} (hl : l.length ≤ n) {f : Fin n → α}
    (h : ∀ (i : Fin n) (hi : i.val < l.length), f i = l[i.val]) :
    ((List.finRange n).filter fun i => i.val < l.length).map f = l := by
  induction n generalizing l with
  | zero => rw [List.eq_nil_of_length_eq_zero (Nat.le_zero.1 hl)]; rfl
  | succ n ih =>
    cases l with
    | nil => simp
    | cons x l =>
      have hrest := ih (l := l) (f := fun i => f i.succ) (Nat.le_of_succ_le_succ hl)
        fun i hi => h i.succ (Nat.succ_lt_succ hi)
      rw [List.finRange_succ, List.filter_cons_of_pos (by simp), List.filter_map, List.map_cons, List.map_map,
        h 0 (by simp)]
      refine congrArg (x :: ·) (Eq.trans ?_ hrest)
      simp [Function.comp_def]

/-- The text of a slot, cut to the length of the word it holds (10_state.md R33, R34). -/
theorem CoreState.wtext_take {c : CoreState} {i : Fin 24} {w : ByteString} (hw : w.length ≤ 16)
    (h : ∀ k, k < 16 → c.byte (.wtext i) k = w.getD k 0) : (c.bytes (.wtext i) 16).take w.length = w := by
  have hl : ((c.bytes (.wtext i) 16).take w.length).length = w.length := by
    rw [List.length_take, CoreState.bytes_length]; omega
  apply List.ext_getElem hl
  intro k hk hk'
  simp only [CoreState.bytes, List.getElem_take, List.getElem_map, List.getElem_range]
  rw [h k (by omega), List.getD_eq_getElem _ _ hk']

/-- The words of a result, read back over zero results (30_encoding.md R101, R104). -/
theorem CoreState.reportMnemonic_collect (hwl : WordlistWellFormed cfg.wordlist) {words : List (WordIndex × ByteString)}
    (hn : words.length ≤ 24) (hwords : ∀ w ∈ words, w.2 = cfg.wordlist w.1) {c : CoreState} (hz : ResultsZero c)
    (hm : c.mem.wf = true) :
    let d := c.reportMnemonic cfg (words.map Prod.fst)
    (((List.finRange 24).filter fun i => i.val < d.wcount.toNat).map fun i =>
      (d.widx[i].idx, (d.bytes (.wtext i) 16).take d.widx[i].wlen.toNat)) = words := by
  intro d
  obtain ⟨hbelow, -⟩ := CoreState.reportMnemonic_words hwl (words.map Prod.fst) hz hm
  have hcount : d.wcount.toNat = words.length := by
    refine (congrArg BitVec.toNat (CoreState.reportMnemonic_flags cfg (words.map Prod.fst) c).2.2.2).trans ?_
    rw [List.length_map, BitVec.toNat_ofNat, Nat.mod_eq_of_lt (by omega)]
  rw [hcount]
  refine map_filter_finRange hn fun i hi => ?_
  have hi' : i.val < (words.map Prod.fst).length := by rwa [List.length_map]
  have hidx : d.widx[i].idx = words[i.val].1 := by
    rw [CoreState.reportMnemonic_widx cfg c (List.getElem?_eq_getElem hi'), List.getElem_map]
  have htext : (d.bytes (.wtext i) 16).take d.widx[i].wlen.toNat = cfg.wordlist d.widx[i].idx := by
    rw [hbelow.wlen i hi']
    exact CoreState.wtext_take (hwl.sized _).2 (hbelow.wtext i hi')
  rw [htext, hidx, ← hwords _ (List.getElem_mem hi)]

/-- The words of `generateMnemonics` are entries of the wordlist, at most 24 (40_mnemonic_encoder.md R142). -/
theorem generateMnemonics_ok {o : Option ByteString} {words : List (WordIndex × ByteString)}
    (h : generateMnemonics cfg o = .ok words) : words.length ≤ 24 ∧ ∀ w ∈ words, w.2 = cfg.wordlist w.1 := by
  rcases validate_cases o with ⟨e, -, hv, hok⟩ | ⟨-, hbad⟩
  · rw [generateMnemonics, hok] at h
    cases h
    refine ⟨?_, fun w hw => ?_⟩
    · rw [mapIndices_length, bitString_length, (groups_of_valid hv).1]
      simp only [validLengths, List.mem_cons, List.not_mem_nil, or_false] at hv
      omega
    · obtain ⟨j, -, rfl⟩ := List.mem_map.1 hw
      rfl
  · rw [generateMnemonics, hbad] at h
    cases h

/-- The program `generateMnemonics` from its command on, its operand written (30_encoding.md R104). -/
theorem HostProgram.run_mnemonicCommand (hwl : WordlistWellFormed cfg.wordlist) {s : State} (hs : s.core.Ready)
    (ep : Bool) :
    ∃ k t, HostProgram.run cfg k
      (.perform (HostScript.wr cfg .cmd (encode (.genmnem ep))) (HostScript.mnemonicFinish cfg)) s =
      HostRun.ofResult id t (generateMnemonics cfg (entropyOperand cfg ep s.core)) := by
  have hexec := execute_encode_genmnem (cfg := cfg) ep (s.core.issue (encode (.genmnem ep)))
  rw [genmnem, entropyOperand_issue] at hexec
  cases hr : generateMnemonics cfg (entropyOperand cfg ep s.core) with
  | err e =>
    rw [hr] at hexec
    exact HostProgram.run_command_err hs hexec _
  | ok words =>
    rw [hr] at hexec
    obtain ⟨hn, hwords⟩ := generateMnemonics_ok hr
    have herr := (CoreState.reportMnemonic_flags cfg (words.map Prod.fst) (s.core.issue (encode (.genmnem ep)))).2.1
    obtain ⟨j, t, hcore, hrun⟩ := HostProgram.run_command_ok hs hexec herr
      (.receive (HostScript.rd cfg .wcount) fun n =>
        .receiveAll (HostScript.mnemonicWordReads cfg n.toNat) fun vs => .done (HostScript.wordsOfReads vs))
    obtain ⟨i, u, -, hu⟩ := HostProgram.run_mnemonicCollect (cfg := cfg) (s := t)
      (by rw [hcore]; exact (CoreState.complete_fixed cfg _ _).1)
    refine ⟨j + (i + 0), u, ((hrun (i + 0)).trans (hu 0)).trans ?_⟩
    rw [hcore, CoreState.complete, CoreState.reportMnemonic_collect hwl hn hwords
      (CoreState.issue_resultsZero _ s.core) (CoreState.issue_wf _ hs.wf)]
    rfl

theorem HostScript.mnemonicMacro_some (e : ByteString) :
    HostScript.mnemonicMacro cfg (some e) =
      .performAll (HostScript.wrAll cfg (HostScript.textWords Target.ebuf .elen e))
        (.perform (HostScript.wr cfg .cmd (encode (.genmnem true))) (HostScript.mnemonicFinish cfg)) := by
  rw [HostScript.wrAll_textWords, HostProgram.performAll_append, HostScript.mnemonicMacro, HostScript.mnemonicWrites,
    HostProgram.performAll_append]
  rfl

/-- The program `generateMnemonics` on a CORE that is neither busy nor FATAL (30_encoding.md R104). -/
theorem HostProgram.run_mnemonicMacro (hwl : WordlistWellFormed cfg.wordlist) {s : State} (hs : s.core.Ready)
    {entropy : Option ByteString} (he : ∀ e, entropy = some e → e.length ≤ 64) :
    ∃ k t, HostProgram.run cfg k (HostScript.mnemonicMacro cfg entropy) s =
      HostRun.ofResult id t (generateMnemonics cfg entropy) := by
  cases entropy with
  | none => exact HostProgram.run_mnemonicCommand hwl hs false
  | some e =>
    obtain ⟨hready, hlen, hbytes⟩ := CoreState.writeWords_entropy (he e rfl) hs
    rw [HostScript.mnemonicMacro_some]
    obtain ⟨t, hcore, hrun⟩ := HostProgram.run_wrAll (cfg := cfg)
      (HostScript.textWords_ne_cmd (target := Target.ebuf) (len := .elen) (fun _ => rfl) (by decide) e) hs.busy
      (.perform (HostScript.wr cfg .cmd (encode (.genmnem true))) (HostScript.mnemonicFinish cfg))
    rw [← hcore] at hready hlen hbytes
    obtain ⟨k, u, hk⟩ := HostProgram.run_mnemonicCommand hwl hready true
    rw [generateMnemonics_entropyOperand hlen hbytes] at hk
    exact ⟨_, u, (hrun k).trans hk⟩

end Sys2Proof.Machine
end

section
/-! What the host's statements and programs do (30_encoding.md R104), put together. -/

namespace Sys2Proof.Machine

/-- Settles O59: a packed word lane by lane, the words of a byte string step by step, and each host program from its
writes over its command to its reads. -/
theorem packedWordsCarryTheirBytes : Obligations.PackedWordsCarryTheirBytes := by
  refine ⟨HostScript.pack_toNat, fun c e j t ht hb hw => CoreState.byte_writeWord_pack hb hw e j ht,
    fun cfg s b n target e rest ht he hb hw hs => ?_, fun cfg s entropy hwl hb hf hw he => ?_,
    fun cfg s m p hb hf hw hm hp => ?_⟩
  · rw [HostScript.wrBytes_eq_wrAll] at hs
    have hrun := runWith_wrAll (HostScript.packedWords_ne_cmd (fun j => (ht j).1) e) hb hs
    obtain ⟨mem, hmem, -, hbytes, hzero, hother⟩ := CoreState.writeWords_packedWords b ht he hb hw
    rw [HostScript.packedWords_length target he, hmem] at hrun
    exact ⟨_, hrun, rfl, rfl, rfl, rfl, hbytes, hzero, hother⟩
  · obtain ⟨k, t, hrun⟩ := HostProgram.run_mnemonicMacro hwl ⟨hb, hf, hw⟩ he
    refine ⟨k, t, hrun.trans ?_⟩
    cases generateMnemonics cfg entropy <;> rfl
  · obtain ⟨k, t, hrun⟩ := HostProgram.run_seedMacro (cfg := cfg) ⟨hb, hf, hw⟩ hm hp
    refine ⟨k, t, hrun.trans ?_⟩
    cases generateSeed cfg m p <;> rfl

end Sys2Proof.Machine
end

section
/-! The word indices of an entropy as the base 2048 digits of one integer (40_mnemonic_encoder.md R135), and what that
gives: the encoder's word counts and failures, and its injectivity (R142). -/

namespace Sys2Proof.Machine

/-! ### When the encoder yields words -/

theorem validate_of_valid {e : ByteString} (h : e.length ∈ validLengths) : validate (some e) = .ok e := by
  rcases validate_cases (some e) with ⟨_, ⟨⟩, -, hok⟩ | ⟨hbad, -⟩
  · exact hok
  · exact absurd h (hbad e rfl)

theorem validate_of_invalid {e : ByteString} (h : e.length ∉ validLengths) :
    validate (some e) = .err .invalidEntropy := by
  rcases validate_cases (some e) with ⟨_, ⟨⟩, hv, -⟩ | ⟨-, hbad⟩
  · exact absurd hv h
  · exact hbad

/-- Settles O39, by the two kinds of length. -/
theorem validateAcceptsFiveLengths : Obligations.ValidateAcceptsFiveLengths := by
  refine ⟨rfl, fun e => ⟨fun hok => ?_, validate_of_valid⟩, fun _ => validate_of_invalid⟩
  by_contra hbad
  rw [validate_of_invalid hbad] at hok
  cases hok

/-- An entropy of a legal length gives the words of its BitString (40_mnemonic_encoder.md R140). -/
theorem generateMnemonics_of_valid (cfg : Config) {e : ByteString} (h : e.length ∈ validLengths) :
    generateMnemonics cfg (some e) = .ok (mapIndices cfg (bitString cfg e)) := by
  rw [generateMnemonics, validate_of_valid h]

theorem generateMnemonics_eq_ok {cfg : Config} {e : ByteString} {words : List (WordIndex × ByteString)}
    (h : generateMnemonics cfg (some e) = .ok words) :
    e.length ∈ validLengths ∧ words = mapIndices cfg (bitString cfg e) := by
  by_cases hv : e.length ∈ validLengths
  · rw [generateMnemonics_of_valid cfg hv] at h
    exact ⟨hv, (Result.ok.inj h).symm⟩
  · rw [generateMnemonics_of_invalid fun _ he => Option.some.inj he ▸ hv] at h
    cases h

theorem mapIndices_bitString_length (cfg : Config) {e : ByteString} (h : e.length ∈ validLengths) :
    (mapIndices cfg (bitString cfg e)).length = 3 * e.length / 4 := by
  rw [mapIndices_length, bitString_length, (groups_of_valid h).1]

/-- Settles O44: a legal length gives a word for each group, any other the validator's error. -/
theorem mnemonicCountAndMembership : Obligations.MnemonicCountAndMembership := by
  refine fun cfg e => ⟨fun hv => ?_, fun hv =>
    generateMnemonics_of_invalid fun _ he => Option.some.inj he ▸ hv⟩
  have hok := generateMnemonics_of_valid cfg hv
  have hlen := mapIndices_bitString_length cfg hv
  obtain ⟨-, hwords⟩ := generateMnemonics_ok hok
  refine ⟨_, hok, hlen, ?_, hwords⟩
  rw [hlen]
  simp only [validLengths, List.mem_cons, List.not_mem_nil, or_false] at hv ⊢
  omega

/-! ### The BitString as an integer -/

theorem bitsMSB_succ (v n : Nat) : bitsMSB v (n + 1) = v.testBit n :: bitsMSB v n := by
  rw [bitsMSB, List.range_succ_eq_map, List.map_cons, List.map_map]
  refine congrArg (v.testBit n :: ·) (List.map_congr_left fun k _ => ?_)
  rw [Function.comp_apply, show n + 1 - 1 - (k + 1) = n - 1 - k by omega]

/-- `valMSB` undoes `bitsMSB` on the low bits (00_scope.md R12). -/
theorem valMSB_bitsMSB (v n : Nat) : valMSB (bitsMSB v n) = v % 2 ^ n := by
  induction n with
  | zero => exact (Nat.mod_one v).symm
  | succ n ih =>
    rw [bitsMSB_succ, valMSB, ih, bitsMSB_length, Nat.toNat_testBit, Nat.mod_pow_succ]
    ring

/-- `bigEndian` in the digits of the library. -/
theorem bigEndian_eq_ofDigits (e : ByteString) :
    bigEndian e = Nat.ofDigits 256 (e.map BitVec.toNat).reverse := by
  rw [Nat.ofDigits_eq_foldr, List.foldr_reverse, List.foldl_map, bigEndian]
  simp only [Nat.cast_id, Nat.add_comm]

/-- The first byte of a big-endian integer is its most significant. -/
theorem bigEndian_cons (b : Byte) (e : ByteString) : bigEndian (b :: e) = b.toNat * 256 ^ e.length + bigEndian e := by
  rw [bigEndian_eq_ofDigits, bigEndian_eq_ofDigits, List.map_cons, List.reverse_cons, Nat.ofDigits_append,
    Nat.ofDigits_singleton, List.length_reverse, List.length_map]
  ring

theorem valMSB_flatMap_bits (e : ByteString) : valMSB (e.flatMap fun b => bitsMSB b.toNat 8) = bigEndian e := by
  induction e with
  | nil => rfl
  | cons b e ih =>
    rw [List.flatMap_cons, valMSB_append, ih, valMSB_bitsMSB, flatMap_bits_length, bigEndian_cons,
      Nat.mod_eq_of_lt b.isLt, Nat.pow_mul]

/-- `N = E × 2^CS + c` (40_mnemonic_encoder.md R135, from R128). -/
theorem valMSB_bitString (cfg : Config) {e : ByteString} (h : e.length ∈ validLengths) :
    valMSB (bitString cfg e) = bigEndian e * 2 ^ (e.length / 4) + (checksum cfg e).1 := by
  have hc : (checksum cfg e).2 = csBits e := rfl
  rw [bitString, concatenate, valMSB_append, valMSB_flatMap_bits, valMSB_bitsMSB, bitsMSB_length, hc,
    Nat.mod_eq_of_lt (checksum_lt cfg h), csBits_of_valid h]

/-! ### The groups as digits -/

/-- The value of a slice of a bit string: shift out what follows it, cut off what precedes it. -/
theorem valMSB_slice {b : BitString} {i k : Nat} (h : i + k ≤ b.length) :
    valMSB ((b.drop i).take k) = valMSB b / 2 ^ (b.length - i - k) % 2 ^ k := by
  have hlen : ((b.drop i).take k).length = k := by rw [List.length_take, List.length_drop]; omega
  have hrest : ((b.drop i).drop k).length = b.length - i - k := by rw [List.length_drop, List.length_drop]
  have hsplit : valMSB b = (valMSB (b.take i) * 2 ^ k + valMSB ((b.drop i).take k)) * 2 ^ (b.length - i - k) +
      valMSB ((b.drop i).drop k) := by
    conv_lhs => rw [← List.take_append_drop i b, ← List.take_append_drop k (b.drop i), ← List.append_assoc]
    rw [valMSB_append, valMSB_append, hlen, hrest]
  have hlt := valMSB_lt ((b.drop i).take k)
  have hlow := valMSB_lt ((b.drop i).drop k)
  rw [hlen] at hlt
  rw [hrest] at hlow
  rw [hsplit, Nat.mul_comm _ (2 ^ (b.length - i - k)), Nat.mul_add_div (Nat.two_pow_pos _), Nat.div_eq_of_lt hlow,
    Nat.add_zero, Nat.mul_comm, Nat.mul_add_mod, Nat.mod_eq_of_lt hlt]

/-- Group `j` of `m` is the `j`-th digit from the top in base 2048 (40_mnemonic_encoder.md R131, R135). -/
theorem groupIndex_toNat_eq_digit {b : BitString} {m j : Nat} (h : b.length = 11 * m) (hj : j < m) :
    (groupIndex b j).toNat = valMSB b / 2048 ^ (m - 1 - j) % 2048 := by
  have hrest : b.length - 11 * j - 11 = 11 * (m - 1 - j) := by omega
  have hslice := valMSB_slice (b := b) (i := 11 * j) (k := 11) (by omega)
  rw [hrest, Nat.pow_mul] at hslice
  rw [groupIndex, BitVec.toNat_ofNat, Config.groupBits, hslice, Nat.mod_mod]
  rfl

/-- The `m` low digits of a number in base `b` add up to its remainder. -/
theorem sum_low_digits (b n m : Nat) : ∑ i ∈ Finset.range m, n / b ^ i % b * b ^ i = n % b ^ m := by
  induction m with
  | zero => exact (Nat.mod_one n).symm
  | succ m ih => rw [Finset.sum_range_succ, ih, Nat.mod_pow_succ, Nat.mul_comm (b ^ m)]

/-- The digits of a number in base `b`, the most significant of the `m` first, add up to it. -/
theorem sum_digits_mul_pow {b n m : Nat} (h : n < b ^ m) :
    ∑ j ∈ Finset.range m, n / b ^ (m - 1 - j) % b * b ^ (m - 1 - j) = n := by
  rw [Finset.sum_range_reflect (fun i => n / b ^ i % b * b ^ i), sum_low_digits, Nat.mod_eq_of_lt h]

/-- A BitString of whole groups is the sum of its indices by their weights (40_mnemonic_encoder.md R135). -/
theorem valMSB_eq_sum_groupIndex {b : BitString} {m : Nat} (h : b.length = 11 * m) :
    valMSB b = ∑ j ∈ Finset.range m, (groupIndex b j).toNat * 2048 ^ (m - 1 - j) := by
  have hlt : valMSB b < 2048 ^ m := by
    have := valMSB_lt b
    rwa [h, Nat.pow_mul] at this
  rw [← sum_digits_mul_pow hlt]
  refine Finset.sum_congr rfl fun j hj => ?_
  rw [groupIndex_toNat_eq_digit h (Finset.mem_range.1 hj)]

/-- A valid entropy fills whole groups (00_scope.md R10). -/
theorem bitString_length_of_valid (cfg : Config) {e : ByteString} (h : e.length ∈ validLengths) :
    (bitString cfg e).length = 8 * e.length + e.length / 4 ∧ (bitString cfg e).length = 11 * (3 * e.length / 4) := by
  have hlen : (bitString cfg e).length = 8 * e.length + e.length / 4 := by
    rw [bitString_length, csBits_of_valid h, entBits]
  simp only [validLengths, List.mem_cons, List.not_mem_nil, or_false] at h
  exact ⟨hlen, by omega⟩

/-- Settles O43: `N` is the BitString as an integer, and the indices are its digits in base 2048. -/
theorem wordIndexClosedForm : Obligations.WordIndexClosedForm := by
  intro cfg e hv
  obtain ⟨hbits, hgroups⟩ := bitString_length_of_valid cfg hv
  rw [← valMSB_bitString cfg hv]
  refine ⟨hbits ▸ valMSB_lt (bitString cfg e), fun j hj => ?_, valMSB_eq_sum_groupIndex hgroups⟩
  rw [groupIndex_toNat_eq_digit hgroups hj, Nat.shiftRight_eq_div_pow, Nat.pow_mul]
  exact (Nat.and_two_pow_sub_one_eq_mod _ 11).symm

/-! ### Injectivity -/

/-- Big-endian integers of byte strings of one length differ where the strings do. -/
theorem bigEndian_injective {e e' : ByteString} (hlen : e.length = e'.length) (h : bigEndian e = bigEndian e') :
    e = e' := by
  have hlt (x : ByteString) : ∀ d ∈ (x.map BitVec.toNat).reverse, d < 256 := fun d hd => by
    obtain ⟨b, -, rfl⟩ := List.mem_map.1 (List.mem_reverse.1 hd)
    exact b.isLt
  rw [bigEndian_eq_ofDigits, bigEndian_eq_ofDigits] at h
  have hdigits := Nat.ofDigits_inj_of_len_eq (by omega) (by simpa using hlen) (hlt e) (hlt e') h
  exact List.map_injective_iff.2 (fun _ _ => BitVec.eq_of_toNat_eq) (List.reverse_injective hdigits)

/-- The entropy is what stands above the checksum in the BitString. -/
theorem bigEndian_eq_valMSB_div (cfg : Config) {e : ByteString} (h : e.length ∈ validLengths) :
    bigEndian e = valMSB (bitString cfg e) / 2 ^ (e.length / 4) := by
  have hc := checksum_lt cfg h
  rw [csBits_of_valid h] at hc
  rw [valMSB_bitString cfg h, Nat.mul_comm, Nat.mul_add_div (Nat.two_pow_pos _), Nat.div_eq_of_lt hc, Nat.add_zero]

/-- Valid entropies with the same word indices are equal (40_mnemonic_encoder.md R142 (f)). -/
theorem eq_of_indices_eq (cfg : Config) {e e' : ByteString} (h : e.length ∈ validLengths) (h' : e'.length ∈ validLengths)
    (hidx : (mapIndices cfg (bitString cfg e)).map Prod.fst = (mapIndices cfg (bitString cfg e')).map Prod.fst) :
    e = e' := by
  have hlen : e.length = e'.length := by
    have hcount := congrArg List.length hidx
    rw [List.length_map, List.length_map, mapIndices_bitString_length cfg h, mapIndices_bitString_length cfg h'] at hcount
    simp only [validLengths, List.mem_cons, List.not_mem_nil, or_false] at h h'
    omega
  have hvalue : valMSB (bitString cfg e) = valMSB (bitString cfg e') := by
    rw [valMSB_eq_sum_groupIndex (bitString_length_of_valid cfg h).2,
      valMSB_eq_sum_groupIndex (bitString_length_of_valid cfg h').2, ← hlen]
    refine Finset.sum_congr rfl fun j hj => ?_
    have hj' := Finset.mem_range.1 hj
    have hgroup : some (groupIndex (bitString cfg e) j) = some (groupIndex (bitString cfg e') j) := by
      rw [← mapIndices_bitString_getElem? cfg h hj', hidx, mapIndices_bitString_getElem? cfg h' (hlen ▸ hj')]
    rw [Option.some.inj hgroup]
  refine bigEndian_injective hlen ?_
  rw [bigEndian_eq_valMSB_div cfg h, bigEndian_eq_valMSB_div cfg h', hvalue, hlen]

/-- A well-formed wordlist gives no two indices one word (70_reset_and_hazards.md R252). -/
theorem wordlist_injective {w : WordIndex → ByteString} (h : WordlistWellFormed w) : Function.Injective w :=
  fun i j hij => by_contra fun hne => h.distinct i j hne hij

theorem mapIndices_map_snd (cfg : Config) (b : BitString) :
    (mapIndices cfg b).map Prod.snd = ((mapIndices cfg b).map Prod.fst).map cfg.wordlist := by
  rw [mapIndices, List.map_map, List.map_map, List.map_map]
  rfl

/-- Settles O45: equal indices are equal digits of the BitString, and the entropy is its upper part; equal words of a
well-formed wordlist have equal indices. -/
theorem encoderIsInjective : Obligations.EncoderIsInjective := by
  intro cfg e e' ws ws' hok hok'
  obtain ⟨hv, rfl⟩ := generateMnemonics_eq_ok hok
  obtain ⟨hv', rfl⟩ := generateMnemonics_eq_ok hok'
  refine ⟨eq_of_indices_eq cfg hv hv', fun hwl hwords => eq_of_indices_eq cfg hv hv' ?_⟩
  rw [mapIndices_map_snd, mapIndices_map_snd] at hwords
  exact List.map_injective_iff.2 (wordlist_injective hwl) hwords

end Sys2Proof.Machine
end

section
/-! The completion of `GENMNEM`: every register under a well-formed wordlist, and the frame (40_mnemonic_encoder.md
R141, 30_encoding.md R101). -/

namespace Sys2Proof.Machine

theorem genmnem_of_validLength (cfg : Config) {c : CoreState} (hv : c.elen.toNat ∈ validLengths) :
    genmnem cfg true c = .okMnemonic ((mapIndices cfg (bitString cfg (c.bytes .ebuf c.elen.toNat))).map Prod.fst) := by
  rcases genmnem_cases cfg true c with ⟨-, -, hg⟩ | ⟨hep | hbad, -⟩
  · exact hg
  · cases hep
  · exact absurd hv hbad

/-- Settles O35: by the status invariant the results were zero, so those of the completion are the words and no more. -/
theorem genmnemUnderWellFormedWordlist : Obligations.GenmnemUnderWellFormedWordlist := by
  intro cfg s hwl hv hst hb hwf
  obtain ⟨-, herr, -, hecode, hz⟩ := hst.of_busy hb
  have he : (s.core.bytes .ebuf s.core.elen.toNat).length ∈ validLengths := by rwa [CoreState.bytes_length]
  have hok := generateMnemonics_of_valid cfg he
  have hg := genmnem_of_validLength cfg hv
  generalize mapIndices cfg (bitString cfg (s.core.bytes .ebuf s.core.elen.toNat)) = words at hok hg
  obtain ⟨hn, hentries⟩ := generateMnemonics_ok hok
  obtain ⟨hdone, herr', hecode', hwcount⟩ := CoreState.reportMnemonic_flags cfg (words.map Prod.fst) s.core
  obtain ⟨hbusy, hcmd, -⟩ := CoreState.complete_fixed cfg (.okMnemonic (words.map Prod.fst)) s.core
  obtain ⟨hbelow, habove⟩ := CoreState.reportMnemonic_words hwl (words.map Prod.fst) hz hwf
  rw [List.length_map] at hwcount hbelow habove
  refine ⟨_, words, (execWith_genmnem cfg true s).trans (by rw [hg]), hok, hbusy, hdone, herr'.trans herr,
    hecode'.trans hecode, ?_, fun i hi => ?_, hbelow, habove, fun k hk => ?_,
    CoreState.complete_sameOperands cfg (.okMnemonic (words.map Prod.fst)) s.core, hcmd⟩
  · refine (congrArg BitVec.toNat hwcount).trans ?_
    rw [BitVec.toNat_ofNat, Nat.mod_eq_of_lt (by omega)]
  · have hword : (words.map Prod.fst)[i.val]? = some words[i.val].1 := by
      rw [List.getElem?_map, List.getElem?_eq_getElem hi, Option.map_some]
    rw [State.complete_core, CoreState.complete, CoreState.reportMnemonic_widx cfg s.core hword,
      List.getElem?_eq_getElem hi, ← hentries _ (List.getElem_mem hi)]
  · exact (CoreState.reportMnemonic_seed cfg _ s.core hk).trans (hz.bytes _ (resultOffset_seed hk))

/-- Placing words stores the bytes of their texts, at most 16 of each, and no others (30_encoding.md R101; log 16). -/
theorem CoreState.placeWords_read_other (cfg : Config) {i : Nat} {l : List WordIndex} (c : CoreState) {a : Nat}
    (ha : ∀ (j : Fin 24) (idx : WordIndex) (k : Nat), i ≤ j.val → l[j.val - i]? = some idx →
      k < min Config.wslotBytes (romRead cfg idx).length → a ≠ Buffer.offset (.wtext j) + k) :
    (CoreState.placeWords cfg i l c).mem.read a = c.mem.read a := by
  induction l generalizing i c with
  | nil => rfl
  | cons x l ih =>
    have hrest : (CoreState.placeWords cfg (i + 1) l (c.placeWord cfg i x)).mem.read a =
        (c.placeWord cfg i x).mem.read a := by
      refine ih _ fun j idx k hj hidx => ha j idx k (by omega) ?_
      rwa [show j.val - i = j.val - (i + 1) + 1 by omega, List.getElem?_cons_succ]
    rw [CoreState.placeWords, hrest]
    by_cases hi : i < 24
    · refine CoreState.placeWord_read_other cfg i x c ?_
      by_contra hin
      refine ha ⟨i, hi⟩ x (a - (0x400 + 16 * i)) (Nat.le_refl i) (by simp) ?_ ?_
      · rw [Config.wslotBytes]; omega
      · rw [wtext_offset, Fin.val_mk]; omega
    · rw [CoreState.placeWord, dif_neg hi]

/-- Settles O37: what every completion leaves, then the completion with an error and the completion with words. -/
theorem genmnemFrame : Obligations.GenmnemFrame := by
  intro ep s t hexec
  rw [exec_platform, execWith_genmnem] at hexec
  obtain rfl := Host.Outcome.next.inj hexec
  obtain ⟨-, hcmd, hfatal, helen, hmlen, hplen⟩ := CoreState.complete_fixed platform (genmnem platform ep s.core) s.core
  refine ⟨rfl, rfl, rfl, hcmd, hfatal, helen, hmlen, hplen, fun e he => ?_, fun l hl => ?_⟩
  · rw [he]
    exact ⟨rfl, rfl, rfl, fun _ => rfl⟩
  · obtain ⟨-, herr, hecode, -⟩ := CoreState.reportMnemonic_flags platform l s.core
    rw [hl]
    exact ⟨herr, hecode, fun i hi => CoreState.placeWords_widx_out platform _ (.inr (by omega)),
      fun a ha => CoreState.placeWords_read_other platform _ fun j idx k _ => ha j idx k⟩

end Sys2Proof.Machine
end

section
/-! `GENSEED`: the blank test, the completion with a seed and the one without, and the frame (41_seed_deriver.md R161 to
R166). -/

namespace Sys2Proof.Machine

/-! ### The blank test -/

theorem isAsciiSpace_iff (b : Byte) :
    isAsciiSpace b = true ↔ b = 0x09 ∨ b = 0x0A ∨ b = 0x0B ∨ b = 0x0C ∨ b = 0x0D ∨ b = 0x20 := by
  simp only [isAsciiSpace, Bool.or_eq_true, beq_iff_eq, or_assoc]

theorem isBlankDefault_iff (m : ByteString) : isBlankDefault m = true ↔
    ∀ b ∈ m, b = 0x09 ∨ b = 0x0A ∨ b = 0x0B ∨ b = 0x0C ∨ b = 0x0D ∨ b = 0x20 := by
  simp only [isBlankDefault, List.all_eq_true, isAsciiSpace_iff]

/-- The default test meets the laws: a text is the bytes of its characters, and of a character the set may be asked
byte by byte (41_seed_deriver.md R162; log 12). -/
theorem isBlankDefault_blankLaws : BlankLaws isBlankDefault isAsciiSpaceChar where
  empty := rfl
  all m chars h := by
    obtain ⟨rfl, hchars⟩ := utf8Chars_sound h
    rw [isBlankDefault, List.all_flatten, Bool.eq_iff_iff, List.all_eq_true, List.all_eq_true]
    exact forall₂_congr fun c hc => by rw [isAsciiSpaceChar_of_utf8Char (hchars c hc)]

/-- Settles O53: the six bytes of the default test, and the laws by the characters of a text. -/
theorem blankTestFollowsItsDefault : Obligations.BlankTestFollowsItsDefault :=
  ⟨isBlankDefault_iff, fun _ => rfl, isBlankDefault_blankLaws⟩

/-- One byte of a mnemonic outside the six makes it not blank on the platform (41_seed_deriver.md R162; log 9). -/
theorem isBlank_platform_of_byte {c : CoreState} {n k : Nat} (hk : k < n)
    (h : c.byte .mbuf k ∉ [0x09, 0x0A, 0x0B, 0x0C, 0x0D, 0x20]) : platform.isBlank (c.bytes .mbuf n) = false := by
  rw [← Bool.not_eq_true]
  intro hblank
  have hspace := (isBlankDefault_iff _).1 hblank _ (List.mem_map.2 ⟨k, List.mem_range.2 hk, rfl⟩)
  exact h (by simpa using hspace)

/-! ### What the command yields where no text is longer than its buffer -/

section
variable {cfg : Config} {pp : Bool} {c : CoreState}

theorem overCapacity_eq_false {mp : Bool} (hm : mp = true → c.mlen.toNat ≤ 256) (hp : pp = true → c.plen.toNat ≤ 256) :
    overCapacity mp pp c = false := by
  rw [← Bool.not_eq_true, overCapacity_iff]
  rintro (⟨h, hlt⟩ | ⟨h, hlt⟩)
  · exact absurd (hm h) (Nat.not_le.2 hlt)
  · exact absurd (hp h) (Nat.not_le.2 hlt)

/-- A blank mnemonic is reported (60_exceptions.md R215). -/
theorem genseed_of_blank (hm : c.mlen.toNat ≤ 256) (hp : pp = true → c.plen.toNat ≤ 256)
    (hb : cfg.isBlank (c.bytes .mbuf c.mlen.toNat) = true) : genseed cfg true pp c = .err .emptyMnemonic := by
  have hcap := overCapacity_eq_false (fun _ : true = true => hm) hp
  rcases genseed_cases cfg true pp c with ⟨ho, -⟩ | ⟨-, -, hg⟩ | ⟨-, -, hnb, -⟩
  · rw [hcap] at ho; cases ho
  · exact hg
  · rw [hb] at hnb; cases hnb

/-- Any other mnemonic gives a seed (41_seed_deriver.md R166). -/
theorem genseed_of_not_blank (hm : c.mlen.toNat ≤ 256) (hp : pp = true → c.plen.toNat ≤ 256)
    (hb : cfg.isBlank (c.bytes .mbuf c.mlen.toNat) = false) : genseed cfg true pp c =
      .okSeed (deriveSeed cfg (c.bytes .mbuf c.mlen.toNat) (salt (passphraseOperand pp c))) := by
  have hcap := overCapacity_eq_false (fun _ : true = true => hm) hp
  rcases genseed_cases cfg true pp c with ⟨ho, -⟩ | ⟨-, hmp | hnb, -⟩ | ⟨-, -, -, hg⟩
  · rw [hcap] at ho; cases ho
  · cases hmp
  · rw [hb] at hnb; cases hnb
  · exact hg

end

/-- Settles O60: by the laws the mnemonic is blank exactly where every character is in the set. -/
theorem blankMnemonicIsAllWhitespaceCharacters : Obligations.BlankMnemonicIsAllWhitespaceCharacters := by
  intro cfg space pp s chars hlaws hchars hm hp
  have hblank := hlaws.all _ chars hchars
  rw [execWith_genseed]
  refine ⟨fun hall => ?_, fun ⟨c, hc, hspace⟩ => ⟨_, rfl, ?_⟩⟩
  · rw [genseed_of_blank hm hp (hblank.trans (List.all_eq_true.2 hall))]
    rfl
  · rw [genseed_of_not_blank hm hp (hblank.trans (List.all_eq_false.2 ⟨c, hc, by simp [hspace]⟩))]
    exact ⟨rfl, rfl, rfl, rfl⟩

/-! ### The completion with a seed -/

/-- The salt of the operands: "mnemonic", then the passphrase or nothing (41_seed_deriver.md R163). -/
theorem salt_passphraseOperand (pp : Bool) (c : CoreState) : salt (passphraseOperand pp c) =
    Config.saltPrefix ++ (if pp = true then c.bytes .pbuf c.plen.toNat else []) := by
  cases pp with
  | false => rfl
  | true => rfl

/-- A completion with a seed stores the bytes of `SEED` and no others (30_encoding.md R101). -/
theorem CoreState.reportSeed_read_other (d : Vector Byte 64) (c : CoreState) {a : Nat}
    (ha : ∀ k, k < 64 → a ≠ Buffer.offset .seed + k) : (c.reportSeed d).mem.read a = c.mem.read a := by
  refine Memory.read_writeBytes_other d.toList ?_
  by_contra hin
  rw [Vector.length_toList] at hin
  exact ha (a - Buffer.offset .seed) (by omega) (by omega)

/-- On the platform the command completes with what it yields (30_encoding.md R101). -/
theorem exec_genseed {mp pp : Bool} {s : State} {r : OpResult} (hg : genseed platform mp pp s.core = r) :
    exec (.genseed mp pp) s = .next (s.complete platform r) := by
  rw [exec_platform, execWith_genseed, hg]

/-- Settles O46: a byte outside the six makes the mnemonic not blank, and the completion stores the seed alone. -/
theorem genseedCompletesWithTheSeed : Obligations.GenseedCompletesWithTheSeed := by
  intro pp s hm hp ⟨k, hk, hbyte⟩ hwf
  have hg := genseed_of_not_blank hm hp (isBlank_platform_of_byte hk hbyte)
  rw [salt_passphraseOperand] at hg
  refine ⟨_, exec_genseed hg, rfl, rfl, rfl, rfl,
    fun k hk => CoreState.reportSeed_byte _ hwf hk, rfl, rfl, rfl, rfl,
    CoreState.complete_sameOperands platform (.okSeed _) s.core,
    fun a ha => CoreState.reportSeed_read_other _ s.core ha, rfl, rfl, rfl⟩

/-! ### The frame -/

/-- `GENSEED` leaves `WCOUNT` and `WIDX` alone, whatever it yields (41_seed_deriver.md section 2). -/
theorem CoreState.complete_genseed_words (cfg : Config) (mp pp : Bool) (c : CoreState) :
    (c.complete cfg (genseed cfg mp pp c)).wcount = c.wcount ∧ (c.complete cfg (genseed cfg mp pp c)).widx = c.widx := by
  rcases genseed_cases cfg mp pp c with ⟨-, hg⟩ | ⟨-, -, hg⟩ | ⟨-, -, -, hg⟩ <;> rw [hg] <;> exact ⟨rfl, rfl⟩

/-- Settles O51: what every completion leaves, then the completion with an error and the completion with a seed. -/
theorem genseedFrame : Obligations.GenseedFrame := by
  intro mp pp s t hexec
  rw [exec_genseed rfl] at hexec
  obtain rfl := Host.Outcome.next.inj hexec
  obtain ⟨-, hcmd, hfatal, helen, hmlen, hplen⟩ :=
    CoreState.complete_fixed platform (genseed platform mp pp s.core) s.core
  obtain ⟨hwcount, hwidx⟩ := CoreState.complete_genseed_words platform mp pp s.core
  refine ⟨rfl, rfl, rfl, hcmd, hfatal, helen, hmlen, hplen, hwcount, hwidx, fun e he => ?_, fun seed hseed => ?_⟩
  · rw [he]
    exact ⟨rfl, fun _ => rfl⟩
  · rw [hseed]
    exact ⟨rfl, rfl, fun a ha => CoreState.reportSeed_read_other seed s.core
      fun k hk => ha k (by rwa [Vector.length_toList])⟩

end Sys2Proof.Machine
end

section
/-! The digests and the key derivation at their lengths (42_external_primitives.md R183 to R188), and the salt under the
normaliser (R189). -/

namespace Sys2Proof.Machine

/-! ### Byte strings of a fixed length -/

@[simp] theorem beBytes_length {w : Nat} (x : BitVec w) : (beBytes x).length = w / 8 := by
  rw [beBytes, List.length_map, List.length_range]

theorem takePad_length_self (bs : ByteString) : takePad bs.length bs = bs := by
  induction bs with
  | nil => rfl
  | cons b bs ih => rw [List.length_cons, takePad, ih]

/-- A byte string of `n` bytes is neither cut nor padded. -/
theorem exactBytes_toList_of_length {n : Nat} {bs : ByteString} (h : bs.length = n) :
    (exactBytes n bs).toList = bs := by
  subst h
  exact takePad_length_self bs

/-! ### Padding -/

/-- `pad` adds `0x80`, the zeros and the length field (R184). -/
theorem Sha2.pad_length (w : Nat) (m : ByteString) :
    (Sha2.pad w m).length = m.length + 1 + Sha2.lengthBytes w + Sha2.padZeros w m.length := by
  simp only [Sha2.pad, List.length_append, List.length_cons, List.length_nil, List.length_replicate, beBytes_length]
  omega

theorem Sha2.blockBytes_pos {w : Nat} (hw : 0 < w) : 0 < Sha2.blockBytes w := Nat.mul_pos two_pos hw

theorem Sha2.padZeros_lt {w : Nat} (hw : 0 < w) (n : Nat) : Sha2.padZeros w n < Sha2.blockBytes w :=
  Nat.mod_lt _ (Sha2.blockBytes_pos hw)

/-- The zeros make up what the message, `0x80` and the length field leave of the last block (R184). -/
theorem Sha2.pad_length_mod {w : Nat} (hw : 0 < w) (m : ByteString) :
    (Sha2.pad w m).length % Sha2.blockBytes w = 0 := by
  have hle := (Nat.mod_lt (m.length + 1 + Sha2.lengthBytes w) (Sha2.blockBytes_pos hw)).le
  rw [Sha2.pad_length, Sha2.padZeros, Nat.add_mod_mod, ← Nat.mod_add_mod, Nat.add_sub_cancel' hle, Nat.mod_self]

theorem Sha2.pad_length_lt {w : Nat} (hw : 0 < w) (m : ByteString) :
    (Sha2.pad w m).length < m.length + 1 + Sha2.lengthBytes w + Sha2.blockBytes w := by
  rw [Sha2.pad_length]
  exact Nat.add_lt_add_left (Sha2.padZeros_lt hw _) _

theorem Sha2.pad_take (w : Nat) (m : ByteString) : (Sha2.pad w m).take (m.length + 1) = m ++ [0x80] := by
  rw [Sha2.pad, List.append_assoc]
  exact List.take_left' (by rw [List.length_append, List.length_singleton])

/-- Settles O56, by the padding of each word width. -/
theorem paddingFillsWholeBlocks : Obligations.PaddingFillsWholeBlocks := fun m =>
  have h32 : 0 < 32 := by decide
  have h64 : 0 < 64 := by decide
  ⟨Sha2.pad_length_mod h32 m, Sha2.pad_length_mod h64 m, Sha2.pad_length_lt h32 m, Sha2.pad_length_lt h64 m,
    Sha2.pad_take 32 m, Sha2.pad_take 64 m⟩

/-! ### The lengths of the digests -/

/-- The chaining value keeps its eight words over any blocks (R184). -/
theorem Sha2.foldl_compress_length {w : Nat} (p : Sha2Params w) (blocks : List ByteString) {h : List (BitVec w)}
    (hh : h.length = 8) : (blocks.foldl (Sha2.compress p) h).length = 8 := by
  induction blocks generalizing h with
  | nil => exact hh
  | cons b blocks ih => exact ih rfl

/-- A digest is eight words long (R184, R188). -/
theorem Sha2.digest_length {w : Nat} {p : Sha2Params w} (hp : p.init.length = 8) (m : ByteString) :
    (Sha2.digest p m).length = 8 * (w / 8) := by
  simp only [Sha2.digest, List.length_flatMap, beBytes_length, List.map_const', List.sum_replicate, smul_eq_mul,
    Sha2.foldl_compress_length p _ hp]

theorem digest_sha256Params_length (m : ByteString) : (Sha2.digest sha256Params m).length = 32 :=
  Sha2.digest_length rfl m

theorem sha512_length (m : ByteString) : (sha512 m).length = 64 := Sha2.digest_length rfl m

theorem sha256_toList (m : ByteString) : (sha256 m).toList = Sha2.digest sha256Params m :=
  exactBytes_toList_of_length (digest_sha256Params_length m)

/-! ### The key derivation -/

theorem hmacSha512_length (key text : ByteString) : (hmacSha512 key text).length = 64 := sha512_length _

/-- The exclusive or of blocks of `hLen` bytes is one (R187). -/
theorem kdfChain_length (password : ByteString) (n : Nat) {u acc : ByteString} (ha : acc.length = 64) :
    (kdfChain password n u acc).length = 64 := by
  induction n generalizing u acc with
  | zero => exact ha
  | succ n ih => exact ih (by rw [xorBytes, List.length_zipWith, ha, hmacSha512_length, Nat.min_self])

theorem kdfBlock_length (password salt : ByteString) (iterations i : Nat) :
    (kdfBlock password salt iterations i).length = 64 :=
  kdfChain_length password _ (hmacSha512_length _ _)

/-- 64 bytes of output are one block, whole (R187). -/
theorem pbkdf2HmacSha512_64_toList (password salt : ByteString) (iterations : Nat) :
    (pbkdf2HmacSha512 password salt iterations 64).toList = kdfBlock password salt iterations 1 := by
  have hone : (List.range ((64 + kdfHLen - 1) / kdfHLen)).flatMap (fun i => kdfBlock password salt iterations (i + 1)) =
      kdfBlock password salt iterations 1 := List.flatMap_singleton _ 0
  rw [pbkdf2HmacSha512, hone]
  exact exactBytes_toList_of_length (kdfBlock_length password salt iterations 1)

/-- Settles O55: the chaining value has eight words, and one block of the key derivation is one digest long. -/
theorem digestLengthsAndSingleBlock : Obligations.DigestLengthsAndSingleBlock :=
  ⟨fun m => ⟨digest_sha256Params_length m, sha256_toList m⟩, sha512_length, pbkdf2HmacSha512_64_toList⟩

/-! ### The salt under the normaliser -/

theorem isAscii_iff (t : ByteString) : isAscii t = true ↔ ∀ b ∈ t, b.toNat < 0x80 := by
  simp [isAscii, BitVec.lt_def]

/-- The prefix is ASCII, so that the salt is ASCII when the passphrase is (41_seed_deriver.md R163). -/
theorem isAscii_salt (p : ByteString) : isAscii (salt (some p)) = isAscii p := by
  rw [salt, Option.getD_some, isAscii, List.all_append]
  rfl

theorem nfkdPlatform_of_isAscii {t : ByteString} (h : isAscii t = true) : nfkdPlatform t = t := if_pos h

/-- Settles O54: the law on texts after the prefix, and the ASCII case of the platform's normaliser. -/
theorem saltNormalisationCommutes : Obligations.SaltNormalisationCommutes :=
  ⟨fun _ p hlaws hp => hlaws.afterSaltPrefix p hp,
    fun p hp => nfkdPlatform_of_isAscii ((isAscii_salt p).trans ((isAscii_iff p).2 hp))⟩

end Sys2Proof.Machine
end

section
/-! The errors of an operation: which word raises each, in which order, and what its completion leaves
(60_exceptions.md R210 to R224). -/

namespace Sys2Proof.Machine

/-! ### What an operation yields, by its word -/

section
variable {cfg : Config} {w : Word} {c : CoreState} {e : CoreError} {ep mp pp : Bool}

theorem execute_of_decode_genmnem (h : decode w = some (.genmnem ep)) : execute cfg w c = genmnem cfg ep c := by
  rw [execute, h]

theorem execute_of_decode_genseed (h : decode w = some (.genseed mp pp)) : execute cfg w c = genseed cfg mp pp c := by
  rw [execute, h]

/-- An error comes from a word that does not decode or from the command it decodes to (60_exceptions.md section 1). -/
theorem execute_eq_err_iff : execute cfg w c = .err e ↔
    (decode w = none ∧ e = .commandError) ∨
    (∃ ep, decode w = some (.genmnem ep) ∧ genmnem cfg ep c = .err e) ∨
    (∃ mp pp, decode w = some (.genseed mp pp) ∧ genseed cfg mp pp c = .err e) := by
  cases hd : decode w with
  | none => simp [execute_of_decode_eq_none cfg hd, eq_comm]
  | some i =>
    cases i with
    | genmnem ep => simp [execute_of_decode_genmnem hd]
    | genseed mp pp => simp [execute_of_decode_genseed hd, and_assoc, -Bool.exists_bool]

/-- `GENMNEM` has one error (60_exceptions.md R211). -/
theorem genmnem_eq_err_iff : genmnem cfg ep c = .err e ↔
    e = .invalidEntropy ∧ (ep = false ∨ c.elen.toNat ∉ validLengths) := by
  rcases genmnem_cases cfg ep c with ⟨hep, hv, hg⟩ | ⟨hbad, hg⟩ <;> rw [hg]
  · simp [hep, hv]
  · simp [hbad, eq_comm]

/-- `GENSEED` has two errors, and the capacity test comes first (60_exceptions.md R222). -/
theorem genseed_eq_err_iff : genseed cfg mp pp c = .err e ↔
    (overCapacity mp pp c = true ∧ e = .commandError) ∨
    (overCapacity mp pp c = false ∧ e = .emptyMnemonic ∧
      (mp = false ∨ cfg.isBlank (c.bytes .mbuf c.mlen.toNat) = true)) := by
  rcases genseed_cases cfg mp pp c with ⟨ho, hg⟩ | ⟨ho, hblank, hg⟩ | ⟨ho, hmp, hblank, hg⟩ <;> rw [hg, ho]
  · simp [eq_comm (a := e)]
  · simp [hblank, eq_comm (a := e)]
  · simp [hmp, hblank]

theorem overCapacity_eq_false_iff : overCapacity mp pp c = false ↔
    (mp = true → c.mlen.toNat ≤ 256) ∧ (pp = true → c.plen.toNat ≤ 256) := by
  rw [← Bool.not_eq_true, overCapacity_iff, not_or, not_and, not_and, Nat.not_lt, Nat.not_lt]

end

/-! ### The condition of each error -/

/-- Settles O36: `GENMNEM` has no other error, and no other word has this one. -/
theorem genmnemRejectsIllegalEntropy : Obligations.GenmnemRejectsIllegalEntropy := by
  refine ⟨fun ep s h => ?_, fun cfg w c => ?_⟩
  · rw [exec_platform, execWith_genmnem, genmnem_eq_err_iff.2 ⟨rfl, h⟩]
    rfl
  · simp [execute_eq_err_iff, genmnem_eq_err_iff, genseed_eq_err_iff, validLengths]

/-- A mnemonic of bytes among the six is blank on the platform (41_seed_deriver.md R162; log 9). -/
theorem isBlank_platform_of_forall_byte {c : CoreState} {n : Nat}
    (h : ∀ k, k < n → c.byte .mbuf k ∈ [0x09, 0x0A, 0x0B, 0x0C, 0x0D, 0x20]) :
    platform.isBlank (c.bytes .mbuf n) = true := by
  refine (isBlankDefault_iff _).2 fun b hb => ?_
  obtain ⟨k, hk, rfl⟩ := List.mem_map.1 hb
  simpa using h k (List.mem_range.1 hk)

/-- Settles O47: `GENSEED` has this error after the capacity test, and no other word has it. -/
theorem genseedRejectsEmptyMnemonic : Obligations.GenseedRejectsEmptyMnemonic := by
  refine ⟨fun mp pp s hm hp hempty => ?_, fun cfg w c => ?_⟩
  · have hcap := overCapacity_eq_false hm hp
    have hg : genseed platform mp pp s.core = .err .emptyMnemonic :=
      genseed_eq_err_iff.2 (.inr ⟨hcap, rfl, hempty.imp_right isBlank_platform_of_forall_byte⟩)
    rw [exec_genseed hg]
    rfl
  · simp [execute_eq_err_iff, genmnem_eq_err_iff, genseed_eq_err_iff, overCapacity_eq_false_iff, and_assoc]

/-- Settles O48: each command's errors in their order, and what it yields where it has none. -/
theorem errorPriorityFollowsItsOrder : Obligations.ErrorPriorityFollowsItsOrder := by
  refine fun cfg w c => ⟨fun hd => execute_of_decode_eq_none cfg hd c, fun ep hd => ?_, fun mp pp hd => ?_⟩
  · rw [execute_of_decode_genmnem hd]
    refine ⟨fun h => genmnem_eq_err_iff.2 ⟨rfl, h⟩, ?_⟩
    rintro rfl hv
    exact ⟨_, genmnem_of_validLength cfg hv⟩
  · rw [execute_of_decode_genseed hd, ← overCapacity_iff, Bool.not_eq_true]
    refine ⟨genseed_of_overCapacity cfg, fun hcap =>
      ⟨fun hempty => genseed_eq_err_iff.2 (.inr ⟨hcap, rfl, hempty⟩), ?_⟩⟩
    rintro rfl hblank
    obtain ⟨hm, hp⟩ := overCapacity_eq_false_iff.1 hcap
    exact ⟨_, genseed_of_not_blank (hm rfl) hp hblank⟩

/-! ### What an error leaves in `STATUS` -/

/-- `ECODE` after a completion: the error's code, or as before (30_encoding.md R101). -/
theorem CoreState.complete_ecode_cases (cfg : Config) (r : OpResult) (c : CoreState) :
    (∃ e, r = .err e ∧ (c.complete cfg r).ecode = some e) ∨ (c.complete cfg r).ecode = c.ecode := by
  cases r with
  | err e => exact .inl ⟨e, rfl, rfl⟩
  | okMnemonic l => exact .inr (CoreState.reportMnemonic_flags cfg l c).2.2.1
  | okSeed d => exact .inr rfl

/-- Settles O31: a completion reports no such error, and an issue and a reset clear `ECODE`. -/
theorem indexErrorIsNeverRaised : Obligations.IndexErrorIsNeverRaised := by
  intro cfg s t h hstep
  rcases stepWith_core_cases hstep with ⟨-, -, ht⟩ | ⟨-, -, ht⟩ | ⟨_, _, v, -, -, -, -, ht⟩ |
    ⟨_, _, v, tg, -, -, -, ho, ht⟩ | ⟨-, ht⟩ <;> rw [ht]
  · exact h
  · rcases CoreState.complete_ecode_cases cfg (execute cfg s.core.cmd s.core) s.core with ⟨e, he, hcode⟩ | hcode
    · rw [hcode]
      exact fun heq => execute_error he (Option.some.inj heq)
    · rwa [hcode]
  · simp
  · obtain ⟨-, hst, -⟩ := CoreState.writeOperand_frame ho v s.core
    rwa [hst.ecode]
  · simp

/-- Settles O49: while busy `DONE` is 0 and the results are zero by the status invariant, and the completion leaves
them. -/
theorem failingOperationReportsInStatusAlone : Obligations.FailingOperationReportsInStatusAlone := by
  intro cfg s e hm hst he
  obtain ⟨hdone, -, -, -, hz⟩ := hst.of_busy (State.busy_of_nextMove hm)
  refine ⟨_, stepWith_of_nextMove_core cfg hm, by simp, by simp, ?_, ?_, ?_⟩ <;>
    rw [State.complete_core, State.takeTurn_core, he]
  · rfl
  · exact hdone
  · exact hz.of_sameResults ⟨rfl, fun _ => rfl, fun _ _ => rfl⟩

end Sys2Proof.Machine
end

section
/-! A command issued again, and several units of the CORE side by side (60_exceptions.md R226, R234). -/

namespace Sys2Proof.Machine

/-! ### A command issued again -/

theorem SameOperands.trans {c d e : CoreState} (h : SameOperands c d) (h' : SameOperands d e) : SameOperands c e where
  elen := h.elen.trans h'.elen
  mlen := h.mlen.trans h'.mlen
  plen := h.plen.trans h'.plen
  bytes a ha := (h.bytes a ha).trans (h'.bytes a ha)

theorem ResultsZero.sameResults {c d : CoreState} (hc : ResultsZero c) (hd : ResultsZero d) : SameResults c d where
  wcount := hc.wcount.trans hd.wcount.symm
  widx i := (hc.widx i).trans (hd.widx i).symm
  bytes a ha := (hc.bytes a ha).trans (hd.bytes a ha).symm

section
variable {c d : CoreState} (h : SameOperands c d)
include h

theorem SameOperands.genmnem_eq (cfg : Config) (ep : Bool) : genmnem cfg ep c = genmnem cfg ep d := by
  have hop := entropyOperand_congr cfg (ep := ep) (fun _ => h.elen) fun _ h32 k hk =>
    h.bytes (Buffer.offset .ebuf + k) (.inl (by rw [Buffer.offset]; omega))
  rw [genmnem, genmnem, hop]

theorem SameOperands.overCapacity_eq (mp pp : Bool) : overCapacity mp pp c = overCapacity mp pp d := by
  rw [overCapacity, overCapacity, h.mlen, h.plen]

/-- Bytes beyond a buffer are not read: the capacity test comes first (60_exceptions.md R222). -/
theorem SameOperands.genseed_eq (cfg : Config) (mp pp : Bool) : genseed cfg mp pp c = genseed cfg mp pp d := by
  cases hcap : overCapacity mp pp c with
  | true => rw [genseed_of_overCapacity cfg hcap, genseed_of_overCapacity cfg (h.overCapacity_eq mp pp ▸ hcap)]
  | false =>
    obtain ⟨hm, hp⟩ := overCapacity_eq_false_iff.1 hcap
    refine genseed_congr cfg (fun hmp => ⟨h.mlen, fun k hk => h.bytes _ (.inr ?_)⟩)
      (fun hpp => ⟨h.plen, fun k hk => h.bytes _ (.inr ?_)⟩)
    · have := hm hmp
      rw [Buffer.offset]; omega
    · have := hp hpp
      rw [Buffer.offset]; omega

/-- An operation is a function of its word and the operands (40_mnemonic_encoder.md R141, 41_seed_deriver.md R166). -/
theorem SameOperands.execute_eq (cfg : Config) (w : Word) : execute cfg w c = execute cfg w d := by
  cases hd : decode w with
  | none => rw [execute_of_decode_eq_none cfg hd, execute_of_decode_eq_none cfg hd]
  | some i =>
    cases i with
    | genmnem ep => rw [execute_of_decode_genmnem hd, execute_of_decode_genmnem hd, h.genmnem_eq]
    | genseed mp pp => rw [execute_of_decode_genseed hd, execute_of_decode_genseed hd, h.genseed_eq]

end

/-- Settles O57: the word issued again finds the operands, the status and the zero results of the first time. -/
theorem reissuedCommandRepeatsItsResult : Obligations.ReissuedCommandRepeatsItsResult := by
  intro cfg c hb hst hmem first again second
  obtain ⟨hdone, herr, hfatal, hecode, hz⟩ := hst.of_busy hb
  obtain ⟨hbusy', -, hfatal', -⟩ := CoreState.complete_fixed cfg (execute cfg c.cmd c) c
  have hops : SameOperands again c :=
    (CoreState.issue_sameOperands c.cmd first).trans (CoreState.complete_sameOperands cfg _ c)
  have hexec : execute cfg again.cmd again = execute cfg c.cmd c := hops.execute_eq cfg c.cmd
  have hstatus : SameStatus c again := ⟨hb, hdone, herr, hfatal'.symm, hecode⟩
  have hresults : SameResults c again := hz.sameResults (CoreState.issue_resultsZero c.cmd first)
  have hmem' : MemoryInv again.mem := CoreState.issue_memoryInv c.cmd (CoreState.complete_memoryInv cfg _ hmem)
  have hsecond : second = again.complete cfg (execute cfg c.cmd c) := congrArg (again.complete cfg) hexec
  rw [hsecond]
  exact ⟨by simp [CoreState.accepts, first, hbusy', hfatal', hfatal], rfl, CoreState.complete_sameStatus cfg _ hstatus,
    CoreState.complete_sameResults cfg _ hresults hmem.wf hmem'.wf⟩

/-! ### Several units -/

/-- A unit keeps its base and moves as it would alone (60_exceptions.md R234). -/
theorem Unit.step_eq_next {cfg : Config} {u u' : Machine.Unit} (h : u.step cfg = .next u') :
    u'.baseWord = u.baseWord ∧ stepWith (u.config cfg) u.state = .next u'.state := by
  unfold Unit.step at h
  split at h
  · cases h
    exact ⟨rfl, ‹_›⟩
  · cases h
  · cases h

/-- A step of unit `k` replaces it by its own step, and without such a unit nothing moves (log 18). -/
theorem stepUnits_cases {cfg : Config} {k : Nat} {us us' : List Machine.Unit} (h : stepUnits cfg k us = .next us') :
    (us[k]? = none ∧ us' = us) ∨ ∃ u u', us[k]? = some u ∧ u.step cfg = .next u' ∧ us' = us.set k u' := by
  induction us generalizing k us' with
  | nil => cases k <;> exact .inl ⟨rfl, (Host.Outcome.next.inj h).symm⟩
  | cons v vs ih =>
    cases k with
    | zero =>
      rw [stepUnits] at h
      split at h
      · exact .inr ⟨v, _, rfl, ‹_›, (Host.Outcome.next.inj h).symm⟩
      · cases h
      · cases h
    | succ k =>
      rw [stepUnits] at h
      split at h
      · obtain rfl := Host.Outcome.next.inj h
        rcases ih ‹_› with ⟨hk, rfl⟩ | ⟨u, u', hu, hstep, rfl⟩
        · exact .inl ⟨hk, rfl⟩
        · exact .inr ⟨u, u', hu, hstep, rfl⟩
      · cases h
      · cases h

/-- Settles O58: the list is as before, or has its entry `k` replaced by that unit's own step. -/
theorem instancesAreIndependent : Obligations.InstancesAreIndependent := by
  intro cfg k us us' h
  rcases stepUnits_cases h with ⟨hk, rfl⟩ | ⟨u, u', hu, hstep, rfl⟩
  · exact ⟨rfl, fun _ _ => rfl, fun u hu => by rw [hk] at hu; cases hu⟩
  · obtain ⟨hlt, -⟩ := List.getElem?_eq_some_iff.1 hu
    refine ⟨List.length_set, fun j hj => List.getElem?_set_ne hj.symm, fun v hv => ⟨u', ?_, ?_⟩⟩
    · rw [List.getElem?_set_self hlt]
    · obtain rfl := Option.some.inj (hu.symm.trans hv)
      exact Unit.step_eq_next hstep

end Sys2Proof.Machine
end

section
/-! The FATAL state (70_reset_and_hazards.md R253): reset alone sets or clears `FATAL`, and a CORE where it is set changes
by operand writes and resets alone. -/

namespace Sys2Proof.Machine

/-- After reset `FATAL` is set exactly under a malformed wordlist (70_reset_and_hazards.md R253). -/
theorem CoreState.reset_fatal_eq_true_iff (cfg : Config) :
    (CoreState.reset cfg).fatal = true ↔ ¬WordlistWellFormed cfg.wordlist := by
  rw [← CoreState.reset_fatal_eq_false_iff, Bool.not_eq_false]

/-- Settles O26, by what a step can do to the CORE: where `FATAL` is set nothing is in flight to complete and no command
is issued; an operand write leaves status, `CMD` and results alone, and a reset writes the verdict and zeros. -/
theorem fatalCoreAcceptsNothing : Obligations.FatalCoreAcceptsNothing := by
  intro cfg s t hstep hverdict hquiet
  rcases stepWith_core_cases hstep with ⟨-, -, ht⟩ | ⟨-, hb, ht⟩ | ⟨_, _, v, -, -, -, hf, ht⟩ |
    ⟨_, _, v, tg, -, -, -, ho, ht⟩ | ⟨-, ht⟩ <;> rw [ht]
  · exact ⟨hverdict, hquiet⟩
  · have hnot : s.core.fatal ≠ true := fun hf => by
      obtain ⟨huntouched, -⟩ := hquiet hf
      simp [CoreState.untouched_eq_false_of_busy hb] at huntouched
    obtain ⟨-, -, hfatal, -⟩ := CoreState.complete_fixed cfg (execute cfg s.core.cmd s.core) s.core
    rw [hfatal]
    exact ⟨hverdict, fun hf => absurd hf hnot⟩
  · rw [CoreState.issue_fatal]
    exact ⟨hverdict, fun h => by simp [hf] at h⟩
  · obtain ⟨hres, hst, hcmd, -⟩ := CoreState.writeOperand_frame ho v s.core
    rw [hst.fatal, hst.untouched_eq, hcmd]
    refine ⟨hverdict, fun hf => ?_⟩
    obtain ⟨huntouched, hcmd0, hzero⟩ := hquiet hf
    exact ⟨huntouched, hcmd0, hzero.of_sameResults hres⟩
  · exact ⟨CoreState.reset_fatal_eq_true_iff cfg, fun _ => ⟨rfl, rfl, CoreState.reset_resultsZero cfg⟩⟩

end Sys2Proof.Machine
end
